-- ==== Sys2Proof/Word.lean ====
section
/-! DEFINITION. The widths of RSGF8's data: bytes (field elements), half words (image sizes, row numbers), words
(CSRs, command words, bit-matrix words). Rules R10, R26, R90 of spec/. -/

namespace Sys2Proof

/-- A byte: a field element, a polynomial coefficient, a codeword, a luminance sample (R10). -/
abbrev Byte := BitVec 8

/-- 16 bits: `IMG_W`, `IMG_H`, `OUT_W`, `OUT_H` and the row number of format B (R31 to R34, R92). -/
abbrev Half := BitVec 16

/-- 32 bits: a CSR, a command word, an element of `BMEM` (R26, R40, R90). -/
abbrev Word := BitVec 32

/-- A polynomial: coefficients highest power first (R22). -/
abbrev Poly := List Byte

end Sys2Proof
end

