-- ==== Sys2Proof/Config.lean ====
section
/-! DEFINITION. What an implementation of RSGF8 fixes (the sizes of the memories, rules R7, R8) and the free values the
spec leaves open (the contents of the memories after hardware reset, rules R43, R312 and U3 of spec/). -/

namespace Sys2Proof.Config

/-- `NPOLY`, the number of polynomial registers (R7). -/
abbrev npoly : Nat := 8

/-- `PCAP`, the most coefficients a polynomial register holds (R7, R159). -/
abbrev pcap : Nat := 256

/-- `CWSIZE`, the number of bytes of the codeword buffer (R7, R38). -/
abbrev cwSize : Nat := 256

/-- `NMAX`, the longest Reed-Solomon block (R7). -/
abbrev nmax : Nat := 255

/-- The two open parameters of R8: `LMEM_SIZE` in bytes and `BMEM_WORDS` in 32-bit words, both at least 1. -/
structure Sizes where
  lmemSize  : Nat
  bmemWords : Nat
  deriving DecidableEq, Repr

/-- The sizes of the machine `State.reset` describes. DESIGN CHOICE (notes/assumptions/2.md), unsafe for a claim that rests
on them: the spec leaves both open; these are the sizes its own vectors use (95_test_vectors.md sections 4.5 and 6). -/
def defaultSizes : Sizes := ⟨16384, 512⟩

/-- FREE VALUE: what `CW[i]` holds after the `k`-th hardware reset until it is written: "unspecified: any byte
values" (R43, R312, U3). It has no body, so nothing can be proved of it (notes/assumptions/1.md; safe). -/
opaque cwPowerOn (k i : Nat) : Byte

/-- FREE VALUE: what `LMEM[i]` holds after the `k`-th hardware reset until it is written (R43, R312; safe). -/
opaque lmemPowerOn (k i : Nat) : Byte

/-- FREE VALUE: what `BMEM[i]` holds after the `k`-th hardware reset until it is written (R43, R312; safe). -/
opaque bmemPowerOn (k i : Nat) : Word

end Sys2Proof.Config
end

