-- ==== Sys2Proof/Syntax.lean ====
section
/-! DEFINITION. The 26 commands of RSGF8: one constructor per row of spec/opcode_table.json (rule R99), with the operands
of that row in the order of its assembler syntax (rule R105). -/

namespace Sys2Proof

/-- A polynomial register number, `P0` to `P7` (R21, R100). -/
abbrev Reg := Fin 8

/-- The commands (R99). Byte operands are field elements or counts 0 to 255, `row` is 0 to 65535 (R100). -/
inductive Instr where
  | nop
  | sreset
  | gfadd (a b : Byte)
  | gfmul (a b : Byte)
  | gfinv (a : Byte)
  | gfexp (i : Byte)
  | gflog (a : Byte)
  | pzero (rd : Reg)
  | pone  (rd : Reg)
  | pld   (rd : Reg) (off len : Byte)
  | pst   (ra : Reg) (off : Byte)
  | pdeg  (ra : Reg)
  | pcoef (ra : Reg) (k : Byte)
  | peval (ra : Reg) (a : Byte)
  | padd  (rd ra rb : Reg)
  | pmul  (rd ra rb : Reg)
  | pscl  (rd ra : Reg) (c : Byte)
  | pmulm (rd ra : Reg) (deg coef : Byte)
  | pdiv  (rd re ra rb : Reg)
  | rsenc (nd ec : Byte)
  | rsdec (n twoS : Byte)
  | rsgen (rd : Reg) (k : Byte)
  | rssyn (rd : Reg) (n twoS : Byte)
  | bingm
  | bingr (row : Half)
  | binhm
  deriving DecidableEq, Repr

end Sys2Proof
end

