-- ==== Sys2Proof/WellFormed.lean ====
section
/-! DEFINITION. Well-formed commands. The operand types carry every range of rule R100; the one check left is the
constraint of `PDIV` (rules R99, R101 (b)): its two destinations differ. -/

namespace Sys2Proof

/-- Does the term stand for a legal command word? Only `PDIV` with equal destinations does not (R101). -/
def Instr.wf : Instr → Bool
  | .pdiv rd re _ _ => rd != re
  | .nop | .sreset | .gfadd _ _ | .gfmul _ _ | .gfinv _ | .gfexp _ | .gflog _ => true
  | .pzero _ | .pone _ | .pld _ _ _ | .pst _ _ | .pdeg _ | .pcoef _ _ | .peval _ _ => true
  | .padd _ _ _ | .pmul _ _ _ | .pscl _ _ _ | .pmulm _ _ _ _ => true
  | .rsenc _ _ | .rsdec _ _ | .rsgen _ _ | .rssyn _ _ _ => true
  | .bingm | .bingr _ | .binhm => true

end Sys2Proof
end

