-- ==== Sys2Proof/Decode.lean ====
section
/-! DEFINITION. The command word: decoder (total on every 32-bit word, rejecting by name, rules R98, R101, R103) and
encoder (from the formats of rule R92 and the opcode map of rule R99). -/

namespace Sys2Proof

/-- Why a word is no command (R101). The block ends every such command word with `ILLEGAL_COMMAND`. -/
inductive DecodeError where
  /-- The opcode is none of the 26 listed (R101 (a)). -/
  | unlistedOpcode
  /-- A must-be-zero bit of the opcode's row is 1 (R98, R101 (a)). -/
  | mustBeZeroBitSet
  /-- `PDIV` with `rd` = `re` (R101 (b)). -/
  | pdivSameDestination
  deriving DecidableEq, Repr

/-! ### The fields of the six formats (R91, R92) -/

/-- Bits 31:24 of every command word (R91). -/
def opcodeOf (w : Word) : Byte := w.extractLsb' 24 8

/-- `rd` of formats R and I: bits 23:21. -/
def fieldRd (w : Word) : Reg := (w.extractLsb' 21 3).toFin

/-- `re` of format R: bits 20:18. -/
def fieldRe (w : Word) : Reg := (w.extractLsb' 18 3).toFin

/-- `ra` of format R: bits 17:15. -/
def fieldRaR (w : Word) : Reg := (w.extractLsb' 15 3).toFin

/-- `rb` of format R: bits 14:12. -/
def fieldRb (w : Word) : Reg := (w.extractLsb' 12 3).toFin

/-- `ra` of format I: bits 20:18 ("Note that `ra` is at bits 17:15 in format R and at bits 20:18 in format I", R92). -/
def fieldRaI (w : Word) : Reg := (w.extractLsb' 18 3).toFin

/-- Bits 15:8: `a` of format S, `i1` of format I, `n1` of format C. -/
def fieldHi (w : Word) : Byte := w.extractLsb' 8 8

/-- Bits 7:0: `b` of format S, `i2` of format I, `n2` of format C. -/
def fieldLo (w : Word) : Byte := w.extractLsb' 0 8

/-- `row` of format B: bits 15:0. -/
def fieldRow (w : Word) : Half := w.extractLsb' 0 16

/-! ### Decoder -/

/-- The command `i` if the must-be-zero bits of its row, those of `mbz`, are all 0 in `w` (R98). -/
def requireZero (mbz w : Word) (i : Instr) : Except DecodeError Instr :=
  if w &&& mbz = 0 then .ok i else .error .mustBeZeroBitSet

/-- The decoder (R99, R101, R103). The opcode selects the row; the mask beside each row is that of R99 without its
opcode bits, that is, the row's must-be-zero bits. -/
def decode (w : Word) : Except DecodeError Instr :=
  match (opcodeOf w).toNat with
  | 0x00 => requireZero 0x00FFFFFF w .nop
  | 0x01 => requireZero 0x00FFFFFF w .sreset
  | 0x10 => requireZero 0x00FF0000 w (.gfadd (fieldHi w) (fieldLo w))
  | 0x11 => requireZero 0x00FF0000 w (.gfmul (fieldHi w) (fieldLo w))
  | 0x12 => requireZero 0x00FF00FF w (.gfinv (fieldHi w))
  | 0x13 => requireZero 0x00FF00FF w (.gfexp (fieldHi w))
  | 0x14 => requireZero 0x00FF00FF w (.gflog (fieldHi w))
  | 0x20 => requireZero 0x001FFFFF w (.pzero (fieldRd w))
  | 0x21 => requireZero 0x001FFFFF w (.pone (fieldRd w))
  | 0x22 => requireZero 0x001F0000 w (.pld (fieldRd w) (fieldHi w) (fieldLo w))
  | 0x23 => requireZero 0x00E300FF w (.pst (fieldRaI w) (fieldHi w))
  | 0x24 => requireZero 0x00FC7FFF w (.pdeg (fieldRaR w))
  | 0x25 => requireZero 0x00E3FF00 w (.pcoef (fieldRaI w) (fieldLo w))
  | 0x26 => requireZero 0x00E3FF00 w (.peval (fieldRaI w) (fieldLo w))
  | 0x28 => requireZero 0x001C0FFF w (.padd (fieldRd w) (fieldRaR w) (fieldRb w))
  | 0x29 => requireZero 0x001C0FFF w (.pmul (fieldRd w) (fieldRaR w) (fieldRb w))
  | 0x2A => requireZero 0x0003FF00 w (.pscl (fieldRd w) (fieldRaI w) (fieldLo w))
  | 0x2B => requireZero 0x00030000 w (.pmulm (fieldRd w) (fieldRaI w) (fieldHi w) (fieldLo w))
  | 0x2C =>
    if w &&& 0x00000FFF = 0 ∧ fieldRd w = fieldRe w then .error .pdivSameDestination
    else requireZero 0x00000FFF w (.pdiv (fieldRd w) (fieldRe w) (fieldRaR w) (fieldRb w))
  | 0x30 => requireZero 0x00FF0000 w (.rsenc (fieldHi w) (fieldLo w))
  | 0x31 => requireZero 0x00FF0000 w (.rsdec (fieldHi w) (fieldLo w))
  | 0x32 => requireZero 0x001FFF00 w (.rsgen (fieldRd w) (fieldLo w))
  | 0x33 => requireZero 0x001F0000 w (.rssyn (fieldRd w) (fieldHi w) (fieldLo w))
  | 0x40 => requireZero 0x00FFFFFF w .bingm
  | 0x41 => requireZero 0x00FF0000 w (.bingr (fieldRow w))
  | 0x42 => requireZero 0x00FFFFFF w .binhm
  | _ => .error .unlistedOpcode

/-! ### Encoder: the formats of R92, most significant field first -/

/-- Format Z: `op`, 24 zero bits. -/
def formatZ (op : Byte) : Word := op ++ 0#24

/-- Formats S and C: `op`, 8 zero bits, two 8-bit operands. -/
def formatS (op a b : Byte) : Word := op ++ 0#8 ++ a ++ b

/-- Format R: `op`, four register fields, 12 zero bits. -/
def formatR (op : Byte) (rd re ra rb : Reg) : Word :=
  op ++ BitVec.ofFin (w := 3) rd ++ BitVec.ofFin (w := 3) re ++ BitVec.ofFin (w := 3) ra
    ++ BitVec.ofFin (w := 3) rb ++ 0#12

/-- Format I: `op`, two register fields, 2 zero bits, two 8-bit immediates. -/
def formatI (op : Byte) (rd ra : Reg) (i1 i2 : Byte) : Word :=
  op ++ BitVec.ofFin (w := 3) rd ++ BitVec.ofFin (w := 3) ra ++ 0#2 ++ i1 ++ i2

/-- Format B: `op`, 8 zero bits, a 16-bit row number. -/
def formatB (op : Byte) (row : Half) : Word := op ++ 0#8 ++ row

/-- The command word of a command (R99, R105): every unused field is zero (R98). -/
def encode : Instr → Word
  | .nop                    => formatZ 0x00
  | .sreset                 => formatZ 0x01
  | .gfadd a b              => formatS 0x10 a b
  | .gfmul a b              => formatS 0x11 a b
  | .gfinv a                => formatS 0x12 a 0
  | .gfexp i                => formatS 0x13 i 0
  | .gflog a                => formatS 0x14 a 0
  | .pzero rd               => formatR 0x20 rd 0 0 0
  | .pone rd                => formatR 0x21 rd 0 0 0
  | .pld rd off len         => formatI 0x22 rd 0 off len
  | .pst ra off             => formatI 0x23 0 ra off 0
  | .pdeg ra                => formatR 0x24 0 0 ra 0
  | .pcoef ra k             => formatI 0x25 0 ra 0 k
  | .peval ra a             => formatI 0x26 0 ra 0 a
  | .padd rd ra rb          => formatR 0x28 rd 0 ra rb
  | .pmul rd ra rb          => formatR 0x29 rd 0 ra rb
  | .pscl rd ra c           => formatI 0x2A rd ra 0 c
  | .pmulm rd ra deg coef   => formatI 0x2B rd ra deg coef
  | .pdiv rd re ra rb       => formatR 0x2C rd re ra rb
  | .rsenc nd ec            => formatS 0x30 nd ec
  | .rsdec n twoS           => formatS 0x31 n twoS
  | .rsgen rd k             => formatI 0x32 rd 0 0 k
  | .rssyn rd n twoS        => formatI 0x33 rd 0 n twoS
  | .bingm                  => formatZ 0x40
  | .bingr row              => formatB 0x41 row
  | .binhm                  => formatZ 0x42

/-! ### The opcode map as a table (R99) -/

/-- A row of the opcode map: a word selects the row exactly when `w & mask = pattern` (R98). -/
structure OpcodeRow where
  mnemonic : String
  pattern  : Word
  mask     : Word
  deriving DecidableEq, Repr

/-- The opcode map of R99, column by column as printed there. -/
def opcodeRows : List OpcodeRow :=
  [⟨"NOP", 0x00000000, 0xFFFFFFFF⟩, ⟨"SRESET", 0x01000000, 0xFFFFFFFF⟩,
   ⟨"GFADD", 0x10000000, 0xFFFF0000⟩, ⟨"GFMUL", 0x11000000, 0xFFFF0000⟩,
   ⟨"GFINV", 0x12000000, 0xFFFF00FF⟩, ⟨"GFEXP", 0x13000000, 0xFFFF00FF⟩,
   ⟨"GFLOG", 0x14000000, 0xFFFF00FF⟩] ++
  [⟨"PZERO", 0x20000000, 0xFF1FFFFF⟩, ⟨"PONE", 0x21000000, 0xFF1FFFFF⟩,
   ⟨"PLD", 0x22000000, 0xFF1F0000⟩, ⟨"PST", 0x23000000, 0xFFE300FF⟩,
   ⟨"PDEG", 0x24000000, 0xFFFC7FFF⟩, ⟨"PCOEF", 0x25000000, 0xFFE3FF00⟩,
   ⟨"PEVAL", 0x26000000, 0xFFE3FF00⟩, ⟨"PADD", 0x28000000, 0xFF1C0FFF⟩,
   ⟨"PMUL", 0x29000000, 0xFF1C0FFF⟩, ⟨"PSCL", 0x2A000000, 0xFF03FF00⟩,
   ⟨"PMULM", 0x2B000000, 0xFF030000⟩, ⟨"PDIV", 0x2C000000, 0xFF000FFF⟩] ++
  [⟨"RSENC", 0x30000000, 0xFFFF0000⟩, ⟨"RSDEC", 0x31000000, 0xFFFF0000⟩,
   ⟨"RSGEN", 0x32000000, 0xFF1FFF00⟩, ⟨"RSSYN", 0x33000000, 0xFF1F0000⟩,
   ⟨"BINGM", 0x40000000, 0xFFFFFFFF⟩, ⟨"BINGR", 0x41000000, 0xFFFF0000⟩,
   ⟨"BINHM", 0x42000000, 0xFFFFFFFF⟩]

/-! ### The host's entry -/

/-- What the decoder reads from the command word whose low `nbits` bits are those of `w` and whose other bits are 0: a
command word is the 32-bit number the host writes (R90), so the table's bit numbering is the word's own. -/
def decodeTableWord (nbits w : Nat) : Option Instr :=
  match decode (BitVec.ofNat 32 (w % 2 ^ nbits)) with
  | .ok i => some i
  | .error _ => none

end Sys2Proof
end

