-- ==== Sys2Proof/Machine/State.lean ====
section
/-! DEFINITION. The state of RSGF8 as plain data: all the architectural state of rule R20, the two size parameters of
R8, and the model's own host queue. The reset state is that of rules R43 and R310 of spec/. -/

namespace Sys2Proof.Machine

/-- A memory of elements of `w` bits: (index, element) pairs. An index that is not listed has not been written since
hardware reset; it looks up as `none` and reads as the free value of `Config` (notes/assumptions/1.md). Canonical form:
indices strictly rising and inside the space (`Memory.wf` in Machine/Ops.lean). At `w = 8` an entry is a `Host.Cell`. -/
abbrev Memory (w : Nat) := List (Nat × BitVec w)

/-- The acts of the host (R60), in element indices as there, and the platform's hardware reset (R310). A write of CSR 0
runs a command (R27). -/
inductive HostAct where
  | readCSR   (n : Nat)
  | writeCSR  (n : Nat) (v : Word)
  | readCW    (i : Nat)
  | writeCW   (i : Nat) (v : Byte)
  | readLMEM  (i : Nat)
  | writeLMEM (i : Nat) (v : Byte)
  | readBMEM  (i : Nat)
  | writeBMEM (i : Nat) (v : Word)
  | hwReset
  deriving DecidableEq, Repr

/-- The error classes of R281 other than `OK`. -/
inductive ErrorCode where
  | illegalArgument
  | notFound
  | checksum
  | illegalCommand
  deriving DecidableEq, Repr

/-- Reasons for the machine to stop with a fault. There are none: every command ends in success or in an error that the
block records and survives (R280, R284), and every host access has an effect (R44, R63). No constructor, so nobody
raises one. -/
inductive Fault where
  deriving DecidableEq, Repr

/-- Reasons for the model to refuse. -/
inductive Refusal where
  /-- The instruction has no meaning in the model. Raised only by a refused arm of `exec`; no arm is one (safe). -/
  | notModelled (mnemonic : String)
  deriving DecidableEq, Repr

/-- The state. `p` to `bmem` is the architectural state (R20); `sizes` is configuration (R8, R42), never changed; `powerCycle`,
`host` and `hostData` are the model's own (notes/assumptions/1.md, 3.md). -/
structure State where
  /-- `P0` … `P7` (R21, R22). -/
  p          : Vector Poly 8
  /-- CSR 1 `STATUS` (R28). -/
  status     : Word
  /-- CSR 2 `RES` (R29). -/
  res        : Word
  /-- CSR 3 `FIELD`: its one stored bit, `FSEL` (R30). -/
  fsel       : BitVec 1
  /-- CSR 4 `IMG_W`, bits 15:0 (R31). -/
  imgW       : Half
  /-- CSR 5 `IMG_H`, bits 15:0 (R32). -/
  imgH       : Half
  /-- CSR 6 `OUT_W`, bits 15:0 (R33). -/
  outW       : Half
  /-- CSR 7 `OUT_H`, bits 15:0 (R34). -/
  outH       : Half
  /-- CSR 8 `OUT_RS`, bits 11:0 (R35). -/
  outRs      : BitVec 12
  /-- CSR 9 `BLACKPT`, bits 7:0 (R36). -/
  blackPt    : Byte
  /-- CSR 10 `ERRCMD` (R37). -/
  errCmd     : Word
  /-- The codeword buffer `CW` (R38). -/
  cw         : Memory 8
  /-- The luminance memory `LMEM` (R39). -/
  lmem       : Memory 8
  /-- The bit-matrix memory `BMEM` (R40). -/
  bmem       : Memory 32
  /-- `LMEM_SIZE` and `BMEM_WORDS` (R8). -/
  sizes      : Config.Sizes
  /-- How many hardware resets came before; chooses the free contents of the memories. -/
  powerCycle : Nat
  /-- The host's pending acts, in its program order (R75, R76). -/
  host       : List HostAct
  /-- What the host's last read returned. -/
  hostData   : Word
  deriving DecidableEq, Repr

/-- The block right after hardware reset, with memories of the given sizes (R43, R310): every polynomial register `[0]`,
every CSR 0, the memories unspecified, the host with nothing to do (R311). -/
def State.resetWith (sizes : Config.Sizes) : State :=
  { p := Vector.replicate 8 [0], status := 0, res := 0, fsel := 0, imgW := 0, imgH := 0,
    outW := 0, outH := 0, outRs := 0, blackPt := 0, errCmd := 0,
    cw := [], lmem := [], bmem := [],
    sizes := sizes, powerCycle := 0, host := [], hostData := 0 }

/-- The machine right after reset (R43), with the sizes of `Config.defaultSizes`. -/
def State.reset : State := State.resetWith Config.defaultSizes

end Sys2Proof.Machine
end

