-- ==== Sys2Proof/Machine/Flags.lean ====
section
/-! DEFINITION. The only flags of the block: the error fields of `STATUS` (rules R25, R28, R281, R284 of spec/). -/

namespace Sys2Proof.Machine

/-- The code of an error class (R281). -/
def ErrorCode.code : ErrorCode → BitVec 4
  | .illegalArgument => 1
  | .notFound        => 2
  | .checksum        => 3
  | .illegalCommand  => 4

/-- The sticky bit of an error class: bit `7 + c` of `STATUS` for code `c` (R28). -/
def ErrorCode.stickyBit (c : ErrorCode) : Nat := 7 + c.code.toNat

/-- `STATUS.LAST`: bits 3:0 (R28). -/
def lastOf (status : Word) : BitVec 4 := status.extractLsb' 0 4

/-- `STATUS` with `LAST` ← `code`; every other bit stays (R28, R284). -/
def withLast (code : BitVec 4) (status : Word) : Word :=
  (status &&& 0xFFFFFFF0) ||| code.setWidth 32

/-- `STATUS` with bit `n` set; every other bit stays. -/
def withBit (n : Nat) (status : Word) : Word := status ||| (1#32 <<< n)

/-- `STATUS` after a successful command: `LAST` ← 0, sticky bits unchanged (R284). -/
def statusAfterSuccess (status : Word) : Word := withLast 0 status

/-- `STATUS` after a command that ends with error `c`: `LAST` ← its code, its sticky bit ← 1, the other sticky bits
unchanged (R282, R284, R286). -/
def statusAfterError (c : ErrorCode) (status : Word) : Word :=
  withBit c.stickyBit (withLast c.code status)

end Sys2Proof.Machine
end

