-- ==== Sys2Proof/Machine/Ops.lean ====
section
/-! DEFINITION. The named operations over memories and registers: element reads and writes, the way a command ends (the
one shared operation that records an error, and the one that records success), reset, and the host's accesses. Rules R26,
R43, R60 to R64, R271, R280 to R288, R310 of spec/. -/

namespace Sys2Proof.Machine

/-! ### Memories (R38 to R40, R61, R62) -/

/-- The element written at `a` since hardware reset, if any. The search stops at the first larger index, since indices rise. -/
def Memory.lookup {w : Nat} : Memory w → Nat → Option (BitVec w)
  | [], _ => none
  | (b, v) :: m, a => if a = b then some v else if a < b then none else Memory.lookup m a

/-- Replace the element at `a`, keeping the indices strictly rising. -/
def Memory.write {w : Nat} : Memory w → Nat → BitVec w → Memory w
  | [], a, v => [(a, v)]
  | (b, x) :: m, a, v =>
    if a = b then (a, v) :: m
    else if a < b then (a, v) :: (b, x) :: m
    else (b, x) :: Memory.write m a v

/-- Write consecutive elements from index `a` on. -/
def Memory.writeRange {w : Nat} (m : Memory w) (a : Nat) : List (BitVec w) → Memory w
  | [] => m
  | v :: vs => Memory.writeRange (m.write a v) (a + 1) vs

/-- The canonical form: indices strictly rising and below `size`. An unlisted index looks up as `none`, which no entry
equals. -/
def Memory.wf {w : Nat} (size : Nat) (m : Memory w) : Bool :=
  decide (m.Pairwise (fun c d => c.1 < d.1)) && m.all (fun c => decide (c.1 < size))

/-- `CW[i]` (R38): the byte written last, or the unspecified byte hardware reset left there (R43, R312). -/
def State.readCW (s : State) (i : Nat) : Byte :=
  (s.cw.lookup i).getD (Config.cwPowerOn s.powerCycle i)

/-- `LMEM[i]` (R39). -/
def State.readLMEM (s : State) (i : Nat) : Byte :=
  (s.lmem.lookup i).getD (Config.lmemPowerOn s.powerCycle i)

/-- `BMEM[i]` (R40). -/
def State.readBMEM (s : State) (i : Nat) : Word :=
  (s.bmem.lookup i).getD (Config.bmemPowerOn s.powerCycle i)

/-- `CW[i], CW[i+1], …` ← `vs` (R12). -/
def State.writeCW (s : State) (i : Nat) (vs : List Byte) : State := { s with cw := s.cw.writeRange i vs }

/-- `LMEM[i]` ← `v`: only the host writes it (R73). -/
def State.writeLMEM (s : State) (i : Nat) (v : Byte) : State := { s with lmem := s.lmem.write i v }

/-- `BMEM[i], BMEM[i+1], …` ← `vs`. -/
def State.writeBMEM (s : State) (i : Nat) (vs : List Word) : State := { s with bmem := s.bmem.writeRange i vs }

/-- `CSR.RES <- v` with `zext_32(v)` (R12, R29). -/
def State.writeRES (s : State) (v : Nat) : State := { s with res := BitVec.ofNat 32 v }

/-! ### How a command ends (R280, R284) -/

/-- Take an error: nothing of the command is committed, `STATUS.LAST` ← the code, its sticky bit ← 1, `ERRCMD` ← the whole
command word (R282, R284). Control goes nowhere: no pc, mode, mask or stack changes, and the block is ready for the next
host access. There is no return instruction beside it (R286). -/
def State.raise (c : ErrorCode) (cmd : Word) (s : State) : State :=
  { s with status := statusAfterError c s.status, errCmd := cmd }

/-- Commit success: `STATUS.LAST` ← 0; sticky bits and `ERRCMD` unchanged (R284). -/
def State.succeed (s : State) : State := { s with status := statusAfterSuccess s.status }

/-- End the command `i` begun in `s`, whose pseudocode gave `r`: the state it would leave, or an error. Always a next
state (R284). -/
def finish (i : Instr) (s : State) (r : Except ErrorCode State) : Host.Outcome State Fault Refusal :=
  .next (match r with
    | .ok t => t.succeed
    | .error c => s.raise c (encode i))

/-! ### Reset (R43, R271, R310) -/

/-- Every register takes its reset value; the memories stay (R271, third column of R43). -/
def State.resetRegisters (s : State) : State :=
  { s with
    p := Vector.replicate 8 [0], status := 0, res := 0, fsel := 0, imgW := 0, imgH := 0,
    outW := 0, outH := 0, outRs := 0, blackPt := 0, errCmd := 0 }

/-- Hardware reset (R310): the registers reset and the contents of the three memories become unspecified, anew. -/
def State.hardwareReset (s : State) : State :=
  { s.resetRegisters with cw := [], lmem := [], bmem := [], powerCycle := s.powerCycle + 1 }

/-! ### The host's accesses (R26, R44, R60 to R63) -/

/-- `HostReadCSR(n)`: reserved bits, `CMD` and CSR numbers 11 and above read 0 (R26, R27, R44). -/
def State.csr (s : State) : Nat → Word
  | 1  => s.status
  | 2  => s.res
  | 3  => s.fsel.setWidth 32
  | 4  => s.imgW.setWidth 32
  | 5  => s.imgH.setWidth 32
  | 6  => s.outW.setWidth 32
  | 7  => s.outH.setWidth 32
  | 8  => s.outRs.setWidth 32
  | 9  => s.blackPt.setWidth 32
  | 10 => s.errCmd
  | _  => 0

/-- `HostWriteCSR(n, v)` for `n ≠ 0`: `FIELD`, `IMG_W` and `IMG_H` keep the bits they have; a write to a read-only or
non-existent CSR is ignored (R26, R30 to R32, R44). (`n = 0` runs a command: Machine/Step.lean.) -/
def State.setCSR (s : State) (n : Nat) (v : Word) : State :=
  match n with
  | 3 => { s with fsel := v.setWidth 1 }
  | 4 => { s with imgW := v.setWidth 16 }
  | 5 => { s with imgH := v.setWidth 16 }
  | _ => s

/-- A host read returns `v`. -/
def State.returns (s : State) (v : Word) : State := { s with hostData := v }

/-- Serve one host act that is not the write of a command word. Out of range, a read returns 0 and a write is ignored (R63). -/
def State.serve (s : State) : HostAct → State
  | .readCSR n     => s.returns (s.csr n)
  | .writeCSR n v  => s.setCSR n v
  | .readCW i      => s.returns (if i < Config.cwSize then (s.readCW i).setWidth 32 else 0)
  | .writeCW i v   => if i < Config.cwSize then s.writeCW i [v] else s
  | .readLMEM i    => s.returns (if i < s.sizes.lmemSize then (s.readLMEM i).setWidth 32 else 0)
  | .writeLMEM i v => if i < s.sizes.lmemSize then s.writeLMEM i v else s
  | .readBMEM i    => s.returns (if i < s.sizes.bmemWords then s.readBMEM i else 0)
  | .writeBMEM i v => if i < s.sizes.bmemWords then s.writeBMEM i [v] else s
  | .hwReset       => s.hardwareReset

end Sys2Proof.Machine
end

