-- ==== Sys2Proof/Machine/Field.lean ====
section
/-! DEFINITION. The two fields GF(2⁸) and their functions: `exp`, `log`, `gadd`, `gmul`, `ginv` (rules R120 to R129 of
spec/). -/

namespace Sys2Proof.Machine

/-- The two fields of the block (R121). -/
inductive Field where
  /-- `QR_CODE_FIELD_256`. -/
  | qr
  /-- `DATA_MATRIX_FIELD_256`. -/
  | dataMatrix
  deriving DecidableEq, Repr

/-- The primitive polynomial `FLD.P` (R121). -/
def Field.prim : Field → Nat
  | .qr         => 0x011D
  | .dataMatrix => 0x012D

/-- The generator base `FLD.b` (R121). -/
def Field.base : Field → Nat
  | .qr         => 0
  | .dataMatrix => 1

/-- One pass of R122's loop: multiply by α = 2, reduce modulo `P`. -/
def timesAlpha (prim x : Nat) : Nat :=
  if 256 ≤ x <<< 1 then ((x <<< 1) ^^^ prim) &&& 255 else x <<< 1

/-- The loop of R122, `n` entries from `x` on, as one number whose byte `i` is entry `i`. -/
def expEntries (prim : Nat) : Nat → Nat → Nat
  | 0, _ => 0
  | n + 1, x => x + 256 * expEntries prim n (timesAlpha prim x)

/-- The same loop filled in the other way round (R123): entry `i` is put at byte `exp[i]`. -/
def logEntries (prim : Nat) : Nat → Nat → Nat → Nat
  | 0, _, _ => 0
  | n + 1, i, x => (i <<< (8 * x)) + logEntries prim n (i + 1) (timesAlpha prim x)

/-- `exp[0..255]` of the QR field, byte `i` of one number (R122, R135). -/
def expTableQr : Nat := expEntries 0x011D 256 1

/-- `exp[0..255]` of the Data Matrix field (R122, R135). -/
def expTableDm : Nat := expEntries 0x012D 256 1

/-- `log[1..255]` of the QR field, byte `a` of one number; byte 0 has no meaning and no rule reads it (R123, U1). -/
def logTableQr : Nat := logEntries 0x011D 255 0 1

/-- `log[1..255]` of the Data Matrix field. -/
def logTableDm : Nat := logEntries 0x012D 255 0 1

/-- `exp[i]` = α^i, for `i` in 0 … 255 (R122, R127). -/
def gexp (f : Field) (i : Nat) : Byte :=
  match f with
  | .qr         => BitVec.ofNat 8 (expTableQr >>> (8 * i))
  | .dataMatrix => BitVec.ofNat 8 (expTableDm >>> (8 * i))

/-- `log[a]` for `a ≠ 0`: the `i` in 0 … 254 with `exp[i] = a` (R123, R127). No caller asks for `log[0]`. -/
def glog (f : Field) (a : Byte) : Nat :=
  match f with
  | .qr         => (logTableQr >>> (8 * a.toNat)) % 256
  | .dataMatrix => (logTableDm >>> (8 * a.toNat)) % 256

/-- Addition and subtraction (R124). -/
def gadd (a b : Byte) : Byte := a ^^^ b

/-- Multiplication (R125). -/
def gmul (f : Field) (a b : Byte) : Byte :=
  if a = 0 ∨ b = 0 then 0 else gexp f ((glog f a + glog f b) % 255)

/-- Inverse of `a ≠ 0` (R126). Every caller has excluded 0 or raised the error of its own rule before. -/
def ginv (f : Field) (a : Byte) : Byte := gexp f (255 - glog f a)

/-- `FLD`: the field `CSR.FIELD.FSEL` selects when the command executes (R121). -/
def State.fld (s : State) : Field := if s.fsel = 0 then .qr else .dataMatrix

end Sys2Proof.Machine
end

