-- ==== Sys2Proof/Machine/PolyMath.lean ====
section
/-! DEFINITION. The polynomial functions of rules R150 to R158 of spec/: pure functions of lists of bytes, highest power
first. -/

namespace Sys2Proof.Machine

/-- `isZero(p)` is `p[0] = 0` (R150). -/
def isZero (p : Poly) : Bool := p.headD 0 == 0

/-- `deg(p)` = `len(p) − 1`; the zero polynomial has degree 0 (R150). -/
def deg (p : Poly) : Nat := p.length - 1

/-- `norm(l)`: strip leading zeros until the length is 1 or the first byte is non-zero (R151). -/
def norm : List Byte → Poly
  | [] => [0]
  | [a] => [a]
  | a :: b :: l => if a = 0 then norm (b :: l) else a :: b :: l

/-- `coef(p, k)` for `k ≤ deg(p)` (R152). -/
def coef (p : Poly) (k : Nat) : Byte := p.getD (p.length - 1 - k) 0

/-- The XOR of two lists aligned at their ends: the shorter one is padded at the front (R153, before `norm`). -/
def xorAligned (p q : List Byte) : List Byte :=
  List.zipWith gadd (List.replicate (q.length - p.length) 0 ++ p) (List.replicate (p.length - q.length) 0 ++ q)

/-- `padd(p, q)` (R153). -/
def padd (p q : Poly) : Poly := norm (xorAligned p q)

/-- The XOR of two lists aligned at their fronts: the longer one's tail stays. -/
def xorFront : List Byte → List Byte → List Byte
  | [], ys => ys
  | xs, [] => xs
  | x :: xs, y :: ys => gadd x y :: xorFront xs ys

/-- The convolution of R154: `r[i+j] = r[i+j] ⊕ gmul(p[i], q[j])` over all `i`, `j`, from zeros. -/
def convolve (f : Field) : List Byte → List Byte → List Byte
  | [], _ => []
  | a :: p, q => xorFront (q.map (gmul f a)) (0 :: convolve f p q)

/-- `pmul(p, q)` (R154). -/
def pmul (f : Field) (p q : Poly) : Poly :=
  if isZero p || isZero q then [0] else norm (convolve f p q)

/-- `pscl(p, s)` (R155). -/
def pscl (f : Field) (p : Poly) (s : Byte) : Poly := norm (p.map fun c => gmul f c s)

/-- `pmulm(p, d, c)`, the product with `c·x^d` (R156). -/
def pmulm (f : Field) (p : Poly) (d : Nat) (c : Byte) : Poly :=
  if c = 0 then [0] else norm ((p.map fun x => gmul f x c) ++ List.replicate d 0)

/-- `peval(p, a)`: Horner's accumulator (R157). -/
def peval (f : Field) (p : Poly) (a : Byte) : Byte :=
  p.foldl (fun acc c => gadd (gmul f acc a) c) 0

/-- The loop of R158. `fuel` bounds the passes; `pdiv` gives it one for each coefficient of the dividend, and the loop ends
after at most `deg(a) − deg(b) + 1` passes. -/
def pdivLoop (f : Field) (b : Poly) (inv : Byte) : Nat → Poly → Poly → Poly × Poly
  | 0, q, r => (q, r)
  | fuel + 1, q, r =>
    if deg b ≤ deg r ∧ isZero r = false then
      let dd := deg r - deg b
      let sc := gmul f (r.headD 0) inv
      pdivLoop f b inv fuel (padd q (pmulm f [1] dd sc)) (padd r (pmulm f b dd sc))
    else (q, r)

/-- `pdiv(a, b)` = (quotient, remainder), for `b` not the zero polynomial (R158). -/
def pdiv (f : Field) (a b : Poly) : Poly × Poly :=
  pdivLoop f b (ginv f (b.headD 0)) a.length [0] a

end Sys2Proof.Machine
end

