-- ==== Sys2Proof/Machine/Operands.lean ====
section
/-! DEFINITION. The operand forms of the commands: polynomial registers, ranges of `CW`, pixels of the luminance image
(rules R12, R22, R39, R100, R151, R172 of spec/). Field elements and counts are the bytes of the command word as they
stand (R100). -/

namespace Sys2Proof.Machine

/-- `P[i]` (R12). -/
def State.readP (s : State) (i : Reg) : Poly := s.p[i]

/-- `P[i] <- v`: "`v` is normalised first" (R12, R151). -/
def State.writeP (s : State) (i : Reg) (v : Poly) : State := { s with p := s.p.set i (norm v) }

/-- `[CW[off], CW[off+1], …, CW[off+len-1]]` (R162, R195, R196). -/
def State.cwRange (s : State) (off len : Nat) : List Byte :=
  (List.range len).map fun k => s.readCW (off + k)

/-- `L(x, y)`, the pixel at column `x`, row `y`: `LMEM[y·IMG_W + x]` (R39). -/
def State.pixel (s : State) (x y : Nat) : Nat := (s.readLMEM (y * s.imgW.toNat + x)).toNat

end Sys2Proof.Machine
end

