-- ==== Sys2Proof/Machine/Binarizer.lean ====
section
/-! DEFINITION. The binarizer: black-point estimate, global and hybrid thresholds, bit packing, and the commands `BINGM`,
`BINGR`, `BINHM` (rules R230 to R252, R67 and R68 of spec/). All arithmetic is on mathematical integers (R252). -/

namespace Sys2Proof.Machine

/-! ### The black point (R233 to R239) -/

/-- The histogram of some samples: 32 buckets, sample `v` in bucket `v div 8` (R233). -/
def histogram (samples : List Nat) : List Nat :=
  (List.range 32).map fun k => samples.countP fun v => v / 8 == k

/-- `count[x]`. -/
def bucket (count : List Nat) (x : Nat) : Nat := count.getD x 0

/-- Step 1 (R236): the tallest bucket and its size; ties go to the lowest. -/
def firstPeak (count : List Nat) : Nat × Nat :=
  (List.range 32).foldl (fun best x => if best.2 < bucket count x then (x, bucket count x) else best) (0, 0)

/-- The score of R237, `count[x]·(x − firstPeak)²`. -/
def peakScore (count : List Nat) (first x : Nat) : Nat :=
  bucket count x * ((x - first) + (first - x)) ^ 2

/-- Step 2 (R237): the bucket with the greatest score, from `firstPeak` with score 0; ties go to the lowest (conflict C5). -/
def secondPeak (count : List Nat) (first : Nat) : Nat :=
  ((List.range 32).foldl
    (fun best x => if best.2 < peakScore count first x then (x, peakScore count first x) else best) (first, 0)).1

/-- The score of R238 for a bucket `x` between the peaks `lo < hi`. -/
def valleyScore (count : List Nat) (maxCount lo hi x : Nat) : Int :=
  ((x : Int) - lo) ^ 2 * ((hi : Int) - x) * ((maxCount : Int) - bucket count x)

/-- Step 4 (R238): the bucket strictly between the peaks with the greatest score, scanned downward from `hi − 1`; ties go
to the highest (conflict C4). -/
def valley (count : List Nat) (maxCount lo hi : Nat) : Nat :=
  ((List.range (hi - lo - 1)).foldl
    (fun best d =>
      let x := hi - 1 - d
      if best.2 < valleyScore count maxCount lo hi x then (x, valleyScore count maxCount lo hi x) else best)
    (hi - 1, (-1 : Int))).1

/-- `estimateBlackPoint(count)` (R236 to R239): `NOT_FOUND` when the peaks are at most 32/16 = 2 buckets apart. -/
def estimateBlackPoint (count : List Nat) : Except ErrorCode Nat :=
  let first := firstPeak count
  let second := secondPeak count first.1
  let lo := min first.1 second
  let hi := max first.1 second
  if hi - lo ≤ 2 then .error .notFound else .ok (8 * valley count first.2 lo hi)

/-- The samples of the matrix histogram: four rows across the middle three fifths of the columns (R234). -/
def State.matrixSamples (s : State) : List Nat :=
  let w := s.imgW.toNat
  let h := s.imgH.toNat
  [1, 2, 3, 4].flatMap fun k =>
    (List.range (4 * w / 5 - w / 5)).map fun d => s.pixel (w / 5 + d) (h * k / 5)

/-- The samples of the row histogram: every pixel of the row (R235). -/
def State.rowSamples (s : State) (y : Nat) : List Nat :=
  (List.range s.imgW.toNat).map fun x => s.pixel x y

/-! ### Bit packing (R67, R68) -/

/-- `⌈W/32⌉` (R35, R68). -/
def rowWords (w : Nat) : Nat := (w + 31) / 32

/-- The number whose bit `b`, for `b < n`, is `f b`, least significant first. -/
def packBits (f : Nat → Bool) : Nat → Nat
  | 0 => 0
  | n + 1 => (if f 0 then 1 else 0) + 2 * packBits (fun b => f (b + 1)) n

/-- The words of a BitArray of `w` bits: bit `i` is bit `i mod 32` of word `i div 32`, bits `w` and above are zero (R67). -/
def packRow (w : Nat) (black : Nat → Bool) : List Word :=
  (List.range (rowWords w)).map fun j =>
    BitVec.ofNat 32 (packBits (fun b => decide (32 * j + b < w) && black (32 * j + b)) 32)

/-- The words of a BitMatrix: each row on a fresh word (R68). -/
def packMatrix (w h : Nat) (black : Nat → Nat → Bool) : List Word :=
  (List.range h).flatMap fun y => packRow w fun x => black x y

/-- `BMEM` from word 0 takes the output, and `OUT_W`, `OUT_H`, `OUT_RS` describe it (R33 to R35, R241, R243, R251). -/
def State.writeOutput (s : State) (w h : Nat) (words : List Word) : State :=
  { s.writeBMEM 0 words with
    outW := BitVec.ofNat 16 w, outH := BitVec.ofNat 16 h, outRs := BitVec.ofNat 12 (rowWords w) }

/-- `CSR.BLACKPT <- bp` (R36, R239). -/
def State.writeBlackPt (s : State) (bp : Nat) : State := { s with blackPt := BitVec.ofNat 8 bp }

/-! ### Admission (R231) -/

/-- Checks (1) to (3) of R231 fail, for an output of `words` words. -/
def State.inadmissible (s : State) (words : Nat) : Bool :=
  decide (s.imgW = 0 ∨ s.imgH = 0 ∨ s.sizes.lmemSize < s.imgW.toNat * s.imgH.toNat ∨ s.sizes.bmemWords < words)

/-- The words of a matrix output. -/
def State.matrixWords (s : State) : Nat := rowWords s.imgW.toNat * s.imgH.toNat

/-! ### The global method -/

/-- `BINGM` from its histogram step on (R240, R241): a pixel is black when it is strictly below the black point. -/
def State.globalMatrix (s : State) : Except ErrorCode State :=
  match estimateBlackPoint (histogram s.matrixSamples) with
  | .error e => .error e
  | .ok bp =>
    let w := s.imgW.toNat
    let h := s.imgH.toNat
    .ok ((s.writeOutput w h (packMatrix w h fun x y => decide (s.pixel x y < bp))).writeBlackPt bp)

/-- `BINGM` (R241). -/
def execBingm (s : State) : Host.Outcome State Fault Refusal :=
  finish .bingm s (if s.inadmissible s.matrixWords then .error .illegalArgument else s.globalMatrix)

/-- `sharp(x)` of row `y` (R242); the division rounds downward. -/
def State.sharp (s : State) (y x : Nat) : Int :=
  (4 * (s.pixel x y : Int) - s.pixel (x - 1) y - s.pixel (x + 1) y) / 2

/-- Is bit `x` of row `y` set (R243)? Narrow rows compare the raw luminance; else the two end pixels stay light and the
others compare the sharpened value. -/
def State.rowBlack (s : State) (y bp x : Nat) : Bool :=
  if s.imgW.toNat < 3 then decide (s.pixel x y < bp)
  else decide (1 ≤ x ∧ x + 2 ≤ s.imgW.toNat ∧ s.sharp y x < bp)

/-- `BINGR y` (R243). -/
def execBingr (row : Half) (s : State) : Host.Outcome State Fault Refusal :=
  finish (.bingr row) s
    (if s.inadmissible (rowWords s.imgW.toNat) || decide (s.imgH.toNat ≤ row.toNat) then .error .illegalArgument
     else
       match estimateBlackPoint (histogram (s.rowSamples row.toNat)) with
       | .error e => .error e
       | .ok bp =>
         let w := s.imgW.toNat
         .ok ((s.writeOutput w 1 (packRow w (s.rowBlack row.toNat bp))).writeBlackPt bp))

/-! ### The hybrid method (R244 to R249) -/

/-- `⌈n/8⌉`: `subW`, `subH` (R244). -/
def blockCount (n : Nat) : Nat := (n + 7) / 8

/-- `xo` or `yo` of block `b` along a side of `n` pixels: the last, partial block is shifted back to end at the edge (R244). -/
def blockOrigin (n b : Nat) : Nat := min (8 * b) (n - 8)

/-- The 64 luminances of block (bx, by) (R244). -/
def State.blockPixels (s : State) (bx bY : Nat) : List Nat :=
  (List.range 8).flatMap fun dy =>
    (List.range 8).map fun dx =>
      s.pixel (blockOrigin s.imgW.toNat bx + dx) (blockOrigin s.imgH.toNat bY + dy)

/-- The black point of a block with luminances `px` (R245, R246). `nbr` holds the black points of its north, west and
north-west neighbours, when it is in neither the first row nor the first column of blocks. -/
def blockPoint (px : List Nat) (nbr : Option (Nat × Nat × Nat)) : Nat :=
  let lo := px.foldl min 255
  let hi := px.foldl max 0
  if 24 < hi - lo then px.sum >>> 6
  else
    match nbr with
    | none => lo / 2
    | some (n, w, nw) =>
      let avg := (n + 2 * w + nw) / 4
      if lo < avg then avg else lo / 2

/-- One row of block black points, left to right, from the row above (if any): the first `k` of them (R246). -/
def State.blockRow (s : State) (bY : Nat) (above : Option (List Nat)) : Nat → List Nat
  | 0 => []
  | k + 1 =>
    let row := s.blockRow bY above k
    let nbr := match above with
      | none => none
      | some up => if k = 0 then none else some (up.getD k 0, row.getD (k - 1) 0, up.getD (k - 1) 0)
    row ++ [blockPoint (s.blockPixels k bY) nbr]

/-- The first `k` rows of `bp[by][bx]`, computed in row-major order (R246). -/
def State.blockGrid (s : State) : Nat → List (List Nat)
  | 0 => []
  | k + 1 =>
    let rows := s.blockGrid k
    rows ++ [s.blockRow k rows.getLast? (blockCount s.imgW.toNat)]

/-- `threshold(bx, by)`: the average of the 5×5 blocks around the clamped centre (R247). -/
def blockThreshold (grid : List (List Nat)) (subW subH bx bY : Nat) : Nat :=
  let cx := min (max bx 2) (subW - 3)
  let cy := min (max bY 2) (subH - 3)
  ((List.range 5).flatMap fun dy => (List.range 5).map fun dx =>
    (grid.getD (cy + dy - 2) []).getD (cx + dx - 2) 0).sum / 25

/-- All thresholds, by row and column of blocks (R247). -/
def State.thresholds (s : State) : List (List Nat) :=
  let subW := blockCount s.imgW.toNat
  let subH := blockCount s.imgH.toNat
  let grid := s.blockGrid subH
  (List.range subH).map fun bY => (List.range subW).map fun bx => blockThreshold grid subW subH bx bY

/-- Does block `b` along a side of `n` pixels cover position `x` (R244)? -/
def blockCovers (n b x : Nat) : Bool := decide (blockOrigin n b ≤ x ∧ x < blockOrigin n b + 8)

/-- Is pixel (x, y) black: does any block that covers it find it at or below its threshold (R249)? -/
def State.hybridBlack (s : State) (thr : List (List Nat)) (x y : Nat) : Bool :=
  (List.range (blockCount s.imgH.toNat)).any fun bY => blockCovers s.imgH.toNat bY y &&
    (List.range (blockCount s.imgW.toNat)).any fun bx => blockCovers s.imgW.toNat bx x &&
      decide (s.pixel x y ≤ (thr.getD bY []).getD bx 0)

/-- The hybrid path of `BINHM` (R251): `BLACKPT` is unchanged. -/
def State.hybridMatrix (s : State) : State :=
  let w := s.imgW.toNat
  let h := s.imgH.toNat
  let thr := s.thresholds
  s.writeOutput w h (packMatrix w h (s.hybridBlack thr))

/-- `BINHM` (R251): images below 40×40 in either dimension take the global method. -/
def execBinhm (s : State) : Host.Outcome State Fault Refusal :=
  finish .binhm s
    (if s.inadmissible s.matrixWords then .error .illegalArgument
     else if s.imgW.toNat < 40 ∨ s.imgH.toNat < 40 then s.globalMatrix
     else .ok s.hybridMatrix)

end Sys2Proof.Machine
end

