-- ==== Sys2Proof/Machine/Codec.lean ====
section
/-! DEFINITION. The Reed-Solomon codec: generator polynomials, encoder, syndromes, decoder, and the commands `RSENC`,
`RSDEC`, `RSGEN`, `RSSYN` (rules R190 to R207 of spec/). -/

namespace Sys2Proof.Machine

/-! ### Generator polynomials and encoder -/

/-- `gen(k)` (R193). -/
def gen (f : Field) : Nat → Poly
  | 0 => [1]
  | k + 1 => pmul f (gen f k) [1, gexp f ((k + f.base) % 255)]

/-- `rsenc(data, ec)`: the `ec` error-correction bytes (R192, with the one shift of conflict C1). -/
def rsenc (f : Field) (data : List Byte) (ec : Nat) : List Byte :=
  let r := (pdiv f (pmulm f (norm data) ec 1) (gen f ec)).2
  List.replicate (ec - r.length) 0 ++ r

/-! ### Syndromes (R196) -/

/-- `S[0], …, S[twoS-1]` of the block `c`. -/
def syndromes (f : Field) (c : List Byte) (twoS : Nat) : List Byte :=
  (List.range twoS).map fun i => peval f (norm c) (gexp f ((i + f.base) % 255))

/-- The syndrome polynomial: the coefficient of x^i is `S[i]`. -/
def syndromePoly (syn : List Byte) : Poly := norm syn.reverse

/-! ### Decoder -/

/-- The loop of R201 on `(rLast, r, tLast, t)`: gives `t` and `r` when `2·deg(r) < twoS`. Each pass lowers `deg(r)` or
raises `CHECKSUM`, so `twoS + 1` passes of `fuel` are never used up; with none left it answers `CHECKSUM`. -/
def euclidLoop (f : Field) (twoS : Nat) : Nat → Poly → Poly → Poly → Poly → Except ErrorCode (Poly × Poly)
  | 0, _, _, _, _ => .error .checksum
  | fuel + 1, rLast, r, tLast, t =>
    if twoS ≤ 2 * deg r then
      if isZero r then .error .checksum
      else
        let d := pdiv f rLast r
        if deg r ≤ deg d.2 then .error .checksum
        else euclidLoop f twoS fuel r d.2 t (padd (pmul f d.1 t) tLast)
    else .ok (t, r)

/-- `euclid(synd, twoS)` = (σ, ω), normalised so that σ(0) = 1 (R201, R202). -/
def euclid (f : Field) (synd : Poly) (twoS : Nat) : Except ErrorCode (Poly × Poly) :=
  match euclidLoop f twoS (twoS + 1) (pmulm f [1] twoS 1) synd [0] [1] with
  | .error e => .error e
  | .ok (t, r) =>
    if coef t 0 = 0 then .error .checksum
    else .ok (pscl f t (ginv f (coef t 0)), pscl f r (ginv f (coef t 0)))

/-- The non-zero field elements 1 … 255. -/
def nonZeroElements : List Byte := (List.range 255).map fun e => BitVec.ofNat 8 (e + 1)

/-- `chien(sigma)`: the roots of σ among them; `CHECKSUM` when they are fewer than its degree (R203). -/
def chien (f : Field) (sigma : Poly) : Except ErrorCode (List Byte) :=
  let roots := nonZeroElements.filter fun e => peval f sigma e == 0
  if roots.length = deg sigma then .ok roots else .error .checksum

/-- The product of R204 over the other roots: the factors `1 ⊕ X_j·X_k⁻¹`, computed as `term ⊕ 1` (conflict C3). The roots
are distinct, so "j ≠ k" is "the root is not ρ_k". -/
def forneyDen (f : Field) (roots : List Byte) (rho : Byte) : Byte :=
  (roots.filter fun r => r != rho).foldl (fun den r => gmul f den (gadd (gmul f (ginv f r) rho) 1)) 1

/-- `forney(omega, roots, rho)`: the magnitude of the error whose root is `rho` (R204). -/
def forney (f : Field) (omega : Poly) (roots : List Byte) (rho : Byte) : Byte :=
  let mag := gmul f (peval f omega rho) (ginv f (forneyDen f roots rho))
  if f.base = 0 then mag else gmul f mag rho

/-- The corrections of R198, one root after the other; a position outside the block is `CHECKSUM` (R205). -/
def correctAll (f : Field) (omega : Poly) (roots : List Byte) (n : Nat) :
    List Byte → List Byte → Except ErrorCode (List Byte)
  | [], c => .ok c
  | rho :: rest, c =>
    let k := glog f (ginv f rho)
    if n ≤ k then .error .checksum
    else
      let pos := n - 1 - k
      correctAll f omega roots n rest (c.set pos (gadd (c.getD pos 0) (forney f omega roots rho)))

/-- Steps 2 to 5 of the decoder on a block `c` of `n` bytes whose syndromes are not all zero: the corrected block (R198,
R201 to R206). -/
def correctBlock (f : Field) (c syn : List Byte) (n twoS : Nat) : Except ErrorCode (List Byte) :=
  match euclid f (syndromePoly syn) twoS with
  | .error e => .error e
  | .ok (sigma, omega) =>
    match chien f sigma with
    | .error e => .error e
    | .ok roots => correctAll f omega roots n roots c

/-! ### Commands -/

/-- `RSENC nd, ec` (R195). -/
def execRsenc (nd ec : Byte) (s : State) : Host.Outcome State Fault Refusal :=
  finish (.rsenc nd ec) s
    (if nd = 0 ∨ ec = 0 ∨ Config.nmax < nd.toNat + ec.toNat then .error .illegalArgument
     else .ok (s.writeCW nd.toNat (rsenc s.fld (s.cwRange 0 nd.toNat) ec.toNat)))

/-- The limits `1 ≤ twoS < n ≤ 255` of `RSDEC` and `RSSYN` fail (R197, R199). -/
def badBlockLimits (n twoS : Nat) : Bool := decide (twoS = 0 ∨ n ≤ twoS ∨ Config.nmax < n)

/-- `RSDEC n, twoS` (R198). -/
def execRsdec (n twoS : Byte) (s : State) : Host.Outcome State Fault Refusal :=
  finish (.rsdec n twoS) s
    (if badBlockLimits n.toNat twoS.toNat then .error .illegalArgument
     else
       let c := s.cwRange 0 n.toNat
       let syn := syndromes s.fld c twoS.toNat
       if syn.all (fun x => x == 0) then .ok s
       else
         match correctBlock s.fld c syn n.toNat twoS.toNat with
         | .error e => .error e
         | .ok c' => .ok (s.writeCW 0 c'))

/-- `RSGEN Pd, k` (R194). -/
def execRsgen (rd : Reg) (k : Byte) (s : State) : Host.Outcome State Fault Refusal :=
  finish (.rsgen rd k) s (.ok (s.writeP rd (gen s.fld k.toNat)))

/-- `RSSYN Pd, n, twoS` (R197). -/
def execRssyn (rd : Reg) (n twoS : Byte) (s : State) : Host.Outcome State Fault Refusal :=
  finish (.rssyn rd n twoS) s
    (if badBlockLimits n.toNat twoS.toNat then .error .illegalArgument
     else .ok (s.writeP rd (syndromePoly (syndromes s.fld (s.cwRange 0 n.toNat) twoS.toNat))))

end Sys2Proof.Machine
end

