-- ==== Sys2Proof/Machine/Control.lean ====
section
/-! DEFINITION. The control commands `NOP` and `SRESET` (rules R270, R271 of spec/). -/

namespace Sys2Proof.Machine

/-- `NOP`: nothing but `LAST` ← 0 (R270). -/
def execNop (s : State) : Host.Outcome State Fault Refusal := finish .nop s (.ok s)

/-- `SRESET`: every register takes its reset value, the memories stay (R271). -/
def execSreset (s : State) : Host.Outcome State Fault Refusal := finish .sreset s (.ok s.resetRegisters)

end Sys2Proof.Machine
end

