-- ==== Sys2Proof/Machine/Polynomial.lean ====
section
/-! DEFINITION. The polynomial commands (rules R160 to R171 of spec/). Every source is read before a destination is
written (R172). -/

namespace Sys2Proof.Machine

/-- `PZERO Pd` (R160). -/
def execPzero (rd : Reg) (s : State) : Host.Outcome State Fault Refusal :=
  finish (.pzero rd) s (.ok (s.writeP rd [0]))

/-- `PONE Pd` (R161). -/
def execPone (rd : Reg) (s : State) : Host.Outcome State Fault Refusal :=
  finish (.pone rd) s (.ok (s.writeP rd [1]))

/-- `PLD Pd, off, len` (R162). -/
def execPld (rd : Reg) (off len : Byte) (s : State) : Host.Outcome State Fault Refusal :=
  finish (.pld rd off len) s
    (if len = 0 ∨ Config.cwSize < off.toNat + len.toNat then .error .illegalArgument
     else .ok (s.writeP rd (s.cwRange off.toNat len.toNat)))

/-- `PST Pa, off` (R163). -/
def execPst (ra : Reg) (off : Byte) (s : State) : Host.Outcome State Fault Refusal :=
  finish (.pst ra off) s
    (if Config.cwSize < off.toNat + (s.readP ra).length then .error .illegalArgument
     else .ok ((s.writeCW off.toNat (s.readP ra)).writeRES (s.readP ra).length))

/-- `PDEG Pa` (R164). -/
def execPdeg (ra : Reg) (s : State) : Host.Outcome State Fault Refusal :=
  finish (.pdeg ra) s (.ok (s.writeRES (deg (s.readP ra))))

/-- `PCOEF Pa, k` (R165). -/
def execPcoef (ra : Reg) (k : Byte) (s : State) : Host.Outcome State Fault Refusal :=
  finish (.pcoef ra k) s
    (if deg (s.readP ra) < k.toNat then .error .illegalArgument
     else .ok (s.writeRES (coef (s.readP ra) k.toNat).toNat))

/-- `PEVAL Pa, a` (R166). -/
def execPeval (ra : Reg) (a : Byte) (s : State) : Host.Outcome State Fault Refusal :=
  finish (.peval ra a) s (.ok (s.writeRES (peval s.fld (s.readP ra) a).toNat))

/-- `PADD Pd, Pa, Pb` (R167). -/
def execPadd (rd ra rb : Reg) (s : State) : Host.Outcome State Fault Refusal :=
  finish (.padd rd ra rb) s (.ok (s.writeP rd (padd (s.readP ra) (s.readP rb))))

/-- A polynomial result to be written to `rd`, refused when it has more than `PCAP` coefficients (R159). -/
def State.writeCapped (s : State) (rd : Reg) (r : Poly) : Except ErrorCode State :=
  if Config.pcap < r.length then .error .illegalArgument else .ok (s.writeP rd r)

/-- `PMUL Pd, Pa, Pb` (R168). -/
def execPmul (rd ra rb : Reg) (s : State) : Host.Outcome State Fault Refusal :=
  finish (.pmul rd ra rb) s (s.writeCapped rd (pmul s.fld (s.readP ra) (s.readP rb)))

/-- `PSCL Pd, Pa, c` (R169). -/
def execPscl (rd ra : Reg) (c : Byte) (s : State) : Host.Outcome State Fault Refusal :=
  finish (.pscl rd ra c) s (.ok (s.writeP rd (pscl s.fld (s.readP ra) c)))

/-- `PMULM Pd, Pa, deg, coef` (R170). -/
def execPmulm (rd ra : Reg) (d c : Byte) (s : State) : Host.Outcome State Fault Refusal :=
  finish (.pmulm rd ra d c) s (s.writeCapped rd (pmulm s.fld (s.readP ra) d.toNat c))

/-- `PDIV Pq, Pr, Pa, Pb` (R171). Equal destinations are an illegal command (R101 (b)), which the decoder has already
excluded; the check stands first here too (R102), so that the meaning is right for every term. -/
def execPdiv (rd re ra rb : Reg) (s : State) : Host.Outcome State Fault Refusal :=
  finish (.pdiv rd re ra rb) s
    (if rd = re then .error .illegalCommand
     else if isZero (s.readP rb) then .error .illegalArgument
     else
       let d := pdiv s.fld (s.readP ra) (s.readP rb)
       .ok ((s.writeP rd d.1).writeP re d.2))

end Sys2Proof.Machine
end

