-- ==== Sys2Proof/Machine/Scalar.lean ====
section
/-! DEFINITION. The scalar commands `GFADD`, `GFMUL`, `GFINV`, `GFEXP`, `GFLOG` (rules R130 to R134 of spec/). -/

namespace Sys2Proof.Machine

/-- `GFADD a, b`: `RES <- a ⊕ b` (R130). -/
def execGfadd (a b : Byte) (s : State) : Host.Outcome State Fault Refusal :=
  finish (.gfadd a b) s (.ok (s.writeRES (gadd a b).toNat))

/-- `GFMUL a, b`: `RES <- gmul(a, b)` (R131). -/
def execGfmul (a b : Byte) (s : State) : Host.Outcome State Fault Refusal :=
  finish (.gfmul a b) s (.ok (s.writeRES (gmul s.fld a b).toNat))

/-- `GFINV a`: `RES <- ginv(a)`, an illegal argument for 0 (R126, R132). -/
def execGfinv (a : Byte) (s : State) : Host.Outcome State Fault Refusal :=
  finish (.gfinv a) s (if a = 0 then .error .illegalArgument else .ok (s.writeRES (ginv s.fld a).toNat))

/-- `GFEXP i`: `RES <- exp[i]` (R133). -/
def execGfexp (i : Byte) (s : State) : Host.Outcome State Fault Refusal :=
  finish (.gfexp i) s (.ok (s.writeRES (gexp s.fld i.toNat).toNat))

/-- `GFLOG a`: `RES <- glog(a)`, an illegal argument for 0 (R127, R134). -/
def execGflog (a : Byte) (s : State) : Host.Outcome State Fault Refusal :=
  finish (.gflog a) s (if a = 0 then .error .illegalArgument else .ok (s.writeRES (glog s.fld a)))

end Sys2Proof.Machine
end

