-- ==== Sys2Proof/Machine/Dispatch.lean ====
section
/-! DEFINITION. One arm per command: its meaning. -/

namespace Sys2Proof.Machine

def exec (i : Instr) (s : State) : Host.Outcome State Fault Refusal :=
  match i with
  | .nop => Sys2Proof.Machine.execNop s
  | .sreset => Sys2Proof.Machine.execSreset s
  | .gfadd a b => Sys2Proof.Machine.execGfadd a b s
  | .gfmul a b => Sys2Proof.Machine.execGfmul a b s
  | .gfinv a => Sys2Proof.Machine.execGfinv a s
  | .gfexp n => Sys2Proof.Machine.execGfexp n s
  | .gflog a => Sys2Proof.Machine.execGflog a s
  | .pzero rd => Sys2Proof.Machine.execPzero rd s
  | .pone rd => Sys2Proof.Machine.execPone rd s
  | .pld rd off len => Sys2Proof.Machine.execPld rd off len s
  | .pst ra off => Sys2Proof.Machine.execPst ra off s
  | .pdeg ra => Sys2Proof.Machine.execPdeg ra s
  | .pcoef ra k => Sys2Proof.Machine.execPcoef ra k s
  | .peval ra a => Sys2Proof.Machine.execPeval ra a s
  | .padd rd ra rb => Sys2Proof.Machine.execPadd rd ra rb s
  | .pmul rd ra rb => Sys2Proof.Machine.execPmul rd ra rb s
  | .pscl rd ra c => Sys2Proof.Machine.execPscl rd ra c s
  | .pmulm rd ra d c => Sys2Proof.Machine.execPmulm rd ra d c s
  | .pdiv rd re ra rb => Sys2Proof.Machine.execPdiv rd re ra rb s
  | .rsenc nd ec => Sys2Proof.Machine.execRsenc nd ec s
  | .rsdec n twoS => Sys2Proof.Machine.execRsdec n twoS s
  | .rsgen rd k => Sys2Proof.Machine.execRsgen rd k s
  | .rssyn rd n twoS => Sys2Proof.Machine.execRssyn rd n twoS s
  | .bingm => Sys2Proof.Machine.execBingm s
  | .bingr row => Sys2Proof.Machine.execBingr row s
  | .binhm => Sys2Proof.Machine.execBinhm s

end Sys2Proof.Machine
end

