-- ==== Sys2Proof/Machine/Step.lean ====
section
/-! DEFINITION. One step: the block serves the host's next act. There is no program counter and no fetch (rules R24, R79
of spec/): a command word is the data of the host's write to `CSR.CMD` (R27), and the order of execution is the order of
those writes (R76). -/

namespace Sys2Proof.Machine

/-- The host writes `w` to `CSR.CMD` (R27): the command it decodes to runs to completion (R64); an illegal word ends with
`ILLEGAL_COMMAND` (R101). -/
def runCommand (w : Word) (s : State) : Host.Outcome State Fault Refusal :=
  match decode w with
  | .ok i => exec i s
  | .error _ => .next (s.raise .illegalCommand w)

/-- One step (R2, R64, R76): serve the first pending act. With none pending the block is idle and holds its state (R301,
R311). -/
def step (s : State) : Host.Outcome State Fault Refusal :=
  match s.host with
  | [] => .next s
  | .writeCSR 0 w :: rest => runCommand w { s with host := rest }
  | a :: rest => .next (State.serve { s with host := rest } a)

/-- `s` with the host about to write the command word whose low `nbits` bits are those of `w` and whose other bits are 0: the
act is put before the host's pending acts, so that the very next step runs it (notes/assumptions/3.md). -/
def State.withFetchWord (s : State) (nbits w : Nat) : State :=
  { s with host := .writeCSR 0 (BitVec.ofNat 32 (w % 2 ^ nbits)) :: s.host }

end Sys2Proof.Machine
end

