-- ==== Sys2Proof/Safety.lean ====
section
/-! DEFINITION. What claims are stated in: how a command ended, what a well-kept state is (the invariants of spec/), and
the rules' own words for values the machine computes another way (R128's product, sums over coefficients, the peaks and
the valley of a histogram, the causes of R285). -/

namespace Sys2Proof.Machine

/-! ### How a command ended -/

/-- The status of `t` is that of `s` with `LAST` ← 0: success changes no other bit (R284). -/
def LastCleared (s t : State) : Prop :=
  lastOf t.status = 0 ∧ ∀ n, 4 ≤ n → t.status.getLsbD n = s.status.getLsbD n

/-- `i` runs in `s` to success and leaves `u`, but for `STATUS`, which is that of `s` with `LAST` ← 0. -/
def SucceedsWith (i : Instr) (s u : State) : Prop :=
  ∃ t, exec i s = .next t ∧ t = { u with status := t.status } ∧ LastCleared s t

/-- `t` is `s` with nothing changed but the record of error `c` of the command word `cmd` (R282, R284). -/
def RecordsError (c : ErrorCode) (cmd : Word) (s t : State) : Prop :=
  t = { s with status := t.status, errCmd := cmd } ∧ lastOf t.status = c.code ∧
    ∀ n, 4 ≤ n → t.status.getLsbD n = (s.status.getLsbD n || decide (n = 7 + c.code.toNat))

/-- `i` runs in `s` to error `c`. -/
def FailsWith (i : Instr) (s : State) (c : ErrorCode) : Prop :=
  ∃ t, exec i s = .next t ∧ RecordsError c (encode i) s t

/-! ### Well-kept states -/

/-- A polynomial register's value (R22): 1 to 256 coefficients, no leading zero but in the constant zero polynomial. -/
def PolyOk (p : Poly) : Prop :=
  1 ≤ p.length ∧ p.length ≤ Config.pcap ∧ (p.length = 1 ∨ p.headD 0 ≠ 0)

/-- Every polynomial register holds such a value (R22). -/
def State.polysOk (s : State) : Prop := ∀ r : Reg, PolyOk (s.readP r)

/-- The three memories are in canonical form and inside their spaces (R38 to R40, R63). -/
def State.memoriesOk (s : State) : Prop :=
  s.cw.wf Config.cwSize = true ∧ s.lmem.wf s.sizes.lmemSize = true ∧ s.bmem.wf s.sizes.bmemWords = true

/-- `STATUS` is one the block can show (R28): reserved bits zero, `LAST` at most 4, and the sticky bit of the class `LAST`
names is set. -/
def State.statusOk (s : State) : Prop :=
  s.status &&& 0xFFFFF0F0 = 0 ∧ (lastOf s.status).toNat ≤ 4 ∧
    (lastOf s.status ≠ 0 → s.status.getLsbD (7 + (lastOf s.status).toNat) = true)

/-- The result and output registers hold what R29, R35 and R36 say: `RES` at most 256, `OUT_RS` = ⌈`OUT_W`/32⌉, `BLACKPT` a
multiple of 8 from 8 to 240 once it has been written. -/
def State.resultsOk (s : State) : Prop :=
  s.res.toNat ≤ 256 ∧ s.outRs.toNat = (s.outW.toNat + 31) / 32 ∧
    (s.blackPt = 0 ∨ 8 ∣ s.blackPt.toNat ∧ 8 ≤ s.blackPt.toNat ∧ s.blackPt.toNat ≤ 240)

/-- The sizes are admissible parameters (R8). -/
def State.sizesOk (s : State) : Prop := 1 ≤ s.sizes.lmemSize ∧ 1 ≤ s.sizes.bmemWords

/-- The invariant of every run. -/
def State.Inv (s : State) : Prop :=
  s.polysOk ∧ s.memoriesOk ∧ s.statusOk ∧ s.resultsOk ∧ s.sizesOk

/-- A safe step: the machine does not stop. -/
def State.Safe (s : State) : Prop := ∃ t, step s = .next t

/-! ### Field and polynomial values in the rules' words -/

/-- α^i by the loop of R122: `i` passes from 1. -/
def alphaPower (f : Field) : Nat → Nat
  | 0 => 1
  | i + 1 => timesAlpha f.prim (alphaPower f i)

/-- The carry-less product of R128: the XOR of `a << i` over the set bits `i` of `b`. -/
def carrylessProduct (a b : Nat) : Nat :=
  (List.range 8).foldl (fun r i => if b.testBit i then r ^^^ (a <<< i) else r) 0

/-- The reduction of R128: for `i` from 14 down to 8, if bit `i` is set, XOR `P << (i−8)`. -/
def reduceModulo (prim r : Nat) : Nat :=
  [14, 13, 12, 11, 10, 9, 8].foldl (fun r i => if r.testBit i then r ^^^ (prim <<< (i - 8)) else r) r

/-- `a^k` in the field, by repeated multiplication. -/
def fieldPower (f : Field) (a : Byte) : Nat → Byte
  | 0 => 1
  | k + 1 => gmul f (fieldPower f a k) a

/-- The XOR of `g 0, …, g (n−1)`. -/
def xorSum (n : Nat) (g : Nat → Byte) : Byte := (List.range n).foldl (fun acc i => acc ^^^ g i) 0

/-- The coefficient of x^k of a list read highest power first, 0 above its length (R22, R69). -/
def coeff (p : List Byte) (k : Nat) : Byte := if k < p.length then p.getD (p.length - 1 - k) 0 else 0

/-- The value at `a` of a list read as a polynomial: the sum of `c_k·a^k`. -/
def polyValue (f : Field) (p : List Byte) (a : Byte) : Byte :=
  xorSum p.length fun k => gmul f (coeff p k) (fieldPower f a k)

/-- The point α^(i+b) at which syndrome `i` is taken (R196). -/
def syndromePoint (f : Field) (i : Nat) : Byte := gexp f ((i + f.base) % 255)

/-! ### The decoder in the rules' words (R201 to R205) -/

/-- The coefficient of x^k of the product of `p` and `q` (R154). -/
def productCoeff (f : Field) (p q : List Byte) (k : Nat) : Byte :=
  xorSum (k + 1) fun i => gmul f (coeff p i) (coeff q (k - i))

/-- Not empty, and leading zeros stripped (R22, R151). -/
def Stripped (p : Poly) : Prop := 1 ≤ p.length ∧ (p.length = 1 ∨ p.headD 0 ≠ 0)

/-- The loop of R201 on the syndrome polynomial `synd` can be at `rLast`, `r`, `tLast`, `t`: at its start, or after a pass
made while `2·deg(r) ≥ twoS`. A pass divides: `rLast` = `q·r` ⊕ `r'` with `r'` zero or of lower degree than `r`; and the new
`t` is `q·t` ⊕ `tLast`. -/
inductive EuclidRun (f : Field) (twoS : Nat) (synd : Poly) : Poly → Poly → Poly → Poly → Prop
  | start : EuclidRun f twoS synd (1 :: List.replicate twoS 0) synd [0] [1]
  | pass {rLast r tLast t : Poly} (q r' t' : Poly) (run : EuclidRun f twoS synd rLast r tLast t)
      (goesOn : twoS ≤ 2 * deg r) (strippedQ : Stripped q) (strippedR : Stripped r') (strippedT : Stripped t')
      (division : ∀ k, coeff rLast k = productCoeff f q r k ^^^ coeff r' k) (lower : r' = [0] ∨ deg r' < deg r)
      (next : ∀ k, coeff t' k = productCoeff f q t k ^^^ coeff tLast k) :
      EuclidRun f twoS synd r r' t t'

/-- α^(−k), for `k` in 0 … 254: the root that belongs to the location number α^k (R203). -/
def inversePower (f : Field) (k : Nat) : Byte := gexp f ((255 - k) % 255)

/-- The `k` in 0 … 254 for which α^(−k) is a root of `t`: the powers of x at which the errors are (R203, R205). -/
def errorPowers (f : Field) (t : Poly) : List Nat :=
  (List.range 255).filter fun k => polyValue f t (inversePower f k) == 0

/-- The product over the other error powers `j` of `1 ⊕ α^j·α^(−k)` (R204). -/
def denominator (f : Field) (powers : List Nat) (k : Nat) : Byte :=
  (powers.filter fun j => j != k).foldl (fun den j => gmul f den (gmul f (gexp f j) (inversePower f k) ^^^ 1)) 1

/-! ### Binarizer values in the rules' words -/

/-- `bp[bY][bx]` of the hybrid method (R246). -/
def State.blockBlackPoint (s : State) (bY bx : Nat) : Nat :=
  ((s.blockGrid (blockCount s.imgH.toNat)).getD bY []).getD bx 0

/-- The admission checks (1) to (3) of R231 pass, for an output of `words` words. -/
def State.Admits (s : State) (words : Nat) : Prop :=
  s.imgW ≠ 0 ∧ s.imgH ≠ 0 ∧ s.imgW.toNat * s.imgH.toNat ≤ s.sizes.lmemSize ∧ words ≤ s.sizes.bmemWords

/-- `x` is the first peak (R236): the tallest bucket, the lowest of the tallest. -/
def IsFirstPeak (count : List Nat) (x : Nat) : Prop :=
  x < 32 ∧ ∀ z < 32, bucket count z ≤ bucket count x ∧ (z < x → bucket count z < bucket count x)

/-- `x` is the second peak beside the first peak `f` (R237): the lowest bucket with the greatest positive score, or `f` if no
score is positive. -/
def IsSecondPeak (count : List Nat) (f x : Nat) : Prop :=
  (x = f ∧ ∀ z < 32, bucket count z * (z - f + (f - z)) ^ 2 = 0) ∨
  (x < 32 ∧ 0 < bucket count x * (x - f + (f - x)) ^ 2 ∧
    ∀ z < 32, bucket count z * (z - f + (f - z)) ^ 2 ≤ bucket count x * (x - f + (f - x)) ^ 2 ∧
      (z < x → bucket count z * (z - f + (f - z)) ^ 2 < bucket count x * (x - f + (f - x)) ^ 2))

/-- `v` is the valley between the peaks `lo < hi` (R238): strictly between them, with the greatest score, the highest of
the greatest. -/
def IsValley (count : List Nat) (maxCount lo hi v : Nat) : Prop :=
  lo < v ∧ v < hi ∧ ∀ z, lo < z → z < hi →
    valleyScore count maxCount lo hi z ≤ valleyScore count maxCount lo hi v ∧
      (v < z → valleyScore count maxCount lo hi z < valleyScore count maxCount lo hi v)

/-- In `t`, `BMEM` from word 0 holds the rows `0 … h−1` of a matrix of width `w` whose bit (x, y) is `black x y`, padding bits
zero (R67, R68), and every word after them reads as in `s`. -/
def HoldsMatrix (s t : State) (w h : Nat) (black : Nat → Nat → Bool) : Prop :=
  (∀ y < h, ∀ x < 32 * ((w + 31) / 32),
    (t.readBMEM (y * ((w + 31) / 32) + x / 32)).getLsbD (x % 32) = (decide (x < w) && black x y)) ∧
  ∀ a, (w + 31) / 32 * h ≤ a → t.readBMEM a = s.readBMEM a

/-! ### Causes of errors (R285) -/

/-- The table of R285, with the conditions of R168 and R170 for the capacity of `PMUL` and `PMULM`. -/
def IllegalArgumentCause (s : State) : Instr → Prop
  | .gfinv a | .gflog a => a = 0
  | .pld _ off len => len = 0 ∨ 256 < off.toNat + len.toNat
  | .pst ra off => 256 < off.toNat + (s.readP ra).length
  | .pcoef ra k => deg (s.readP ra) < k.toNat
  | .pmul _ ra rb => s.readP ra ≠ [0] ∧ s.readP rb ≠ [0] ∧ 255 < deg (s.readP ra) + deg (s.readP rb)
  | .pmulm _ ra d c => c ≠ 0 ∧ s.readP ra ≠ [0] ∧ 256 < (s.readP ra).length + d.toNat
  | .pdiv rd re _ rb => rd ≠ re ∧ s.readP rb = [0]
  | .rsenc nd ec => nd = 0 ∨ ec = 0 ∨ 255 < nd.toNat + ec.toNat
  | .rsdec n twoS | .rssyn _ n twoS => twoS = 0 ∨ n.toNat ≤ twoS.toNat
  | .bingm | .binhm => ¬ s.Admits ((s.imgW.toNat + 31) / 32 * s.imgH.toNat)
  | .bingr row => ¬ s.Admits ((s.imgW.toNat + 31) / 32) ∨ s.imgH.toNat ≤ row.toNat
  | .nop | .sreset | .gfadd _ _ | .gfmul _ _ | .gfexp _ => False
  | .pzero _ | .pone _ | .pdeg _ | .peval _ _ | .padd _ _ _ | .pscl _ _ _ | .rsgen _ _ => False

end Sys2Proof.Machine
end

