-- ==== Sys2Proof/Certificates/Slice0/Obligations.lean ====
section
/-! DEFINITION. The statements about RSGF8, for the provers. `SucceedsWith i s u` says that `exec i s` answers a next state, and
that this state is `u` but for `STATUS`, which is that of `s` with `LAST` ← 0; so it gives completion, result and frame at
once. `FailsWith i s c` says that `exec i s` answers the state `s` with nothing changed but the record of error `c`. -/

open Sys2Proof Sys2Proof.Machine

/-! ### The step and the host's accesses -/

/-- R27: a host write of `w` to `CMD` executes the command `w`; `CMD` reads 0. Through `withFetchWord` too. The queue of host
acts and `withFetchWord` are the model's (notes/assumptions/3.md). -/
def Obligations.StepRunsDecodedCommand : Prop :=
  (∀ (s : State) (w : Word) (rest : List HostAct) (i : Instr),
    s.host = .writeCSR 0 w :: rest → decode w = .ok i → step s = exec i { s with host := rest }) ∧
  (∀ (s : State) (w : Word) (rest : List HostAct),
    s.host = .writeCSR 0 w :: rest → (∀ i, decode w ≠ .ok i) →
      step s = .next (State.raise .illegalCommand w { s with host := rest })) ∧
  (∀ (s : State) (w : Nat) (i : Instr),
    decodeTableWord 32 w = some i → step (s.withFetchWord 32 w) = exec i s) ∧
  (∀ (s : State) (rest : List HostAct),
    s.host = .readCSR 0 :: rest → step s = .next { s with host := rest, hostData := 0 })

/-- R101: which words are illegal, and that an illegal command changes nothing but `STATUS` and `ERRCMD`. -/
def Obligations.IllegalWordsRecordIllegalCommand : Prop :=
  (∀ w : Word, (∀ i, decode w ≠ .ok i) ↔
    ((∀ row ∈ opcodeRows, w &&& row.mask ≠ row.pattern) ∨
      (w &&& 0xFF000FFF = 0x2C000000 ∧ w.extractLsb' 21 3 = w.extractLsb' 18 3))) ∧
  ∀ (s : State) (w : Word), (∀ i, decode w ≠ .ok i) →
    ∃ t, runCommand w s = .next t ∧ RecordsError .illegalCommand w s t

/-- R301, R311: with no host act pending the block is idle and holds its state. The model's choice that an idle step is a
step: notes/assumptions/3.md. -/
def Obligations.IdleBlockHoldsItsState : Prop := ∀ s : State, s.host = [] → step s = .next s

/-- R62, R63: a host read of `CW`, `LMEM` or `BMEM` returns the element's current value, or 0 out of range, and changes
nothing; a host write replaces that element, or nothing out of range, and changes nothing else. `hostData` is the model's
place for the value returned (notes/assumptions/3.md). -/
def Obligations.HostReadsAndReplacesElements : Prop :=
  ∀ (s : State) (rest : List HostAct) (i : Nat),
    (s.host = .readCW i :: rest → step s = .next { s with
      host := rest, hostData := if i < 256 then (s.readCW i).setWidth 32 else 0 }) ∧
    (s.host = .readLMEM i :: rest → step s = .next { s with
      host := rest, hostData := if i < s.sizes.lmemSize then (s.readLMEM i).setWidth 32 else 0 }) ∧
    (s.host = .readBMEM i :: rest → step s = .next { s with
      host := rest, hostData := if i < s.sizes.bmemWords then s.readBMEM i else 0 }) ∧
    (∀ v, s.host = .writeCW i v :: rest → ∃ t, step s = .next t ∧ t = { s with host := rest, cw := t.cw } ∧
      ∀ j, t.readCW j = if j = i ∧ i < 256 then v else s.readCW j) ∧
    (∀ v, s.host = .writeLMEM i v :: rest → ∃ t, step s = .next t ∧ t = { s with host := rest, lmem := t.lmem } ∧
      ∀ j, t.readLMEM j = if j = i ∧ i < s.sizes.lmemSize then v else s.readLMEM j) ∧
    (∀ v, s.host = .writeBMEM i v :: rest → ∃ t, step s = .next t ∧ t = { s with host := rest, bmem := t.bmem } ∧
      ∀ j, t.readBMEM j = if j = i ∧ i < s.sizes.bmemWords then v else s.readBMEM j)

/-- R26 to R37, R44: which CSR number reads which register, zero-extended, `CMD` and the numbers from 11 on reading 0; a CSR read
returns that and has no side effect; a CSR write keeps bit 0 of `FIELD` and bits 15:0 of `IMG_W` and `IMG_H`, and is ignored
everywhere else. The queue and `hostData` are the model's (notes/assumptions/3.md). -/
def Obligations.CsrAccessKeepsOnlyStoredBits : Prop :=
  (∀ s : State,
    s.csr 0 = 0 ∧ s.csr 1 = s.status ∧ s.csr 2 = s.res ∧ s.csr 3 = s.fsel.setWidth 32 ∧ s.csr 4 = s.imgW.setWidth 32 ∧
    s.csr 5 = s.imgH.setWidth 32 ∧ s.csr 6 = s.outW.setWidth 32 ∧ s.csr 7 = s.outH.setWidth 32 ∧
    s.csr 8 = s.outRs.setWidth 32 ∧ s.csr 9 = s.blackPt.setWidth 32 ∧ s.csr 10 = s.errCmd ∧ ∀ n, 11 ≤ n → s.csr n = 0) ∧
  ∀ (s : State) (rest : List HostAct) (n : Nat),
    (s.host = .readCSR n :: rest → step s = .next { s with host := rest, hostData := if n < 11 then s.csr n else 0 }) ∧
    (∀ v, n ≠ 0 → s.host = .writeCSR n v :: rest → ∃ t, step s = .next t ∧
      t = { s with host := rest, fsel := t.fsel, imgW := t.imgW, imgH := t.imgH } ∧
      ∀ m, t.csr m = if m = n ∧ n = 3 then v &&& 1 else if m = n ∧ (n = 4 ∨ n = 5) then v &&& 0xFFFF else s.csr m)

/-- R43, R310: hardware reset puts every register at its reset value and leaves the memories unspecified (each element is a
free value of Config, whatever it was before); `State.reset` has the same registers. The free values and `powerCycle` are the
model's choice (notes/assumptions/1.md), and so are the queue and `hostData` (3.md) and that reset is an act of the queue, between
two others, which leaves the pending acts and `hostData` (12.md). -/
def Obligations.HardwareResetValues : Prop :=
  (∀ (s : State) (rest : List HostAct), s.host = .hwReset :: rest → ∃ t, step s = .next t ∧
    (∀ r, t.readP r = [0]) ∧ (∀ n, t.csr n = 0) ∧
    (∀ i, t.readCW i = Config.cwPowerOn t.powerCycle i) ∧ (∀ i, t.readLMEM i = Config.lmemPowerOn t.powerCycle i) ∧
    (∀ i, t.readBMEM i = Config.bmemPowerOn t.powerCycle i) ∧ t.powerCycle = s.powerCycle + 1 ∧
    t.sizes = s.sizes ∧ t.host = rest ∧ t.hostData = s.hostData) ∧
  (∀ r, State.reset.readP r = [0]) ∧ (∀ n, State.reset.csr n = 0)

/-! ### The command word -/

/-- Words of R105 and of 95_test_vectors.md section 5, one of every family, and illegal ones. A sanity statement. -/
def Obligations.SpecWordsDecode : Prop :=
  decode 0x01000000 = .ok .sreset ∧
  decode 0x100053CA = .ok (.gfadd 0x53 0xCA) ∧
  decode 0x2B440A01 = .ok (.pmulm 2 1 10 1) ∧
  decode 0x2C70A000 = .ok (.pdiv 3 4 1 2) ∧
  decode 0x31001A0A = .ok (.rsdec 26 10) ∧
  decode 0x4100FFFF = .ok (.bingr 65535) ∧
  decode 0x2804A000 = .error .mustBeZeroBitSet ∧
  decode 0x2C24A000 = .error .pdivSameDestination ∧
  decode 0xFFFFFFFF = .error .unlistedOpcode

/-- R98, R99, R103: decoding and encoding agree both ways: a word decodes to `i` exactly when `i` is well-formed and the
word is `i`'s encoding. (R103 marks its no-overlap sentence as derived.) -/
def Obligations.DecodeInvertsEncode : Prop :=
  ∀ (w : Word) (i : Instr), decode w = .ok i ↔ (i.wf = true ∧ w = encode i)

/-- R103: no two rows of the opcode map match the same word. -/
def Obligations.OpcodeRowsNeverOverlap : Prop :=
  opcodeRows.Pairwise fun r q => ∀ w : Word, ¬ (w &&& r.mask = r.pattern ∧ w &&& q.mask = q.pattern)

/-! ### How commands end -/

/-- R280: no command and no host access stops the machine. -/
def Obligations.EveryStepAnswersNextState : Prop :=
  (∀ (i : Instr) (s : State), ∃ t, exec i s = .next t) ∧ ∀ s : State, s.Safe

/-- R284: every command ends in success, with the sticky bits and `ERRCMD` unchanged (but by `SRESET`, whose own rule R271 clears
them: notes/assumptions/7.md), or in an error, with everything but `STATUS` and `ERRCMD` as before. -/
def Obligations.CommandSucceedsOrChangesOnlyErrorRecord : Prop :=
  ∀ (i : Instr) (s : State), ∃ t, exec i s = .next t ∧
    ((lastOf t.status = 0 ∧ t.host = s.host ∧
        (i ≠ .sreset → t.errCmd = s.errCmd ∧ ∀ n, 4 ≤ n → t.status.getLsbD n = s.status.getLsbD n)) ∨
      ∃ c, RecordsError c (encode i) s t)

/-- R285: a command ends with `ILLEGAL_ARGUMENT` exactly for the causes of the table, in every state whose polynomial
registers are as R22 says (StepKeepsPolynomialRegistersNormal); and the twelve commands R285 names cannot fail. -/
def Obligations.IllegalArgumentExactlyForItsCauses : Prop :=
  (∀ (i : Instr) (s : State), s.polysOk → (FailsWith i s .illegalArgument ↔ IllegalArgumentCause s i)) ∧
  ∀ (i : Instr) (s : State),
    (i = .nop ∨ i = .sreset ∨ (∃ a b, i = .gfadd a b) ∨ (∃ a b, i = .gfmul a b) ∨ (∃ a, i = .gfexp a) ∨ (∃ r, i = .pzero r) ∨
      (∃ r, i = .pone r) ∨ (∃ r, i = .pdeg r) ∨ (∃ r a, i = .peval r a) ∨ (∃ r a b, i = .padd r a b) ∨
      (∃ r a c, i = .pscl r a c) ∨ (∃ r k, i = .rsgen r k)) →
    ∃ t, exec i s = .next t ∧ lastOf t.status = 0

/-- R281: which commands raise the other codes, and that no command shows a code above 4. That the ill-formed term `pdiv rd rd ra rb`
ends with `ILLEGAL_COMMAND` in `exec` is the model's reading (notes/assumptions/8.md). -/
def Obligations.OtherErrorsHaveTheirCommands : Prop :=
  ∀ (i : Instr) (s : State), ∃ t, exec i s = .next t ∧ (lastOf t.status).toNat ≤ 4 ∧
    (lastOf t.status = 2 → i = .bingm ∨ (∃ y, i = .bingr y) ∨ (i = .binhm ∧ (s.imgW.toNat < 40 ∨ s.imgH.toNat < 40))) ∧
    (lastOf t.status = 3 → ∃ n twoS, i = .rsdec n twoS) ∧
    (lastOf t.status = 4 ↔ i.wf = false)

/-- R28, R286, R319: only hardware reset and `SRESET` clear a sticky bit. -/
def Obligations.StickyBitsClearedOnlyByReset : Prop :=
  ∀ (s t : State) (a : HostAct) (rest : List HostAct), s.host = a :: rest → a ≠ .hwReset → a ≠ .writeCSR 0 0x01000000 →
    step s = .next t → ∀ n, 8 ≤ n → n ≤ 11 → s.status.getLsbD n = true → t.status.getLsbD n = true

/-- R25: no command reads the flags: from two states that differ in `STATUS` only, a command leaves states that differ in
`STATUS` only, with the same `LAST`. -/
def Obligations.NoCommandReadsStatus : Prop :=
  ∀ (i : Instr) (s : State) (st : Word), ∃ t u, exec i s = .next t ∧ exec i { s with status := st } = .next u ∧
    u = { t with status := u.status } ∧ lastOf u.status = lastOf t.status

/-- R29, R73: which commands can change which state: no command writes `LMEM`; only the binarizer writes `BMEM` and the output
registers; only `PST`, `RSENC`, `RSDEC` write `CW`; only nine commands write `RES`, only ten the polynomial registers (and
`SRESET` resets the registers). -/
def Obligations.CommandsWriteOnlyTheirState : Prop :=
  ∀ (i : Instr) (s : State), ∃ t, exec i s = .next t ∧
    (∀ a, t.readLMEM a = s.readLMEM a) ∧ t.sizes = s.sizes ∧ t.host = s.host ∧ t.hostData = s.hostData ∧
    (i ≠ .bingm → (∀ y, i ≠ .bingr y) → i ≠ .binhm →
      (∀ a, t.readBMEM a = s.readBMEM a) ∧
      (i ≠ .sreset → t.outW = s.outW ∧ t.outH = s.outH ∧ t.outRs = s.outRs ∧ t.blackPt = s.blackPt)) ∧
    ((∀ r o, i ≠ .pst r o) → (∀ n e, i ≠ .rsenc n e) → (∀ n e, i ≠ .rsdec n e) → ∀ a, t.readCW a = s.readCW a) ∧
    (i ≠ .sreset → t.fsel = s.fsel ∧ t.imgW = s.imgW ∧ t.imgH = s.imgH) ∧
    ((∀ a b, i ≠ .gfadd a b) → (∀ a b, i ≠ .gfmul a b) → (∀ a, i ≠ .gfinv a) → (∀ a, i ≠ .gfexp a) → (∀ a, i ≠ .gflog a) →
      (∀ r, i ≠ .pdeg r) → (∀ r k, i ≠ .pcoef r k) → (∀ r a, i ≠ .peval r a) → (∀ r o, i ≠ .pst r o) → i ≠ .sreset →
      t.res = s.res) ∧
    ((∀ r, i ≠ .pzero r) → (∀ r, i ≠ .pone r) → (∀ r o l, i ≠ .pld r o l) → (∀ r a b, i ≠ .padd r a b) →
      (∀ r a b, i ≠ .pmul r a b) → (∀ r a c, i ≠ .pscl r a c) → (∀ r a d c, i ≠ .pmulm r a d c) →
      (∀ q r a b, i ≠ .pdiv q r a b) → (∀ r k, i ≠ .rsgen r k) → (∀ r n e, i ≠ .rssyn r n e) → i ≠ .sreset → t.p = s.p)

/-- R72: issuing a binarizer command or `RSENC` again changes nothing more. -/
def Obligations.ReissuedCommandsChangeNothing : Prop :=
  ∀ (i : Instr) (s : State), s.memoriesOk →
    (i = .bingm ∨ (∃ y, i = .bingr y) ∨ i = .binhm ∨ (∃ n e, i = .rsenc n e)) →
    ∃ t, exec i s = .next t ∧ exec i t = .next t

/-- R173: `PZERO`, `PONE`, `PLD`, `PST`, `PDEG`, `PCOEF`, `PADD` do not depend on the field; nor does `GFADD` (R130). -/
def Obligations.FieldIndependentCommands : Prop :=
  ∀ (s : State) (x : BitVec 1) (i : Instr),
    ((∃ a b, i = .gfadd a b) ∨ (∃ r, i = .pzero r) ∨ (∃ r, i = .pone r) ∨ (∃ r o l, i = .pld r o l) ∨ (∃ r o, i = .pst r o) ∨
      (∃ r, i = .pdeg r) ∨ (∃ r k, i = .pcoef r k) ∨ (∃ r a b, i = .padd r a b)) →
    ∃ t, exec i s = .next t ∧ exec i { s with fsel := x } = .next { t with fsel := x }

/-! ### Control commands -/

/-- R270: `NOP` clears `LAST` and touches nothing else; its only legal word is 0, any other with its opcode is illegal. -/
def Obligations.NopOnlyClearsLast : Prop :=
  (∀ s : State, SucceedsWith .nop s s) ∧
  decode 0 = .ok .nop ∧ ∀ w : Word, w.extractLsb' 24 8 = 0 → w ≠ 0 → ∀ i, decode w ≠ .ok i

/-- R271: `SRESET` puts every register at its reset value, the sticky bits included, and leaves the memories. -/
def Obligations.SresetResetsRegistersKeepsMemories : Prop :=
  ∀ s : State, ∃ t, exec .sreset s = .next t ∧ (∀ r, t.readP r = [0]) ∧ (∀ n, t.csr n = 0) ∧
    (∀ a, t.readCW a = s.readCW a) ∧ (∀ a, t.readLMEM a = s.readLMEM a) ∧ (∀ a, t.readBMEM a = s.readBMEM a) ∧
    t.sizes = s.sizes ∧ t.host = s.host ∧ t.hostData = s.hostData

/-! ### Scalar unit -/

/-- R124, R130: `GFADD` XORs its operands. -/
def Obligations.GfaddXorsOperands : Prop :=
  ∀ (a b : Byte) (s : State), SucceedsWith (.gfadd a b) s { s with res := (a ^^^ b).setWidth 32 }

/-- R125, R128, R131: `GFMUL` gives the carry-less product reduced modulo the field's polynomial. R128 is marked there as derived
from the table definition; the model computes by the tables. -/
def Obligations.GfmulIsReducedCarrylessProduct : Prop :=
  ∀ (a b : Byte) (s : State), SucceedsWith (.gfmul a b) s
    { s with res := BitVec.ofNat 32 (reduceModulo s.fld.prim (carrylessProduct a.toNat b.toNat)) }

/-- R126, R132: `GFINV` gives the element whose product with the operand is 1, and fails on 0. -/
def Obligations.GfinvGivesTheInverse : Prop :=
  ∀ (a : Byte) (s : State),
    (a ≠ 0 → ∃ x : Byte, SucceedsWith (.gfinv a) s { s with res := x.setWidth 32 } ∧ gmul s.fld a x = 1) ∧
    (a = 0 → FailsWith (.gfinv a) s .illegalArgument)

/-- R122, R133: `GFEXP i` gives α^i as the loop of R122 does, for all 256 exponents. -/
def Obligations.GfexpIsPowerOfAlpha : Prop :=
  ∀ (i : Byte) (s : State), SucceedsWith (.gfexp i) s { s with res := BitVec.ofNat 32 (alphaPower s.fld i.toNat) }

/-- R123, R134: `GFLOG a` gives the one exponent in 0 … 254 whose power of α is `a`, and fails on 0. -/
def Obligations.GflogIsTheDiscreteLogarithm : Prop :=
  ∀ (a : Byte) (s : State),
    (a ≠ 0 → ∃ k : Nat, SucceedsWith (.gflog a) s { s with res := BitVec.ofNat 32 k } ∧ k ≤ 254 ∧
      alphaPower s.fld k = a.toNat ∧ ∀ j ≤ 254, alphaPower s.fld j = a.toNat → j = k) ∧
    (a = 0 → FailsWith (.gflog a) s .illegalArgument)

/-- R125, in the sentence it marks as derived: `gmul` is commutative and associative, distributes over ⊕ and has identity 1. -/
def Obligations.FieldLaws : Prop :=
  ∀ (f : Field) (a b c : Byte), gmul f a b = gmul f b a ∧ gmul f (gmul f a b) c = gmul f a (gmul f b c) ∧
    gmul f a (b ^^^ c) = gmul f a b ^^^ gmul f a c ∧ gmul f a 1 = a

/-! ### Polynomial unit -/

/-- R160, R161: `PZERO` and `PONE` write the constant polynomials. -/
def Obligations.PzeroPoneWriteConstants : Prop :=
  ∀ (rd : Reg) (s : State), SucceedsWith (.pzero rd) s { s with p := s.p.set rd [0] } ∧
    SucceedsWith (.pone rd) s { s with p := s.p.set rd [1] }

/-- R162: `PLD` loads a range of `CW`, leading zeros stripped, and fails on an empty range or one outside `CW`. -/
def Obligations.PldLoadsStrippedRange : Prop :=
  ∀ (rd : Reg) (off len : Byte) (s : State),
    (1 ≤ len.toNat → off.toNat + len.toNat ≤ 256 → ∃ r : Poly, SucceedsWith (.pld rd off len) s { s with p := s.p.set rd r } ∧
      PolyOk r ∧ ∀ k, coeff r k = if k < len.toNat then s.readCW (off.toNat + len.toNat - 1 - k) else 0) ∧
    (len = 0 ∨ 256 < off.toNat + len.toNat → FailsWith (.pld rd off len) s .illegalArgument)

/-- R163: `PST` stores exactly the coefficients, highest power first, returns their number, and fails if they do not fit. -/
def Obligations.PstStoresCoefficients : Prop :=
  ∀ (ra : Reg) (off : Byte) (s : State),
    (off.toNat + (s.readP ra).length ≤ 256 → ∃ m, SucceedsWith (.pst ra off) s
        { s with cw := m, res := BitVec.ofNat 32 (s.readP ra).length } ∧
      ∀ a, State.readCW { s with cw := m } a =
        if off.toNat ≤ a ∧ a < off.toNat + (s.readP ra).length then (s.readP ra).getD (a - off.toNat) 0 else s.readCW a) ∧
    (256 < off.toNat + (s.readP ra).length → FailsWith (.pst ra off) s .illegalArgument)

/-- R164, R165: `PDEG` gives the number of coefficients less 1; `PCOEF` gives the coefficient of x^k and fails above the degree. -/
def Obligations.PdegPcoefReadThePolynomial : Prop :=
  ∀ (ra : Reg) (k : Byte) (s : State), 1 ≤ (s.readP ra).length →
    SucceedsWith (.pdeg ra) s { s with res := BitVec.ofNat 32 ((s.readP ra).length - 1) } ∧
    (k.toNat < (s.readP ra).length →
      SucceedsWith (.pcoef ra k) s { s with res := (coeff (s.readP ra) k.toNat).setWidth 32 }) ∧
    ((s.readP ra).length ≤ k.toNat → FailsWith (.pcoef ra k) s .illegalArgument)

/-- R157, R166: `PEVAL` gives the sum of `c_k·a^k`. -/
def Obligations.PevalIsTheValueAtThePoint : Prop :=
  ∀ (ra : Reg) (a : Byte) (s : State),
    SucceedsWith (.peval ra a) s { s with res := (polyValue s.fld (s.readP ra) a).setWidth 32 }

/-- R153, R167, R172: `PADD` XORs coefficient by coefficient, into any register, a source's among them. -/
def Obligations.PaddXorsCoefficients : Prop :=
  ∀ (rd ra rb : Reg) (s : State), ∃ r : Poly, SucceedsWith (.padd rd ra rb) s { s with p := s.p.set rd r } ∧
    (r.length = 1 ∨ r.headD 0 ≠ 0) ∧ ∀ k, coeff r k = coeff (s.readP ra) k ^^^ coeff (s.readP rb) k

/-- R154, R168, R172: `PMUL` convolves: the coefficient of x^k is the sum of `a_i·b_(k−i)`; it fails when the degrees add up to
more than 255 and neither operand is zero. -/
def Obligations.PmulConvolvesCoefficients : Prop :=
  ∀ (rd ra rb : Reg) (s : State), s.polysOk →
    (deg (s.readP ra) + deg (s.readP rb) ≤ 255 ∨ s.readP ra = [0] ∨ s.readP rb = [0] →
      ∃ r : Poly, SucceedsWith (.pmul rd ra rb) s { s with p := s.p.set rd r } ∧ PolyOk r ∧
        ∀ k, coeff r k = xorSum (k + 1) fun i => gmul s.fld (coeff (s.readP ra) i) (coeff (s.readP rb) (k - i))) ∧
    (255 < deg (s.readP ra) + deg (s.readP rb) → s.readP ra ≠ [0] → s.readP rb ≠ [0] →
      FailsWith (.pmul rd ra rb) s .illegalArgument)

/-- R155, R156, R169, R170: `PSCL` multiplies every coefficient by `c`; `PMULM` does so and moves it up by `d` powers; it fails
when a non-zero result has more than 256 coefficients. -/
def Obligations.PsclPmulmScaleCoefficients : Prop :=
  ∀ (rd ra : Reg) (d c : Byte) (s : State), s.polysOk →
    (∃ r : Poly, SucceedsWith (.pscl rd ra c) s { s with p := s.p.set rd r } ∧ PolyOk r ∧
      ∀ k, coeff r k = gmul s.fld (coeff (s.readP ra) k) c) ∧
    (c = 0 ∨ s.readP ra = [0] ∨ (s.readP ra).length + d.toNat ≤ 256 →
      ∃ r : Poly, SucceedsWith (.pmulm rd ra d c) s { s with p := s.p.set rd r } ∧ PolyOk r ∧
        ∀ k, coeff r k = if k < d.toNat then 0 else gmul s.fld (coeff (s.readP ra) (k - d.toNat)) c) ∧
    (c ≠ 0 → s.readP ra ≠ [0] → 256 < (s.readP ra).length + d.toNat → FailsWith (.pmulm rd ra d c) s .illegalArgument)

/-- R158 (its division identity), R171, R172: `PDIV` gives quotient and remainder: the dividend is quotient times divisor plus
remainder, and the remainder is zero or of lower degree than the divisor. It fails for a zero divisor. Equal destinations, a term
no decoded word gives, are illegal in `exec` too: the model's reading of R101 (notes/assumptions/8.md). -/
def Obligations.PdivIsDivisionWithRemainder : Prop :=
  ∀ (rd re ra rb : Reg) (s : State), s.polysOk →
    (rd ≠ re → s.readP rb ≠ [0] → ∃ q r : Poly,
      SucceedsWith (.pdiv rd re ra rb) s { s with p := (s.p.set rd q).set re r } ∧ PolyOk q ∧ PolyOk r ∧
      (r = [0] ∨ deg r < deg (s.readP rb)) ∧
      ∀ k, coeff (s.readP ra) k =
        (xorSum (k + 1) fun i => gmul s.fld (coeff q i) (coeff (s.readP rb) (k - i))) ^^^ coeff r k) ∧
    (rd ≠ re → s.readP rb = [0] → FailsWith (.pdiv rd re ra rb) s .illegalArgument) ∧
    (rd = re → FailsWith (.pdiv rd re ra rb) s .illegalCommand)

/-- R106: `PMOV` copies, `PACC` accumulates, `PSHL` multiplies by x^d, and the two commands of `PMONO` build the monomial
c·x^d. -/
def Obligations.PseudoInstructionsMeanWhatTheySay : Prop :=
  ∀ (rd ra : Reg) (d c : Byte) (s : State), s.polysOk →
    SucceedsWith (.pscl rd ra 1) s { s with p := s.p.set rd (s.readP ra) } ∧
    (∃ r : Poly, SucceedsWith (.padd rd rd ra) s { s with p := s.p.set rd r } ∧ PolyOk r ∧
      ∀ k, coeff r k = coeff (s.readP rd) k ^^^ coeff (s.readP ra) k) ∧
    (s.readP ra = [0] ∨ (s.readP ra).length + d.toNat ≤ 256 → ∃ r : Poly,
      SucceedsWith (.pmulm rd ra d 1) s { s with p := s.p.set rd r } ∧ PolyOk r ∧
      ∀ k, coeff r k = if k < d.toNat then 0 else coeff (s.readP ra) (k - d.toNat)) ∧
    ∃ t, exec (.pone rd) s = .next t ∧
      SucceedsWith (.pmulm rd rd d c) t
        { t with p := t.p.set rd (if c = 0 then [0] else c :: List.replicate d.toNat 0) }

/-! ### Reed-Solomon unit -/

/-- R190 (its roots), R193, R194: `RSGEN` writes the monic polynomial of degree `k` with the roots α^b … α^(b+k−1). -/
def Obligations.RsgenHasItsRoots : Prop :=
  ∀ (rd : Reg) (k : Byte) (s : State), ∃ g : Poly, SucceedsWith (.rsgen rd k) s { s with p := s.p.set rd g } ∧
    g.length = k.toNat + 1 ∧ g.headD 0 = 1 ∧
    ∀ j < k.toNat, polyValue s.fld g (syndromePoint s.fld j) = 0

/-- R190, R192, R195: `RSENC` writes `ec` bytes after the data and nothing else, and the whole block is then a codeword: its
value at every one of the `ec` points α^b … α^(b+ec−1) is zero (the sentence R192 marks as derived). -/
def Obligations.RsencCompletesACodeword : Prop :=
  ∀ (nd ec : Byte) (s : State),
    (nd ≠ 0 → ec ≠ 0 → nd.toNat + ec.toNat ≤ 255 → ∃ m, SucceedsWith (.rsenc nd ec) s { s with cw := m } ∧
      (∀ a, ¬ (nd.toNat ≤ a ∧ a < nd.toNat + ec.toNat) → State.readCW { s with cw := m } a = s.readCW a) ∧
      ∀ j < ec.toNat, polyValue s.fld (State.cwRange { s with cw := m } 0 (nd.toNat + ec.toNat)) (syndromePoint s.fld j) = 0) ∧
    (nd = 0 ∨ ec = 0 ∨ 255 < nd.toNat + ec.toNat → FailsWith (.rsenc nd ec) s .illegalArgument)

/-- R196, R197: `RSSYN` writes the polynomial whose coefficient of x^i is the block's value at α^(i+b). The order of its
coefficients is the sentence R196 marks as general knowledge (K5). -/
def Obligations.RssynWritesSyndromes : Prop :=
  ∀ (rd : Reg) (n twoS : Byte) (s : State),
    (1 ≤ twoS.toNat → twoS.toNat < n.toNat → ∃ r : Poly, SucceedsWith (.rssyn rd n twoS) s { s with p := s.p.set rd r } ∧
      PolyOk r ∧ ∀ i, coeff r i =
        if i < twoS.toNat then polyValue s.fld (s.cwRange 0 n.toNat) (syndromePoint s.fld i) else 0) ∧
    (twoS = 0 ∨ n.toNat ≤ twoS.toNat → FailsWith (.rssyn rd n twoS) s .illegalArgument)

/-- R191, R198, R199: whatever `RSDEC` finds, it changes at most `CW[0..n)`, and nothing at all when it fails, which within the
limits of R199 is with `CHECKSUM`. -/
def Obligations.RsdecTouchesOnlyItsBlock : Prop :=
  ∀ (n twoS : Byte) (s : State),
    (1 ≤ twoS.toNat → twoS.toNat < n.toNat →
      (∃ m, SucceedsWith (.rsdec n twoS) s { s with cw := m } ∧
        ∀ a, n.toNat ≤ a → State.readCW { s with cw := m } a = s.readCW a) ∨ FailsWith (.rsdec n twoS) s .checksum) ∧
    (twoS = 0 ∨ n.toNat ≤ twoS.toNat → FailsWith (.rsdec n twoS) s .illegalArgument)

/-- R198, R201 to R206: what `RSDEC` does with every block within the limits of R199, correctable or not. The loop of R201 on the
syndrome polynomial stops at some `t` and `r` with `2·deg(r) < twoS`. The errors are at the powers `k` of x for which α^(−k) is a
root of `t`. `RSDEC` fails with `CHECKSUM` exactly when `t(0)` is zero, these powers are fewer than the degree of `t`, or one
of them is outside the block. Else it succeeds and changes, in all of `CW`, only the bytes at these powers, each by its
magnitude: `r(α^(−k))` over `t(0)·Π (1 ⊕ α^j·α^(−k))`, times α^(−k) in the Data Matrix field. The position rule and its
failure are R205's, marked there as derived and as general knowledge (K7); the order of the syndromes is R196's (K5). -/
def Obligations.RsdecDecidesEveryBlock : Prop :=
  ∀ (n twoS : Byte) (s : State), 1 ≤ twoS.toNat → twoS.toNat < n.toNat →
    ∃ synd rLast r tLast t : Poly, Stripped synd ∧
      (∀ i, coeff synd i = if i < twoS.toNat then polyValue s.fld (s.cwRange 0 n.toNat) (syndromePoint s.fld i) else 0) ∧
      EuclidRun s.fld twoS.toNat synd rLast r tLast t ∧ 2 * deg r < twoS.toNat ∧
      let powers := errorPowers s.fld t
      let bad := coeff t 0 = 0 ∨ powers.length ≠ deg t ∨ ∃ k ∈ powers, n.toNat ≤ k
      (bad → FailsWith (.rsdec n twoS) s .checksum) ∧
      (¬ bad → ∃ (m : Memory 8) (magnitude : Nat → Byte), SucceedsWith (.rsdec n twoS) s { s with cw := m } ∧
        (∀ k ∈ powers, gmul s.fld (magnitude k) (gmul s.fld (coeff t 0) (denominator s.fld powers k)) =
          gmul s.fld (polyValue s.fld r (inversePower s.fld k)) (if s.fld.base = 0 then 1 else inversePower s.fld k)) ∧
        ∀ a, State.readCW { s with cw := m } a =
          if a < n.toNat ∧ n.toNat - 1 - a ∈ powers then s.readCW a ^^^ magnitude (n.toNat - 1 - a) else s.readCW a)

/-- R200, R207 (2), marked there as derived: when every syndrome `S_i` with `2·i ≥ twoS` is zero (all of them, or all but low
ones), `RSDEC` succeeds and every byte of `CW` reads as before. -/
def Obligations.RsdecLeavesBlocksWithLowSyndromes : Prop :=
  ∀ (n twoS : Byte) (s : State), 1 ≤ twoS.toNat → twoS.toNat < n.toNat →
    (∀ i < twoS.toNat, twoS.toNat ≤ 2 * i → polyValue s.fld (s.cwRange 0 n.toNat) (syndromePoint s.fld i) = 0) →
    ∃ m, SucceedsWith (.rsdec n twoS) s { s with cw := m } ∧ ∀ a, State.readCW { s with cw := m } a = s.readCW a

/-- R201, R207 (1), marked there as derived: on a syndrome polynomial of degree below `twoS ≥ 1` the Euclidean loop neither fails
nor runs out of the passes the model gives it: it stops at the first remainder with `2·deg(r) < twoS`. -/
def Obligations.EuclidLoopStopsWithoutFailure : Prop :=
  ∀ (f : Field) (twoS : Nat) (synd : Poly), 1 ≤ twoS → PolyOk synd → synd.length ≤ twoS →
    ∃ t r, euclidLoop f twoS (twoS + 1) (pmulm f [1] twoS 1) synd [0] [1] = .ok (t, r) ∧ 2 * deg r < twoS

/-- R204: Forney's denominator is never zero. R204 says so of distinct roots; that it holds of a list with a repeated root too
rests on the model's reading of j ≠ k by value (notes/assumptions/11.md). -/
def Obligations.ForneyDenominatorNeverZero : Prop :=
  ∀ (f : Field) (roots : List Byte) (rho : Byte), rho ≠ 0 → (∀ r ∈ roots, r ≠ 0) → forneyDen f roots rho ≠ 0

/-- R208: `RSDEC` restores every block that differs from `data ++ rsenc(data, ec)` in at most ⌊ec/2⌋ bytes, and changes no byte of
`CW` after the block. -/
def Obligations.RsdecRestoresCorrectableBlocks : Prop :=
  ∀ (n ec : Byte) (s : State) (data : List Byte), 1 ≤ data.length → 1 ≤ ec.toNat → data.length + ec.toNat = n.toNat →
    ((List.range n.toNat).countP fun k => s.readCW k != (data ++ rsenc s.fld data ec.toNat).getD k 0) ≤ ec.toNat / 2 →
    ∃ m, SucceedsWith (.rsdec n ec) s { s with cw := m } ∧
      State.cwRange { s with cw := m } 0 n.toNat = data ++ rsenc s.fld data ec.toNat ∧
      ∀ a, n.toNat ≤ a → State.readCW { s with cw := m } a = s.readCW a

/-! ### Binarizer -/

/-- R233 to R235: bucket `k` of the matrix histogram counts, over four rows and the middle three fifths of the columns, the
pixels whose luminance shifted right by 3 is `k`; that of the row histogram counts them over the whole row (general knowledge
by R235's own mark). -/
def Obligations.HistogramsCountTheSampledPixels : Prop :=
  ∀ (s : State) (y k : Nat), k < 32 →
    bucket (histogram s.matrixSamples) k = ([1, 2, 3, 4].map fun j => (List.range s.imgW.toNat).countP fun x =>
      decide (s.imgW.toNat / 5 ≤ x ∧ x < 4 * s.imgW.toNat / 5 ∧ s.pixel x (s.imgH.toNat * j / 5) >>> 3 = k)).sum ∧
    bucket (histogram (s.rowSamples y)) k = (List.range s.imgW.toNat).countP fun x => decide (s.pixel x y >>> 3 = k)

/-- R236 to R239: the black point is 8 times the valley between the two peaks, and the estimate fails with `NOT_FOUND` exactly
when the peaks are at most 2 buckets apart. The tie rules, and taking the maximum, are what R236 to R238 mark as general
knowledge (K11, K13, K14) and 90_conflicts.md C4, C5 decide. -/
def Obligations.BlackPointIsTheValley : Prop :=
  ∀ count : List Nat, count.length = 32 → ∃ f g, IsFirstPeak count f ∧ IsSecondPeak count f g ∧
    (max f g - min f g ≤ 2 → estimateBlackPoint count = .error .notFound) ∧
    (2 < max f g - min f g → ∃ v, estimateBlackPoint count = .ok (8 * v) ∧
      IsValley count (bucket count f) (min f g) (max f g) v ∧ 1 ≤ v ∧ v ≤ 30)

/-- R231, R240, R241: `BINGM` writes the matrix of the pixels strictly below the black point and describes it; on too little
contrast it fails with `NOT_FOUND`, on an inadmissible image with `ILLEGAL_ARGUMENT`. The strict comparison is R240's, marked
there as general knowledge (K12). -/
def Obligations.BingmThresholdsTheImage : Prop :=
  ∀ s : State,
    (s.Admits ((s.imgW.toNat + 31) / 32 * s.imgH.toNat) →
      (∀ bp, estimateBlackPoint (histogram s.matrixSamples) = .ok bp → ∃ m,
        SucceedsWith .bingm s { s with
          bmem := m, outW := s.imgW, outH := s.imgH, outRs := BitVec.ofNat 12 ((s.imgW.toNat + 31) / 32),
          blackPt := BitVec.ofNat 8 bp } ∧
        HoldsMatrix s { s with bmem := m } s.imgW.toNat s.imgH.toNat fun x y => decide (s.pixel x y < bp)) ∧
      (∀ e, estimateBlackPoint (histogram s.matrixSamples) = .error e → FailsWith .bingm s .notFound)) ∧
    (¬ s.Admits ((s.imgW.toNat + 31) / 32 * s.imgH.toNat) → FailsWith .bingm s .illegalArgument)

/-- R235, R242, R243: `BINGR y` writes one row: interior pixels compare the sharpened value, the two ends stay light; rows
narrower than 3 compare the raw luminance (both marked by R243 as general knowledge, K10). -/
def Obligations.BingrThresholdsTheSharpenedRow : Prop :=
  ∀ (s : State) (row : Half),
    (s.Admits ((s.imgW.toNat + 31) / 32) → row.toNat < s.imgH.toNat →
      (∀ bp, estimateBlackPoint (histogram ((List.range s.imgW.toNat).map fun x => s.pixel x row.toNat)) = .ok bp → ∃ m,
        SucceedsWith (.bingr row) s { s with
          bmem := m, outW := s.imgW, outH := 1, outRs := BitVec.ofNat 12 ((s.imgW.toNat + 31) / 32),
          blackPt := BitVec.ofNat 8 bp } ∧
        HoldsMatrix s { s with bmem := m } s.imgW.toNat 1 fun x _ =>
          if s.imgW.toNat < 3 then decide (s.pixel x row.toNat < bp)
          else decide (1 ≤ x ∧ x + 1 < s.imgW.toNat ∧
            4 * (s.pixel x row.toNat : Int) - s.pixel (x - 1) row.toNat - s.pixel (x + 1) row.toNat < 2 * bp)) ∧
      (∀ e, estimateBlackPoint (histogram ((List.range s.imgW.toNat).map fun x => s.pixel x row.toNat)) = .error e →
        FailsWith (.bingr row) s .notFound)) ∧
    (¬ s.Admits ((s.imgW.toNat + 31) / 32) ∨ s.imgH.toNat ≤ row.toNat → FailsWith (.bingr row) s .illegalArgument)

/-- R251: below 40×40 `BINHM` does what `BINGM` does, errors included (the recorded command word is its own). -/
def Obligations.BinhmFallsBackToBingm : Prop :=
  ∀ s : State, s.imgW.toNat < 40 ∨ s.imgH.toNat < 40 →
    (∀ u, SucceedsWith .bingm s u ↔ SucceedsWith .binhm s u) ∧ ∀ c, FailsWith .bingm s c ↔ FailsWith .binhm s c

/-- R244, R247, R249, R251: from 40×40 on an admissible `BINHM` always succeeds, writes the matrix of the pixels at or below the
threshold of the block they lie in, and leaves `BLACKPT`; the threshold of a block is the sum of the 5×5 black points around the
centre clamped to [2, sub−3], div 25; every other block that covers a pixel has the same threshold (the sentence R249 marks as
derived). The black points are those of BlockBlackPoints. -/
def Obligations.BinhmThresholdsByBlock : Prop :=
  ∀ s : State, 40 ≤ s.imgW.toNat → 40 ≤ s.imgH.toNat → s.Admits ((s.imgW.toNat + 31) / 32 * s.imgH.toNat) →
    let subW := (s.imgW.toNat + 7) / 8
    let subH := (s.imgH.toNat + 7) / 8
    let thr := fun (bx bY : Nat) =>
      let cx := min (max bx 2) (subW - 3)
      let cy := min (max bY 2) (subH - 3)
      (∑ r ∈ Finset.Icc (cy - 2) (cy + 2), ∑ c ∈ Finset.Icc (cx - 2) (cx + 2), s.blockBlackPoint r c) / 25
    (∃ m, SucceedsWith .binhm s { s with
        bmem := m, outW := s.imgW, outH := s.imgH, outRs := BitVec.ofNat 12 ((s.imgW.toNat + 31) / 32) } ∧
      HoldsMatrix s { s with bmem := m } s.imgW.toNat s.imgH.toNat fun x y => decide (s.pixel x y ≤ thr (x / 8) (y / 8))) ∧
    ∀ x < s.imgW.toNat, ∀ y < s.imgH.toNat, ∀ bx < subW, ∀ bY < subH,
      min (8 * bx) (s.imgW.toNat - 8) ≤ x → x < min (8 * bx) (s.imgW.toNat - 8) + 8 →
      min (8 * bY) (s.imgH.toNat - 8) ≤ y → y < min (8 * bY) (s.imgH.toNat - 8) + 8 → thr bx bY = thr (x / 8) (y / 8)

/-- R244, R245, R246: block (bx, by) covers the 64 pixels with xo ≤ x < xo+8 and yo ≤ y < yo+8; its black point is their sum
div 64 when their contrast is above 24; else half their minimum, or the average of the north, west and north-west neighbours
where they exist and it exceeds the minimum. `lo` and `hi` are the minimum and the maximum. -/
def Obligations.BlockBlackPoints : Prop :=
  ∀ (s : State) (bx bY : Nat), bx < (s.imgW.toNat + 7) / 8 → bY < (s.imgH.toNat + 7) / 8 →
    let xo := min (8 * bx) (s.imgW.toNat - 8)
    let yo := min (8 * bY) (s.imgH.toNat - 8)
    ∀ lo hi : Nat,
    (∃ x y, xo ≤ x ∧ x < xo + 8 ∧ yo ≤ y ∧ y < yo + 8 ∧ s.pixel x y = lo) →
    (∃ x y, xo ≤ x ∧ x < xo + 8 ∧ yo ≤ y ∧ y < yo + 8 ∧ s.pixel x y = hi) →
    (∀ x y, xo ≤ x → x < xo + 8 → yo ≤ y → y < yo + 8 → lo ≤ s.pixel x y ∧ s.pixel x y ≤ hi) →
    let avg := (s.blockBlackPoint (bY - 1) bx + 2 * s.blockBlackPoint bY (bx - 1) + s.blockBlackPoint (bY - 1) (bx - 1)) / 4
    s.blockBlackPoint bY bx =
      if 24 < hi - lo then (∑ y ∈ Finset.Ico yo (yo + 8), ∑ x ∈ Finset.Ico xo (xo + 8), s.pixel x y) / 64
      else if 0 < bY ∧ 0 < bx ∧ lo < avg then avg else lo / 2

/-- R238, R241, R251 and the corner case of R251: on an image of one luminance `v`, `BINGM` fails with `NOT_FOUND`, and from
40×40 on `BINHM` gives an all-light matrix, or an all-black one when `v` is 0. -/
def Obligations.UniformImages : Prop :=
  ∀ (s : State) (v : Nat), s.Admits ((s.imgW.toNat + 31) / 32 * s.imgH.toNat) →
    (∀ x < s.imgW.toNat, ∀ y < s.imgH.toNat, s.pixel x y = v) →
    FailsWith .bingm s .notFound ∧
    (40 ≤ s.imgW.toNat → 40 ≤ s.imgH.toNat → ∃ m, SucceedsWith .binhm s { s with
        bmem := m, outW := s.imgW, outH := s.imgH, outRs := BitVec.ofNat 12 ((s.imgW.toNat + 31) / 32) } ∧
      HoldsMatrix s { s with bmem := m } s.imgW.toNat s.imgH.toNat fun _ _ => decide (v = 0))

/-! ### Invariants -/

/-- R22, R43: the reset state meets the invariant. -/
def Obligations.ResetMeetsInvariant : Prop := State.reset.Inv

/-- R22: every step keeps the polynomial registers as they should be: 1 to 256 coefficients, no leading zero. -/
def Obligations.StepKeepsPolynomialRegistersNormal : Prop :=
  ∀ s t : State, s.polysOk → step s = .next t → t.polysOk

/-- R28: every step keeps `STATUS` legal: reserved bits zero, `LAST` at most 4, the sticky bit of `LAST`'s class set. -/
def Obligations.StepKeepsStatusLegal : Prop :=
  ∀ s t : State, s.statusOk → step s = .next t → t.statusOk

/-- R22, R28, R29, R35, R36, R38 to R40: every step keeps the whole invariant. -/
def Obligations.StepKeepsInvariant : Prop :=
  ∀ s t : State, s.Inv → step s = .next t → t.Inv
end

