-- ==== Sys2Proof/Laws/State.lean ====
section
/-! SUPPORT. What each field of the state is after each update: one lemma a field and update, true by `rfl`. -/

namespace Sys2Proof.Machine

/-! ### `State.raise` -/

@[simp] theorem State.raise_p (s : State) (c : ErrorCode) (cmd : Word) : (s.raise c cmd).p = s.p := rfl
@[simp] theorem State.raise_status (s : State) (c : ErrorCode) (cmd : Word) : (s.raise c cmd).status = statusAfterError c s.status := rfl
@[simp] theorem State.raise_res (s : State) (c : ErrorCode) (cmd : Word) : (s.raise c cmd).res = s.res := rfl
@[simp] theorem State.raise_fsel (s : State) (c : ErrorCode) (cmd : Word) : (s.raise c cmd).fsel = s.fsel := rfl
@[simp] theorem State.raise_imgW (s : State) (c : ErrorCode) (cmd : Word) : (s.raise c cmd).imgW = s.imgW := rfl
@[simp] theorem State.raise_imgH (s : State) (c : ErrorCode) (cmd : Word) : (s.raise c cmd).imgH = s.imgH := rfl
@[simp] theorem State.raise_outW (s : State) (c : ErrorCode) (cmd : Word) : (s.raise c cmd).outW = s.outW := rfl
@[simp] theorem State.raise_outH (s : State) (c : ErrorCode) (cmd : Word) : (s.raise c cmd).outH = s.outH := rfl
@[simp] theorem State.raise_outRs (s : State) (c : ErrorCode) (cmd : Word) : (s.raise c cmd).outRs = s.outRs := rfl
@[simp] theorem State.raise_blackPt (s : State) (c : ErrorCode) (cmd : Word) : (s.raise c cmd).blackPt = s.blackPt := rfl
@[simp] theorem State.raise_errCmd (s : State) (c : ErrorCode) (cmd : Word) : (s.raise c cmd).errCmd = cmd := rfl
@[simp] theorem State.raise_cw (s : State) (c : ErrorCode) (cmd : Word) : (s.raise c cmd).cw = s.cw := rfl
@[simp] theorem State.raise_lmem (s : State) (c : ErrorCode) (cmd : Word) : (s.raise c cmd).lmem = s.lmem := rfl
@[simp] theorem State.raise_bmem (s : State) (c : ErrorCode) (cmd : Word) : (s.raise c cmd).bmem = s.bmem := rfl
@[simp] theorem State.raise_sizes (s : State) (c : ErrorCode) (cmd : Word) : (s.raise c cmd).sizes = s.sizes := rfl
@[simp] theorem State.raise_powerCycle (s : State) (c : ErrorCode) (cmd : Word) : (s.raise c cmd).powerCycle = s.powerCycle := rfl
@[simp] theorem State.raise_host (s : State) (c : ErrorCode) (cmd : Word) : (s.raise c cmd).host = s.host := rfl
@[simp] theorem State.raise_hostData (s : State) (c : ErrorCode) (cmd : Word) : (s.raise c cmd).hostData = s.hostData := rfl

/-! ### `State.succeed` -/

@[simp] theorem State.succeed_p (s : State) : (s.succeed).p = s.p := rfl
@[simp] theorem State.succeed_status (s : State) : (s.succeed).status = statusAfterSuccess s.status := rfl
@[simp] theorem State.succeed_res (s : State) : (s.succeed).res = s.res := rfl
@[simp] theorem State.succeed_fsel (s : State) : (s.succeed).fsel = s.fsel := rfl
@[simp] theorem State.succeed_imgW (s : State) : (s.succeed).imgW = s.imgW := rfl
@[simp] theorem State.succeed_imgH (s : State) : (s.succeed).imgH = s.imgH := rfl
@[simp] theorem State.succeed_outW (s : State) : (s.succeed).outW = s.outW := rfl
@[simp] theorem State.succeed_outH (s : State) : (s.succeed).outH = s.outH := rfl
@[simp] theorem State.succeed_outRs (s : State) : (s.succeed).outRs = s.outRs := rfl
@[simp] theorem State.succeed_blackPt (s : State) : (s.succeed).blackPt = s.blackPt := rfl
@[simp] theorem State.succeed_errCmd (s : State) : (s.succeed).errCmd = s.errCmd := rfl
@[simp] theorem State.succeed_cw (s : State) : (s.succeed).cw = s.cw := rfl
@[simp] theorem State.succeed_lmem (s : State) : (s.succeed).lmem = s.lmem := rfl
@[simp] theorem State.succeed_bmem (s : State) : (s.succeed).bmem = s.bmem := rfl
@[simp] theorem State.succeed_sizes (s : State) : (s.succeed).sizes = s.sizes := rfl
@[simp] theorem State.succeed_powerCycle (s : State) : (s.succeed).powerCycle = s.powerCycle := rfl
@[simp] theorem State.succeed_host (s : State) : (s.succeed).host = s.host := rfl
@[simp] theorem State.succeed_hostData (s : State) : (s.succeed).hostData = s.hostData := rfl

/-! ### `State.writeRES` -/

@[simp] theorem State.writeRES_p (s : State) (v : Nat) : (s.writeRES v).p = s.p := rfl
@[simp] theorem State.writeRES_status (s : State) (v : Nat) : (s.writeRES v).status = s.status := rfl
@[simp] theorem State.writeRES_res (s : State) (v : Nat) : (s.writeRES v).res = BitVec.ofNat 32 v := rfl
@[simp] theorem State.writeRES_fsel (s : State) (v : Nat) : (s.writeRES v).fsel = s.fsel := rfl
@[simp] theorem State.writeRES_imgW (s : State) (v : Nat) : (s.writeRES v).imgW = s.imgW := rfl
@[simp] theorem State.writeRES_imgH (s : State) (v : Nat) : (s.writeRES v).imgH = s.imgH := rfl
@[simp] theorem State.writeRES_outW (s : State) (v : Nat) : (s.writeRES v).outW = s.outW := rfl
@[simp] theorem State.writeRES_outH (s : State) (v : Nat) : (s.writeRES v).outH = s.outH := rfl
@[simp] theorem State.writeRES_outRs (s : State) (v : Nat) : (s.writeRES v).outRs = s.outRs := rfl
@[simp] theorem State.writeRES_blackPt (s : State) (v : Nat) : (s.writeRES v).blackPt = s.blackPt := rfl
@[simp] theorem State.writeRES_errCmd (s : State) (v : Nat) : (s.writeRES v).errCmd = s.errCmd := rfl
@[simp] theorem State.writeRES_cw (s : State) (v : Nat) : (s.writeRES v).cw = s.cw := rfl
@[simp] theorem State.writeRES_lmem (s : State) (v : Nat) : (s.writeRES v).lmem = s.lmem := rfl
@[simp] theorem State.writeRES_bmem (s : State) (v : Nat) : (s.writeRES v).bmem = s.bmem := rfl
@[simp] theorem State.writeRES_sizes (s : State) (v : Nat) : (s.writeRES v).sizes = s.sizes := rfl
@[simp] theorem State.writeRES_powerCycle (s : State) (v : Nat) : (s.writeRES v).powerCycle = s.powerCycle := rfl
@[simp] theorem State.writeRES_host (s : State) (v : Nat) : (s.writeRES v).host = s.host := rfl
@[simp] theorem State.writeRES_hostData (s : State) (v : Nat) : (s.writeRES v).hostData = s.hostData := rfl

/-! ### `State.writeP` -/

@[simp] theorem State.writeP_p (s : State) (i : Reg) (v : Poly) : (s.writeP i v).p = s.p.set i (norm v) := rfl
@[simp] theorem State.writeP_status (s : State) (i : Reg) (v : Poly) : (s.writeP i v).status = s.status := rfl
@[simp] theorem State.writeP_res (s : State) (i : Reg) (v : Poly) : (s.writeP i v).res = s.res := rfl
@[simp] theorem State.writeP_fsel (s : State) (i : Reg) (v : Poly) : (s.writeP i v).fsel = s.fsel := rfl
@[simp] theorem State.writeP_imgW (s : State) (i : Reg) (v : Poly) : (s.writeP i v).imgW = s.imgW := rfl
@[simp] theorem State.writeP_imgH (s : State) (i : Reg) (v : Poly) : (s.writeP i v).imgH = s.imgH := rfl
@[simp] theorem State.writeP_outW (s : State) (i : Reg) (v : Poly) : (s.writeP i v).outW = s.outW := rfl
@[simp] theorem State.writeP_outH (s : State) (i : Reg) (v : Poly) : (s.writeP i v).outH = s.outH := rfl
@[simp] theorem State.writeP_outRs (s : State) (i : Reg) (v : Poly) : (s.writeP i v).outRs = s.outRs := rfl
@[simp] theorem State.writeP_blackPt (s : State) (i : Reg) (v : Poly) : (s.writeP i v).blackPt = s.blackPt := rfl
@[simp] theorem State.writeP_errCmd (s : State) (i : Reg) (v : Poly) : (s.writeP i v).errCmd = s.errCmd := rfl
@[simp] theorem State.writeP_cw (s : State) (i : Reg) (v : Poly) : (s.writeP i v).cw = s.cw := rfl
@[simp] theorem State.writeP_lmem (s : State) (i : Reg) (v : Poly) : (s.writeP i v).lmem = s.lmem := rfl
@[simp] theorem State.writeP_bmem (s : State) (i : Reg) (v : Poly) : (s.writeP i v).bmem = s.bmem := rfl
@[simp] theorem State.writeP_sizes (s : State) (i : Reg) (v : Poly) : (s.writeP i v).sizes = s.sizes := rfl
@[simp] theorem State.writeP_powerCycle (s : State) (i : Reg) (v : Poly) : (s.writeP i v).powerCycle = s.powerCycle := rfl
@[simp] theorem State.writeP_host (s : State) (i : Reg) (v : Poly) : (s.writeP i v).host = s.host := rfl
@[simp] theorem State.writeP_hostData (s : State) (i : Reg) (v : Poly) : (s.writeP i v).hostData = s.hostData := rfl

/-! ### `State.writeCW` -/

@[simp] theorem State.writeCW_p (s : State) (i : Nat) (vs : List Byte) : (s.writeCW i vs).p = s.p := rfl
@[simp] theorem State.writeCW_status (s : State) (i : Nat) (vs : List Byte) : (s.writeCW i vs).status = s.status := rfl
@[simp] theorem State.writeCW_res (s : State) (i : Nat) (vs : List Byte) : (s.writeCW i vs).res = s.res := rfl
@[simp] theorem State.writeCW_fsel (s : State) (i : Nat) (vs : List Byte) : (s.writeCW i vs).fsel = s.fsel := rfl
@[simp] theorem State.writeCW_imgW (s : State) (i : Nat) (vs : List Byte) : (s.writeCW i vs).imgW = s.imgW := rfl
@[simp] theorem State.writeCW_imgH (s : State) (i : Nat) (vs : List Byte) : (s.writeCW i vs).imgH = s.imgH := rfl
@[simp] theorem State.writeCW_outW (s : State) (i : Nat) (vs : List Byte) : (s.writeCW i vs).outW = s.outW := rfl
@[simp] theorem State.writeCW_outH (s : State) (i : Nat) (vs : List Byte) : (s.writeCW i vs).outH = s.outH := rfl
@[simp] theorem State.writeCW_outRs (s : State) (i : Nat) (vs : List Byte) : (s.writeCW i vs).outRs = s.outRs := rfl
@[simp] theorem State.writeCW_blackPt (s : State) (i : Nat) (vs : List Byte) : (s.writeCW i vs).blackPt = s.blackPt := rfl
@[simp] theorem State.writeCW_errCmd (s : State) (i : Nat) (vs : List Byte) : (s.writeCW i vs).errCmd = s.errCmd := rfl
@[simp] theorem State.writeCW_cw (s : State) (i : Nat) (vs : List Byte) : (s.writeCW i vs).cw = s.cw.writeRange i vs := rfl
@[simp] theorem State.writeCW_lmem (s : State) (i : Nat) (vs : List Byte) : (s.writeCW i vs).lmem = s.lmem := rfl
@[simp] theorem State.writeCW_bmem (s : State) (i : Nat) (vs : List Byte) : (s.writeCW i vs).bmem = s.bmem := rfl
@[simp] theorem State.writeCW_sizes (s : State) (i : Nat) (vs : List Byte) : (s.writeCW i vs).sizes = s.sizes := rfl
@[simp] theorem State.writeCW_powerCycle (s : State) (i : Nat) (vs : List Byte) : (s.writeCW i vs).powerCycle = s.powerCycle := rfl
@[simp] theorem State.writeCW_host (s : State) (i : Nat) (vs : List Byte) : (s.writeCW i vs).host = s.host := rfl
@[simp] theorem State.writeCW_hostData (s : State) (i : Nat) (vs : List Byte) : (s.writeCW i vs).hostData = s.hostData := rfl

/-! ### `State.writeLMEM` -/

@[simp] theorem State.writeLMEM_p (s : State) (i : Nat) (v : Byte) : (s.writeLMEM i v).p = s.p := rfl
@[simp] theorem State.writeLMEM_status (s : State) (i : Nat) (v : Byte) : (s.writeLMEM i v).status = s.status := rfl
@[simp] theorem State.writeLMEM_res (s : State) (i : Nat) (v : Byte) : (s.writeLMEM i v).res = s.res := rfl
@[simp] theorem State.writeLMEM_fsel (s : State) (i : Nat) (v : Byte) : (s.writeLMEM i v).fsel = s.fsel := rfl
@[simp] theorem State.writeLMEM_imgW (s : State) (i : Nat) (v : Byte) : (s.writeLMEM i v).imgW = s.imgW := rfl
@[simp] theorem State.writeLMEM_imgH (s : State) (i : Nat) (v : Byte) : (s.writeLMEM i v).imgH = s.imgH := rfl
@[simp] theorem State.writeLMEM_outW (s : State) (i : Nat) (v : Byte) : (s.writeLMEM i v).outW = s.outW := rfl
@[simp] theorem State.writeLMEM_outH (s : State) (i : Nat) (v : Byte) : (s.writeLMEM i v).outH = s.outH := rfl
@[simp] theorem State.writeLMEM_outRs (s : State) (i : Nat) (v : Byte) : (s.writeLMEM i v).outRs = s.outRs := rfl
@[simp] theorem State.writeLMEM_blackPt (s : State) (i : Nat) (v : Byte) : (s.writeLMEM i v).blackPt = s.blackPt := rfl
@[simp] theorem State.writeLMEM_errCmd (s : State) (i : Nat) (v : Byte) : (s.writeLMEM i v).errCmd = s.errCmd := rfl
@[simp] theorem State.writeLMEM_cw (s : State) (i : Nat) (v : Byte) : (s.writeLMEM i v).cw = s.cw := rfl
@[simp] theorem State.writeLMEM_lmem (s : State) (i : Nat) (v : Byte) : (s.writeLMEM i v).lmem = s.lmem.write i v := rfl
@[simp] theorem State.writeLMEM_bmem (s : State) (i : Nat) (v : Byte) : (s.writeLMEM i v).bmem = s.bmem := rfl
@[simp] theorem State.writeLMEM_sizes (s : State) (i : Nat) (v : Byte) : (s.writeLMEM i v).sizes = s.sizes := rfl
@[simp] theorem State.writeLMEM_powerCycle (s : State) (i : Nat) (v : Byte) : (s.writeLMEM i v).powerCycle = s.powerCycle := rfl
@[simp] theorem State.writeLMEM_host (s : State) (i : Nat) (v : Byte) : (s.writeLMEM i v).host = s.host := rfl
@[simp] theorem State.writeLMEM_hostData (s : State) (i : Nat) (v : Byte) : (s.writeLMEM i v).hostData = s.hostData := rfl

/-! ### `State.writeBMEM` -/

@[simp] theorem State.writeBMEM_p (s : State) (i : Nat) (vs : List Word) : (s.writeBMEM i vs).p = s.p := rfl
@[simp] theorem State.writeBMEM_status (s : State) (i : Nat) (vs : List Word) : (s.writeBMEM i vs).status = s.status := rfl
@[simp] theorem State.writeBMEM_res (s : State) (i : Nat) (vs : List Word) : (s.writeBMEM i vs).res = s.res := rfl
@[simp] theorem State.writeBMEM_fsel (s : State) (i : Nat) (vs : List Word) : (s.writeBMEM i vs).fsel = s.fsel := rfl
@[simp] theorem State.writeBMEM_imgW (s : State) (i : Nat) (vs : List Word) : (s.writeBMEM i vs).imgW = s.imgW := rfl
@[simp] theorem State.writeBMEM_imgH (s : State) (i : Nat) (vs : List Word) : (s.writeBMEM i vs).imgH = s.imgH := rfl
@[simp] theorem State.writeBMEM_outW (s : State) (i : Nat) (vs : List Word) : (s.writeBMEM i vs).outW = s.outW := rfl
@[simp] theorem State.writeBMEM_outH (s : State) (i : Nat) (vs : List Word) : (s.writeBMEM i vs).outH = s.outH := rfl
@[simp] theorem State.writeBMEM_outRs (s : State) (i : Nat) (vs : List Word) : (s.writeBMEM i vs).outRs = s.outRs := rfl
@[simp] theorem State.writeBMEM_blackPt (s : State) (i : Nat) (vs : List Word) : (s.writeBMEM i vs).blackPt = s.blackPt := rfl
@[simp] theorem State.writeBMEM_errCmd (s : State) (i : Nat) (vs : List Word) : (s.writeBMEM i vs).errCmd = s.errCmd := rfl
@[simp] theorem State.writeBMEM_cw (s : State) (i : Nat) (vs : List Word) : (s.writeBMEM i vs).cw = s.cw := rfl
@[simp] theorem State.writeBMEM_lmem (s : State) (i : Nat) (vs : List Word) : (s.writeBMEM i vs).lmem = s.lmem := rfl
@[simp] theorem State.writeBMEM_bmem (s : State) (i : Nat) (vs : List Word) : (s.writeBMEM i vs).bmem = s.bmem.writeRange i vs := rfl
@[simp] theorem State.writeBMEM_sizes (s : State) (i : Nat) (vs : List Word) : (s.writeBMEM i vs).sizes = s.sizes := rfl
@[simp] theorem State.writeBMEM_powerCycle (s : State) (i : Nat) (vs : List Word) : (s.writeBMEM i vs).powerCycle = s.powerCycle := rfl
@[simp] theorem State.writeBMEM_host (s : State) (i : Nat) (vs : List Word) : (s.writeBMEM i vs).host = s.host := rfl
@[simp] theorem State.writeBMEM_hostData (s : State) (i : Nat) (vs : List Word) : (s.writeBMEM i vs).hostData = s.hostData := rfl

/-! ### `State.writeBlackPt` -/

@[simp] theorem State.writeBlackPt_p (s : State) (bp : Nat) : (s.writeBlackPt bp).p = s.p := rfl
@[simp] theorem State.writeBlackPt_status (s : State) (bp : Nat) : (s.writeBlackPt bp).status = s.status := rfl
@[simp] theorem State.writeBlackPt_res (s : State) (bp : Nat) : (s.writeBlackPt bp).res = s.res := rfl
@[simp] theorem State.writeBlackPt_fsel (s : State) (bp : Nat) : (s.writeBlackPt bp).fsel = s.fsel := rfl
@[simp] theorem State.writeBlackPt_imgW (s : State) (bp : Nat) : (s.writeBlackPt bp).imgW = s.imgW := rfl
@[simp] theorem State.writeBlackPt_imgH (s : State) (bp : Nat) : (s.writeBlackPt bp).imgH = s.imgH := rfl
@[simp] theorem State.writeBlackPt_outW (s : State) (bp : Nat) : (s.writeBlackPt bp).outW = s.outW := rfl
@[simp] theorem State.writeBlackPt_outH (s : State) (bp : Nat) : (s.writeBlackPt bp).outH = s.outH := rfl
@[simp] theorem State.writeBlackPt_outRs (s : State) (bp : Nat) : (s.writeBlackPt bp).outRs = s.outRs := rfl
@[simp] theorem State.writeBlackPt_blackPt (s : State) (bp : Nat) : (s.writeBlackPt bp).blackPt = BitVec.ofNat 8 bp := rfl
@[simp] theorem State.writeBlackPt_errCmd (s : State) (bp : Nat) : (s.writeBlackPt bp).errCmd = s.errCmd := rfl
@[simp] theorem State.writeBlackPt_cw (s : State) (bp : Nat) : (s.writeBlackPt bp).cw = s.cw := rfl
@[simp] theorem State.writeBlackPt_lmem (s : State) (bp : Nat) : (s.writeBlackPt bp).lmem = s.lmem := rfl
@[simp] theorem State.writeBlackPt_bmem (s : State) (bp : Nat) : (s.writeBlackPt bp).bmem = s.bmem := rfl
@[simp] theorem State.writeBlackPt_sizes (s : State) (bp : Nat) : (s.writeBlackPt bp).sizes = s.sizes := rfl
@[simp] theorem State.writeBlackPt_powerCycle (s : State) (bp : Nat) : (s.writeBlackPt bp).powerCycle = s.powerCycle := rfl
@[simp] theorem State.writeBlackPt_host (s : State) (bp : Nat) : (s.writeBlackPt bp).host = s.host := rfl
@[simp] theorem State.writeBlackPt_hostData (s : State) (bp : Nat) : (s.writeBlackPt bp).hostData = s.hostData := rfl

/-! ### `State.writeOutput` -/

@[simp] theorem State.writeOutput_p (s : State) (w h : Nat) (ws : List Word) : (s.writeOutput w h ws).p = s.p := rfl
@[simp] theorem State.writeOutput_status (s : State) (w h : Nat) (ws : List Word) : (s.writeOutput w h ws).status = s.status := rfl
@[simp] theorem State.writeOutput_res (s : State) (w h : Nat) (ws : List Word) : (s.writeOutput w h ws).res = s.res := rfl
@[simp] theorem State.writeOutput_fsel (s : State) (w h : Nat) (ws : List Word) : (s.writeOutput w h ws).fsel = s.fsel := rfl
@[simp] theorem State.writeOutput_imgW (s : State) (w h : Nat) (ws : List Word) : (s.writeOutput w h ws).imgW = s.imgW := rfl
@[simp] theorem State.writeOutput_imgH (s : State) (w h : Nat) (ws : List Word) : (s.writeOutput w h ws).imgH = s.imgH := rfl
@[simp] theorem State.writeOutput_outW (s : State) (w h : Nat) (ws : List Word) : (s.writeOutput w h ws).outW = BitVec.ofNat 16 w := rfl
@[simp] theorem State.writeOutput_outH (s : State) (w h : Nat) (ws : List Word) : (s.writeOutput w h ws).outH = BitVec.ofNat 16 h := rfl
@[simp] theorem State.writeOutput_outRs (s : State) (w h : Nat) (ws : List Word) : (s.writeOutput w h ws).outRs = BitVec.ofNat 12 (rowWords w) := rfl
@[simp] theorem State.writeOutput_blackPt (s : State) (w h : Nat) (ws : List Word) : (s.writeOutput w h ws).blackPt = s.blackPt := rfl
@[simp] theorem State.writeOutput_errCmd (s : State) (w h : Nat) (ws : List Word) : (s.writeOutput w h ws).errCmd = s.errCmd := rfl
@[simp] theorem State.writeOutput_cw (s : State) (w h : Nat) (ws : List Word) : (s.writeOutput w h ws).cw = s.cw := rfl
@[simp] theorem State.writeOutput_lmem (s : State) (w h : Nat) (ws : List Word) : (s.writeOutput w h ws).lmem = s.lmem := rfl
@[simp] theorem State.writeOutput_bmem (s : State) (w h : Nat) (ws : List Word) : (s.writeOutput w h ws).bmem = s.bmem.writeRange 0 ws := rfl
@[simp] theorem State.writeOutput_sizes (s : State) (w h : Nat) (ws : List Word) : (s.writeOutput w h ws).sizes = s.sizes := rfl
@[simp] theorem State.writeOutput_powerCycle (s : State) (w h : Nat) (ws : List Word) : (s.writeOutput w h ws).powerCycle = s.powerCycle := rfl
@[simp] theorem State.writeOutput_host (s : State) (w h : Nat) (ws : List Word) : (s.writeOutput w h ws).host = s.host := rfl
@[simp] theorem State.writeOutput_hostData (s : State) (w h : Nat) (ws : List Word) : (s.writeOutput w h ws).hostData = s.hostData := rfl

/-! ### `State.returns` -/

@[simp] theorem State.returns_p (s : State) (v : Word) : (s.returns v).p = s.p := rfl
@[simp] theorem State.returns_status (s : State) (v : Word) : (s.returns v).status = s.status := rfl
@[simp] theorem State.returns_res (s : State) (v : Word) : (s.returns v).res = s.res := rfl
@[simp] theorem State.returns_fsel (s : State) (v : Word) : (s.returns v).fsel = s.fsel := rfl
@[simp] theorem State.returns_imgW (s : State) (v : Word) : (s.returns v).imgW = s.imgW := rfl
@[simp] theorem State.returns_imgH (s : State) (v : Word) : (s.returns v).imgH = s.imgH := rfl
@[simp] theorem State.returns_outW (s : State) (v : Word) : (s.returns v).outW = s.outW := rfl
@[simp] theorem State.returns_outH (s : State) (v : Word) : (s.returns v).outH = s.outH := rfl
@[simp] theorem State.returns_outRs (s : State) (v : Word) : (s.returns v).outRs = s.outRs := rfl
@[simp] theorem State.returns_blackPt (s : State) (v : Word) : (s.returns v).blackPt = s.blackPt := rfl
@[simp] theorem State.returns_errCmd (s : State) (v : Word) : (s.returns v).errCmd = s.errCmd := rfl
@[simp] theorem State.returns_cw (s : State) (v : Word) : (s.returns v).cw = s.cw := rfl
@[simp] theorem State.returns_lmem (s : State) (v : Word) : (s.returns v).lmem = s.lmem := rfl
@[simp] theorem State.returns_bmem (s : State) (v : Word) : (s.returns v).bmem = s.bmem := rfl
@[simp] theorem State.returns_sizes (s : State) (v : Word) : (s.returns v).sizes = s.sizes := rfl
@[simp] theorem State.returns_powerCycle (s : State) (v : Word) : (s.returns v).powerCycle = s.powerCycle := rfl
@[simp] theorem State.returns_host (s : State) (v : Word) : (s.returns v).host = s.host := rfl
@[simp] theorem State.returns_hostData (s : State) (v : Word) : (s.returns v).hostData = v := rfl

/-! ### `State.resetRegisters` -/

@[simp] theorem State.resetRegisters_p (s : State) : (s.resetRegisters).p = Vector.replicate 8 [0] := rfl
@[simp] theorem State.resetRegisters_status (s : State) : (s.resetRegisters).status = 0 := rfl
@[simp] theorem State.resetRegisters_res (s : State) : (s.resetRegisters).res = 0 := rfl
@[simp] theorem State.resetRegisters_fsel (s : State) : (s.resetRegisters).fsel = 0 := rfl
@[simp] theorem State.resetRegisters_imgW (s : State) : (s.resetRegisters).imgW = 0 := rfl
@[simp] theorem State.resetRegisters_imgH (s : State) : (s.resetRegisters).imgH = 0 := rfl
@[simp] theorem State.resetRegisters_outW (s : State) : (s.resetRegisters).outW = 0 := rfl
@[simp] theorem State.resetRegisters_outH (s : State) : (s.resetRegisters).outH = 0 := rfl
@[simp] theorem State.resetRegisters_outRs (s : State) : (s.resetRegisters).outRs = 0 := rfl
@[simp] theorem State.resetRegisters_blackPt (s : State) : (s.resetRegisters).blackPt = 0 := rfl
@[simp] theorem State.resetRegisters_errCmd (s : State) : (s.resetRegisters).errCmd = 0 := rfl
@[simp] theorem State.resetRegisters_cw (s : State) : (s.resetRegisters).cw = s.cw := rfl
@[simp] theorem State.resetRegisters_lmem (s : State) : (s.resetRegisters).lmem = s.lmem := rfl
@[simp] theorem State.resetRegisters_bmem (s : State) : (s.resetRegisters).bmem = s.bmem := rfl
@[simp] theorem State.resetRegisters_sizes (s : State) : (s.resetRegisters).sizes = s.sizes := rfl
@[simp] theorem State.resetRegisters_powerCycle (s : State) : (s.resetRegisters).powerCycle = s.powerCycle := rfl
@[simp] theorem State.resetRegisters_host (s : State) : (s.resetRegisters).host = s.host := rfl
@[simp] theorem State.resetRegisters_hostData (s : State) : (s.resetRegisters).hostData = s.hostData := rfl

/-! ### `State.hardwareReset` -/

@[simp] theorem State.hardwareReset_p (s : State) : (s.hardwareReset).p = Vector.replicate 8 [0] := rfl
@[simp] theorem State.hardwareReset_status (s : State) : (s.hardwareReset).status = 0 := rfl
@[simp] theorem State.hardwareReset_res (s : State) : (s.hardwareReset).res = 0 := rfl
@[simp] theorem State.hardwareReset_fsel (s : State) : (s.hardwareReset).fsel = 0 := rfl
@[simp] theorem State.hardwareReset_imgW (s : State) : (s.hardwareReset).imgW = 0 := rfl
@[simp] theorem State.hardwareReset_imgH (s : State) : (s.hardwareReset).imgH = 0 := rfl
@[simp] theorem State.hardwareReset_outW (s : State) : (s.hardwareReset).outW = 0 := rfl
@[simp] theorem State.hardwareReset_outH (s : State) : (s.hardwareReset).outH = 0 := rfl
@[simp] theorem State.hardwareReset_outRs (s : State) : (s.hardwareReset).outRs = 0 := rfl
@[simp] theorem State.hardwareReset_blackPt (s : State) : (s.hardwareReset).blackPt = 0 := rfl
@[simp] theorem State.hardwareReset_errCmd (s : State) : (s.hardwareReset).errCmd = 0 := rfl
@[simp] theorem State.hardwareReset_cw (s : State) : (s.hardwareReset).cw = [] := rfl
@[simp] theorem State.hardwareReset_lmem (s : State) : (s.hardwareReset).lmem = [] := rfl
@[simp] theorem State.hardwareReset_bmem (s : State) : (s.hardwareReset).bmem = [] := rfl
@[simp] theorem State.hardwareReset_sizes (s : State) : (s.hardwareReset).sizes = s.sizes := rfl
@[simp] theorem State.hardwareReset_powerCycle (s : State) : (s.hardwareReset).powerCycle = s.powerCycle + 1 := rfl
@[simp] theorem State.hardwareReset_host (s : State) : (s.hardwareReset).host = s.host := rfl
@[simp] theorem State.hardwareReset_hostData (s : State) : (s.hardwareReset).hostData = s.hostData := rfl

/-! ### `State.withFetchWord` -/

@[simp] theorem State.withFetchWord_p (s : State) (n w : Nat) : (s.withFetchWord n w).p = s.p := rfl
@[simp] theorem State.withFetchWord_status (s : State) (n w : Nat) : (s.withFetchWord n w).status = s.status := rfl
@[simp] theorem State.withFetchWord_res (s : State) (n w : Nat) : (s.withFetchWord n w).res = s.res := rfl
@[simp] theorem State.withFetchWord_fsel (s : State) (n w : Nat) : (s.withFetchWord n w).fsel = s.fsel := rfl
@[simp] theorem State.withFetchWord_imgW (s : State) (n w : Nat) : (s.withFetchWord n w).imgW = s.imgW := rfl
@[simp] theorem State.withFetchWord_imgH (s : State) (n w : Nat) : (s.withFetchWord n w).imgH = s.imgH := rfl
@[simp] theorem State.withFetchWord_outW (s : State) (n w : Nat) : (s.withFetchWord n w).outW = s.outW := rfl
@[simp] theorem State.withFetchWord_outH (s : State) (n w : Nat) : (s.withFetchWord n w).outH = s.outH := rfl
@[simp] theorem State.withFetchWord_outRs (s : State) (n w : Nat) : (s.withFetchWord n w).outRs = s.outRs := rfl
@[simp] theorem State.withFetchWord_blackPt (s : State) (n w : Nat) : (s.withFetchWord n w).blackPt = s.blackPt := rfl
@[simp] theorem State.withFetchWord_errCmd (s : State) (n w : Nat) : (s.withFetchWord n w).errCmd = s.errCmd := rfl
@[simp] theorem State.withFetchWord_cw (s : State) (n w : Nat) : (s.withFetchWord n w).cw = s.cw := rfl
@[simp] theorem State.withFetchWord_lmem (s : State) (n w : Nat) : (s.withFetchWord n w).lmem = s.lmem := rfl
@[simp] theorem State.withFetchWord_bmem (s : State) (n w : Nat) : (s.withFetchWord n w).bmem = s.bmem := rfl
@[simp] theorem State.withFetchWord_sizes (s : State) (n w : Nat) : (s.withFetchWord n w).sizes = s.sizes := rfl
@[simp] theorem State.withFetchWord_powerCycle (s : State) (n w : Nat) : (s.withFetchWord n w).powerCycle = s.powerCycle := rfl
@[simp] theorem State.withFetchWord_host (s : State) (n w : Nat) : (s.withFetchWord n w).host = .writeCSR 0 (BitVec.ofNat 32 (w % 2 ^ n)) :: s.host := rfl
@[simp] theorem State.withFetchWord_hostData (s : State) (n w : Nat) : (s.withFetchWord n w).hostData = s.hostData := rfl

end Sys2Proof.Machine
end

