-- ==== Sys2Proof/Laws/Memory.lean ====
section
/-! SUPPORT. The laws of memories: a read after a write, what a write leaves alone, the canonical form is kept, and in
canonical form equal contents are equal lists. -/

namespace Sys2Proof.Machine

theorem Memory.lookup_write {w : Nat} (m : Memory w) (a : Nat) (v : BitVec w) (j : Nat) :
    (m.write a v).lookup j = if j = a then some v else m.lookup j := by
  induction m with
  | nil => simp [Memory.write, Memory.lookup]
  | cons c m ih =>
    obtain ⟨b, x⟩ := c
    unfold Memory.write
    split
    · next h => subst h; simp only [Memory.lookup]; split <;> rfl
    · split
      · simp only [Memory.lookup]
        split
        · rfl
        · split
          · rw [if_neg (by omega), if_pos (by omega)]
          · rfl
      · simp only [Memory.lookup, ih]
        split
        · rw [if_neg (by omega)]
        · split
          · rw [if_neg (by omega)]
          · rfl

theorem Memory.lookup_writeRange {w : Nat} (m : Memory w) (a : Nat) (vs : List (BitVec w)) (j : Nat) :
    (m.writeRange a vs).lookup j = if a ≤ j ∧ j < a + vs.length then vs[j - a]? else m.lookup j := by
  induction vs generalizing m a with
  | nil => simp [Memory.writeRange]
  | cons v vs ih =>
    simp only [Memory.writeRange, ih, Memory.lookup_write, List.length_cons]
    by_cases h : j = a
    · subst h; simp
    · by_cases h2 : a + 1 ≤ j ∧ j < a + 1 + vs.length
      · rw [if_pos h2, if_pos (by omega), show j - a = j - (a + 1) + 1 by omega]; simp
      · rw [if_neg h2, if_neg h, if_neg (by omega)]

theorem Memory.wf_iff {w size : Nat} (m : Memory w) :
    m.wf size = true ↔ m.Pairwise (fun c d => c.1 < d.1) ∧ ∀ c ∈ m, c.1 < size := by
  simp [Memory.wf, Bool.and_eq_true, List.all_eq_true]

theorem Memory.wf_nil {w size : Nat} : Memory.wf size ([] : Memory w) = true := by
  simp [Memory.wf]

theorem Memory.mem_write {w : Nat} {m : Memory w} {a : Nat} {v : BitVec w} {c : Nat × BitVec w}
    (h : c ∈ m.write a v) : c = (a, v) ∨ c ∈ m := by
  induction m with
  | nil => simpa [Memory.write] using h
  | cons d m ih =>
    obtain ⟨b, x⟩ := d
    unfold Memory.write at h
    split at h
    · rcases List.mem_cons.1 h with h | h
      · exact .inl h
      · exact .inr (List.mem_cons_of_mem _ h)
    · split at h
      · rcases List.mem_cons.1 h with h | h
        · exact .inl h
        · exact .inr h
      · rcases List.mem_cons.1 h with h | h
        · exact .inr (by simp [h])
        · rcases ih h with h | h
          · exact .inl h
          · exact .inr (List.mem_cons_of_mem _ h)

theorem Memory.wf_write {w size : Nat} {m : Memory w} {a : Nat} {v : BitVec w}
    (hm : m.wf size = true) (ha : a < size) : (m.write a v).wf size = true := by
  rw [Memory.wf_iff] at hm ⊢
  obtain ⟨hp, hb⟩ := hm
  refine ⟨?_, fun c hc => ?_⟩
  · clear hb
    induction m with
    | nil => simp [Memory.write]
    | cons d m ih =>
      obtain ⟨b, x⟩ := d
      rw [List.pairwise_cons] at hp
      unfold Memory.write
      split
      · next h => exact List.pairwise_cons.2 ⟨fun c hc => by simpa [h] using hp.1 c hc, hp.2⟩
      · split
        · next h =>
          refine List.pairwise_cons.2 ⟨fun c hc => ?_, List.pairwise_cons.2 hp⟩
          rcases List.mem_cons.1 hc with rfl | hc
          · exact h
          · exact Nat.lt_trans h (hp.1 c hc)
        · refine List.pairwise_cons.2 ⟨fun c hc => ?_, ih hp.2⟩
          rcases Memory.mem_write hc with rfl | hc
          · simp only; omega
          · exact hp.1 c hc
  · rcases Memory.mem_write hc with rfl | hc
    · exact ha
    · exact hb c hc

theorem Memory.wf_writeRange {w size : Nat} {m : Memory w} {a : Nat} {vs : List (BitVec w)}
    (hm : m.wf size = true) (ha : a + vs.length ≤ size) : (m.writeRange a vs).wf size = true := by
  induction vs generalizing m a with
  | nil => exact hm
  | cons v vs ih =>
    simp only [List.length_cons] at ha
    exact ih (Memory.wf_write hm (by omega)) (by omega)

/-- In canonical form an index below the first one listed is not listed. -/
theorem Memory.lookup_eq_none {w : Nat} {m : Memory w} {a : Nat} (h : ∀ c ∈ m, a < c.1) : m.lookup a = none := by
  cases m with
  | nil => rfl
  | cons d m =>
    have := h d (by simp)
    simp only [Memory.lookup]
    rw [if_neg (by omega), if_pos this]

/-- Equal contents are equal lists: the canonical form is unique. -/
theorem Memory.ext_of_wf {w size : Nat} {m n : Memory w} (hm : m.wf size = true) (hn : n.wf size = true)
    (h : ∀ a, m.lookup a = n.lookup a) : m = n := by
  rw [Memory.wf_iff] at hm hn
  replace hm := hm.1
  replace hn := hn.1
  induction m generalizing n with
  | nil =>
    cases n with
    | nil => rfl
    | cons d n => have := h d.1; simp [Memory.lookup] at this
  | cons c m ih =>
    cases n with
    | nil => have := h c.1; simp [Memory.lookup] at this
    | cons d n =>
      obtain ⟨b, x⟩ := c
      obtain ⟨e, y⟩ := d
      rw [List.pairwise_cons] at hm hn
      have hbe : b = e := by
        have h1 := h b
        have h2 := h e
        simp only [Memory.lookup, if_true] at h1 h2
        by_contra hne
        rcases Nat.lt_or_gt_of_ne hne with hlt | hgt
        · rw [if_neg hne, if_pos hlt] at h1; cases h1
        · rw [if_neg (Ne.symm hne), if_pos hgt] at h2; cases h2
      subst hbe
      have hxy : x = y := by simpa [Memory.lookup] using h b
      subst hxy
      refine congrArg _ (ih (fun a => ?_) hm.2 hn.2)
      by_cases hab : b < a
      · have := h a
        simp only [Memory.lookup] at this
        rwa [if_neg (by omega), if_neg (by omega), if_neg (by omega), if_neg (by omega)] at this
      · rw [Memory.lookup_eq_none fun c hc => by have := hm.1 c hc; simp only at this; omega,
          Memory.lookup_eq_none fun c hc => by have := hn.1 c hc; simp only at this; omega]

end Sys2Proof.Machine
end

