-- ==== Sys2Proof/Laws/Ops.lean ====
section
/-! SUPPORT. One lemma for each shared operation: the fields of `STATUS`, the reads after each write, how a command ends,
what a host act does, what a step does. -/

namespace Sys2Proof.Machine

/-! ### STATUS -/

theorem getLsbD_lowMask (n : Nat) : (0xFFFFFFF0 : Word).getLsbD n = decide (4 ≤ n ∧ n < 32) := by
  by_cases h : n < 32
  · have : ∀ k < 32, (0xFFFFFFF0 : Word).getLsbD k = decide (4 ≤ k ∧ k < 32) := by decide
    exact this n h
  · rw [BitVec.getLsbD_of_ge _ _ (by omega)]; simp; omega

theorem getLsbD_withLast (c : BitVec 4) (st : Word) (n : Nat) :
    (withLast c st).getLsbD n = if n < 4 then c.getLsbD n else st.getLsbD n := by
  simp only [withLast, BitVec.getLsbD_or, BitVec.getLsbD_and, getLsbD_lowMask, BitVec.getLsbD_setWidth]
  by_cases h : n < 4
  · simp [h, show ¬ 4 ≤ n by omega, show n < 32 by omega]
  · rw [if_neg h, BitVec.getLsbD_of_ge c n (by omega)]
    by_cases h2 : n < 32
    · simp [h2, show 4 ≤ n by omega]
    · simp [h2, BitVec.getLsbD_of_ge st n (by omega)]

theorem getLsbD_withBit (k : Nat) (st : Word) (n : Nat) :
    (withBit k st).getLsbD n = (st.getLsbD n || decide (n = k ∧ n < 32)) := by
  simp only [withBit, BitVec.getLsbD_or, BitVec.getLsbD_shiftLeft, BitVec.getLsbD_one]
  congr 1
  by_cases h : n = k
  · subst h; by_cases h2 : n < 32 <;> simp [h2]
  · simp only [h, false_and, decide_false]
    by_cases h2 : n < k
    · simp [h2]
    · simp [show n - k ≠ 0 by omega]

theorem lastOf_eq {st : Word} {c : BitVec 4} (h : ∀ n < 4, st.getLsbD n = c.getLsbD n) : lastOf st = c := by
  apply BitVec.eq_of_getLsbD_eq
  intro n hn
  simp only [lastOf, BitVec.getLsbD_extractLsb', Nat.zero_add]
  simp [hn, h n hn]

@[simp] theorem lastOf_statusAfterSuccess (st : Word) : lastOf (statusAfterSuccess st) = 0 :=
  lastOf_eq fun n hn => by simp [statusAfterSuccess, getLsbD_withLast, hn]

theorem getLsbD_statusAfterSuccess (st : Word) {n : Nat} (h : 4 ≤ n) :
    (statusAfterSuccess st).getLsbD n = st.getLsbD n := by
  simp [statusAfterSuccess, getLsbD_withLast, show ¬ n < 4 by omega]

theorem ErrorCode.code_le (c : ErrorCode) : 1 ≤ c.code.toNat ∧ c.code.toNat ≤ 4 := by cases c <;> decide

@[simp] theorem lastOf_statusAfterError (c : ErrorCode) (st : Word) : lastOf (statusAfterError c st) = c.code :=
  lastOf_eq fun n hn => by
    simp [statusAfterError, ErrorCode.stickyBit, getLsbD_withBit, getLsbD_withLast, hn, show n ≠ 7 + c.code.toNat by omega]

theorem getLsbD_statusAfterError (c : ErrorCode) (st : Word) {n : Nat} (h : 4 ≤ n) :
    (statusAfterError c st).getLsbD n = (st.getLsbD n || decide (n = 7 + c.code.toNat)) := by
  have := c.code_le
  simp only [statusAfterError, ErrorCode.stickyBit, getLsbD_withBit, getLsbD_withLast, show ¬ n < 4 by omega, if_false]
  congr 1
  by_cases h2 : n = 7 + c.code.toNat
  · simp [h2]; omega
  · simp [h2]

/-! ### Reads after writes -/

@[simp] theorem readP_writeP_self (s : State) (r : Reg) (v : Poly) : (s.writeP r v).readP r = norm v := by
  simp [State.readP, State.writeP]

theorem readP_writeP_ne (s : State) {r q : Reg} (v : Poly) (h : q ≠ r) : (s.writeP r v).readP q = s.readP q := by
  have : r.val ≠ q.val := fun e => h (Fin.ext e.symm)
  simp [State.readP, State.writeP, this]

theorem readCW_writeCW (s : State) (i : Nat) (vs : List Byte) (j : Nat) :
    (s.writeCW i vs).readCW j = if i ≤ j ∧ j < i + vs.length then vs.getD (j - i) 0 else s.readCW j := by
  simp only [State.readCW, State.writeCW_cw, State.writeCW_powerCycle, Memory.lookup_writeRange]
  split
  · next h => simp [List.getElem?_eq_getElem (show j - i < vs.length by omega)]
  · rfl

theorem readLMEM_writeLMEM (s : State) (i : Nat) (v : Byte) (j : Nat) :
    (s.writeLMEM i v).readLMEM j = if j = i then v else s.readLMEM j := by
  simp only [State.readLMEM, State.writeLMEM_lmem, State.writeLMEM_powerCycle, Memory.lookup_write]
  split <;> rfl

theorem readBMEM_writeBMEM (s : State) (i : Nat) (vs : List Word) (j : Nat) :
    (s.writeBMEM i vs).readBMEM j = if i ≤ j ∧ j < i + vs.length then vs.getD (j - i) 0 else s.readBMEM j := by
  simp only [State.readBMEM, State.writeBMEM_bmem, State.writeBMEM_powerCycle, Memory.lookup_writeRange]
  split
  · next h => simp [List.getElem?_eq_getElem (show j - i < vs.length by omega)]
  · rfl

@[simp] theorem length_cwRange (s : State) (off len : Nat) : (s.cwRange off len).length = len := by
  simp [State.cwRange]

theorem getD_cwRange (s : State) (off : Nat) {len k : Nat} (h : k < len) :
    (s.cwRange off len).getD k 0 = s.readCW (off + k) := by
  simp [State.cwRange, List.getD_eq_getElem?_getD, h]

/-! ### How a command ends -/

/-- Everything `finish` can do (R284). -/
theorem finish_cases (i : Instr) (s : State) (r : Except ErrorCode State) :
    (∃ u, r = .ok u ∧ finish i s r = .next u.succeed) ∨
      ∃ c, r = .error c ∧ finish i s r = .next (s.raise c (encode i)) := by
  cases r with
  | ok u => exact .inl ⟨u, rfl, rfl⟩
  | error c => exact .inr ⟨c, rfl, rfl⟩

@[simp] theorem finish_ok (i : Instr) (s u : State) : finish i s (.ok u) = .next u.succeed := rfl

@[simp] theorem finish_error (i : Instr) (s : State) (c : ErrorCode) :
    finish i s (.error c) = .next (s.raise c (encode i)) := rfl

/-- A command whose pseudocode leaves `u`, with the status untouched, succeeds with `u`. -/
theorem succeedsWith_of_finish {i : Instr} {s u : State} (h : exec i s = finish i s (.ok u)) (hu : u.status = s.status) :
    SucceedsWith i s u :=
  ⟨u.succeed, h, by rfl, by simp [hu], fun n hn => by simp [hu, getLsbD_statusAfterSuccess _ hn]⟩

theorem recordsError_raise (c : ErrorCode) (cmd : Word) (s : State) : RecordsError c cmd s (s.raise c cmd) :=
  ⟨rfl, by simp, fun n hn => by simp [getLsbD_statusAfterError _ _ hn]⟩

theorem failsWith_of_finish {i : Instr} {s : State} {c : ErrorCode} (h : exec i s = finish i s (.error c)) :
    FailsWith i s c := ⟨_, h, recordsError_raise c _ s⟩

/-! ### Steps -/

/-- Everything a step can do: idle, a command, an illegal word, another host act. -/
theorem step_cases (s : State) :
    (s.host = [] ∧ step s = .next s) ∨
    (∃ w i rest, s.host = .writeCSR 0 w :: rest ∧ decode w = .ok i ∧ step s = exec i { s with host := rest }) ∨
    (∃ w e rest, s.host = .writeCSR 0 w :: rest ∧ decode w = .error e ∧
      step s = .next (State.raise .illegalCommand w { s with host := rest })) ∨
    (∃ a rest, s.host = a :: rest ∧ (∀ w, a ≠ .writeCSR 0 w) ∧ step s = .next (State.serve { s with host := rest } a)) := by
  unfold step
  split
  · next h => exact .inl ⟨h, rfl⟩
  · next w rest h =>
    unfold runCommand
    split
    · next i hd => exact .inr (.inl ⟨w, i, rest, h, hd, rfl⟩)
    · next e hd => exact .inr (.inr (.inl ⟨w, e, rest, h, hd, rfl⟩))
  · next a rest hne h => exact .inr (.inr (.inr ⟨a, rest, h, fun w hw => hne w hw, rfl⟩))

end Sys2Proof.Machine
end

