-- ==== Sys2Proof/Laws/Binarizer.lean ====
section
/-! SUPPORT. Bit packing (rules R67, R68): which bit of which word holds a pixel, and what the output of a binarizer command
leaves in `BMEM`. Then the searches of the black-point estimate, the admission check, and the grid of block black points. -/

namespace Sys2Proof.Machine

theorem testBit_packBits (f : Nat → Bool) (n b : Nat) : (packBits f n).testBit b = (decide (b < n) && f b) := by
  induction n generalizing f b with
  | zero => simp [packBits]
  | succ n ih =>
    unfold packBits
    cases b with
    | zero => cases f 0 <;> simp [Nat.testBit_zero]
    | succ b =>
      rw [Nat.testBit_succ, show ((if f 0 then 1 else 0) + 2 * packBits (fun b => f (b + 1)) n) / 2 =
        packBits (fun b => f (b + 1)) n by split <;> omega, ih]
      simp

@[simp] theorem length_packRow (w : Nat) (black : Nat → Bool) : (packRow w black).length = rowWords w := by
  simp [packRow]

/-- Bit `b` of word `j` of a packed row is pixel `32·j + b`, and 0 from pixel `w` on (R67). -/
theorem getLsbD_packRow (w : Nat) (black : Nat → Bool) {j b : Nat} (hj : j < rowWords w) (hb : b < 32) :
    ((packRow w black).getD j 0).getLsbD b = (decide (32 * j + b < w) && black (32 * j + b)) := by
  simp only [packRow, List.getD_eq_getElem?_getD, List.getElem?_map, List.getElem?_range hj, Option.map_some, Option.getD_some,
    BitVec.getLsbD_ofNat, testBit_packBits, hb, decide_true, Bool.true_and]

@[simp] theorem length_packMatrix (w h : Nat) (black : Nat → Nat → Bool) :
    (packMatrix w h black).length = rowWords w * h := by
  simp [packMatrix, List.length_flatMap, Nat.mul_comm]

theorem packMatrix_succ (w h : Nat) (black : Nat → Nat → Bool) :
    packMatrix w (h + 1) black = packMatrix w h black ++ packRow w fun x => black x h := by
  simp [packMatrix, List.range_succ, List.flatMap_append]

/-- Row `y` of a packed matrix starts at word `y·⌈w/32⌉` (R68). -/
theorem getD_packMatrix (w h : Nat) (black : Nat → Nat → Bool) {y j : Nat} (hy : y < h) (hj : j < rowWords w) :
    (packMatrix w h black).getD (y * rowWords w + j) 0 = (packRow w fun x => black x y).getD j 0 := by
  induction h with
  | zero => omega
  | succ h ih =>
    rw [packMatrix_succ, List.getD_eq_getElem?_getD]
    have hl : (packMatrix w h black).length = h * rowWords w := by rw [length_packMatrix, Nat.mul_comm]
    by_cases hyh : y < h
    · have : y * rowWords w + j < h * rowWords w := by
        calc y * rowWords w + j < y * rowWords w + rowWords w := by omega
          _ = (y + 1) * rowWords w := by ring
          _ ≤ h * rowWords w := Nat.mul_le_mul_right _ hyh
      rw [List.getElem?_append_left (by omega), ← List.getD_eq_getElem?_getD, ih hyh]
    · obtain rfl : y = h := by omega
      rw [List.getElem?_append_right (by omega), hl, Nat.add_sub_cancel_left, ← List.getD_eq_getElem?_getD]

/-- What a written matrix leaves in `BMEM`: its pixels, zero padding, and every later word as before (R67, R68, R241). -/
theorem holdsMatrix_writeRange (s : State) (w h : Nat) (black : Nat → Nat → Bool) :
    HoldsMatrix s { s with bmem := s.bmem.writeRange 0 (packMatrix w h black) } w h black := by
  have hr : ∀ a, State.readBMEM { s with bmem := s.bmem.writeRange 0 (packMatrix w h black) } a =
      if a < rowWords w * h then (packMatrix w h black).getD a 0 else s.readBMEM a := by
    intro a
    refine (readBMEM_writeBMEM s 0 (packMatrix w h black) a).trans ?_
    simp only [Nat.zero_le, true_and, Nat.zero_add, length_packMatrix, Nat.sub_zero]
  refine ⟨fun y hy x hx => ?_, fun a ha => ?_⟩
  · change (State.readBMEM _ (y * rowWords w + x / 32)).getLsbD (x % 32) = _
    have hj : x / 32 < rowWords w := by unfold rowWords; omega
    have hlt : y * rowWords w + x / 32 < rowWords w * h := by
      calc y * rowWords w + x / 32 < y * rowWords w + rowWords w := by omega
        _ = rowWords w * (y + 1) := by ring
        _ ≤ rowWords w * h := Nat.mul_le_mul_left _ hy
    rw [hr, if_pos hlt, getD_packMatrix w h black hy hj, getLsbD_packRow w _ hj (Nat.mod_lt _ (by omega)), Nat.div_add_mod]
  · rw [hr, if_neg (by unfold rowWords; omega)]

/-! ### Searches (R236 to R238) -/

/-- A scan that keeps the strictly greatest score seen, from `start`: it ends with `start` if no score is greater, else with
the first position of the greatest score. -/
theorem foldl_greatest {β : Type} [LinearOrder β] (idx : Nat → Nat) (score : Nat → β) (start : Nat × β) (n : Nat) :
    let r := (List.range n).foldl (fun best d => if best.2 < score d then (idx d, score d) else best) start
    (r = start ∧ ∀ d < n, score d ≤ start.2) ∨
      ∃ d < n, r = (idx d, score d) ∧ start.2 < score d ∧ ∀ e < n, score e ≤ score d ∧ (e < d → score e < score d) := by
  induction n with
  | zero => exact .inl ⟨rfl, by simp⟩
  | succ n ih =>
    simp only [List.range_succ, List.foldl_append, List.foldl_cons, List.foldl_nil]
    rcases ih with ⟨h, hall⟩ | ⟨d, hd, h, hlt, hall⟩
    · rw [h]
      by_cases hn : start.2 < score n
      · rw [if_pos hn]
        refine .inr ⟨n, by omega, rfl, hn, fun e he => ?_⟩
        rcases Nat.lt_succ_iff_lt_or_eq.1 he with he | rfl
        · exact ⟨(hall e he).trans hn.le, fun _ => (hall e he).trans_lt hn⟩
        · exact ⟨le_refl _, fun h => absurd h (lt_irrefl _)⟩
      · rw [if_neg hn]
        refine .inl ⟨rfl, fun e he => ?_⟩
        rcases Nat.lt_succ_iff_lt_or_eq.1 he with he | rfl
        · exact hall e he
        · exact not_lt.1 hn
    · rw [h]
      by_cases hn : score d < score n
      · rw [if_pos hn]
        refine .inr ⟨n, by omega, rfl, hlt.trans hn, fun e he => ?_⟩
        rcases Nat.lt_succ_iff_lt_or_eq.1 he with he | rfl
        · exact ⟨(hall e he).1.trans hn.le, fun _ => (hall e he).1.trans_lt hn⟩
        · exact ⟨le_refl _, fun h => absurd h (lt_irrefl _)⟩
      · rw [if_neg hn]
        refine .inr ⟨d, by omega, rfl, hlt, fun e he => ?_⟩
        rcases Nat.lt_succ_iff_lt_or_eq.1 he with he | rfl
        · exact hall e he
        · exact ⟨not_lt.1 hn, fun h => absurd h (by omega)⟩

/-- The one error of the estimate (R238). -/
theorem eq_notFound_of_estimate {count : List Nat} {e : ErrorCode} (h : estimateBlackPoint count = .error e) :
    e = .notFound := by
  unfold estimateBlackPoint at h
  dsimp only at h
  split at h <;> cases h
  rfl

/-! ### Admission (R231) -/

theorem inadmissible_iff (s : State) (n : Nat) : s.inadmissible n = true ↔ ¬ s.Admits n := by
  simp only [State.inadmissible, State.Admits, decide_eq_true_eq]
  constructor
  · rintro h ⟨h1, h2, h3, h4⟩
    rcases h with h | h | h | h <;> first | contradiction | omega
  · intro h
    by_contra hc
    push Not at hc
    exact h hc

theorem inadmissible_eq_false {s : State} {n : Nat} (h : s.Admits n) : s.inadmissible n = false := by
  by_contra hc
  exact (inadmissible_iff s n).1 (by simpa using hc) h

/-! ### The grid of block black points (R245, R246) -/

/-- The neighbours' black points that block `k` of a row uses, `up` being the row above and `row` this row so far. -/
def neighbours (up : Option (List Nat)) (row : List Nat) (k : Nat) : Option (Nat × Nat × Nat) :=
  match up with
  | none => none
  | some u => if k = 0 then none else some (u.getD k 0, row.getD (k - 1) 0, u.getD (k - 1) 0)

theorem blockRow_succ (s : State) (bY : Nat) (up : Option (List Nat)) (k : Nat) : s.blockRow bY up (k + 1) =
    s.blockRow bY up k ++ [blockPoint (s.blockPixels k bY) (neighbours up (s.blockRow bY up k) k)] := rfl

@[simp] theorem length_blockRow (s : State) (bY : Nat) (up : Option (List Nat)) (k : Nat) : (s.blockRow bY up k).length = k := by
  induction k with
  | zero => rfl
  | succ k ih => simp [blockRow_succ, ih]

/-- A block's black point does not change once the row goes on. -/
theorem getD_blockRow (s : State) (bY : Nat) (up : Option (List Nat)) {k j : Nat} (h : j < k) :
    (s.blockRow bY up k).getD j 0 = blockPoint (s.blockPixels j bY) (neighbours up (s.blockRow bY up j) j) := by
  induction k with
  | zero => omega
  | succ k ih =>
    rw [blockRow_succ, List.getD_eq_getElem?_getD]
    by_cases hj : j = k
    · subst hj
      rw [List.getElem?_append_right (by simp)]
      simp
    · rw [List.getElem?_append_left (by simp; omega), ← List.getD_eq_getElem?_getD, ih (by omega)]

@[simp] theorem length_blockGrid (s : State) (k : Nat) : (s.blockGrid k).length = k := by
  induction k with
  | zero => rfl
  | succ k ih => simp [State.blockGrid, ih]

/-- Row `j` of the grid is computed from the row above it. -/
theorem getD_blockGrid (s : State) {k j : Nat} (h : j < k) :
    (s.blockGrid k).getD j [] = s.blockRow j (s.blockGrid j).getLast? (blockCount s.imgW.toNat) := by
  induction k with
  | zero => omega
  | succ k ih =>
    rw [State.blockGrid, List.getD_eq_getElem?_getD]
    by_cases hj : j = k
    · subst hj
      rw [List.getElem?_append_right (by simp)]
      simp
    · rw [List.getElem?_append_left (by simp; omega), ← List.getD_eq_getElem?_getD, ih (by omega)]

theorem getLast?_blockGrid (s : State) (j : Nat) :
    (s.blockGrid j).getLast? = if j = 0 then none else some ((s.blockGrid j).getD (j - 1) []) := by
  cases j with
  | zero => rfl
  | succ j => simp [State.blockGrid]

/-- The black point of a block, from its pixels and, off the first row and column, from its three neighbours. -/
theorem blockBlackPoint_eq (s : State) {bY bx : Nat} (hY : bY < blockCount s.imgH.toNat) (hx : bx < blockCount s.imgW.toNat) :
    s.blockBlackPoint bY bx = blockPoint (s.blockPixels bx bY)
      (if 0 < bY ∧ 0 < bx then
        some (s.blockBlackPoint (bY - 1) bx, s.blockBlackPoint bY (bx - 1), s.blockBlackPoint (bY - 1) (bx - 1))
      else none) := by
  unfold State.blockBlackPoint
  rw [getD_blockGrid s hY, getD_blockRow s bY _ hx, getLast?_blockGrid]
  congr 1
  unfold neighbours
  by_cases h0 : bY = 0
  · simp [h0]
  · by_cases h1 : bx = 0
    · simp [h0, h1]
    · rw [if_neg h0, if_pos ⟨by omega, by omega⟩, getD_blockGrid s (show bY - 1 < bY by omega),
        getD_blockGrid s (show bY - 1 < blockCount s.imgH.toNat by omega), getD_blockRow s bY _ (show bx - 1 < bx by omega),
        getD_blockRow s bY _ (show bx - 1 < blockCount s.imgW.toNat by omega)]
      simp only [h1, if_false]

/-- The pixels of a block are those of its 8 columns and 8 rows (R244). -/
theorem mem_blockPixels {s : State} {bx bY v : Nat} : v ∈ s.blockPixels bx bY ↔
    ∃ x y, blockOrigin s.imgW.toNat bx ≤ x ∧ x < blockOrigin s.imgW.toNat bx + 8 ∧
      blockOrigin s.imgH.toNat bY ≤ y ∧ y < blockOrigin s.imgH.toNat bY + 8 ∧ s.pixel x y = v := by
  simp only [State.blockPixels, List.mem_flatMap, List.mem_map, List.mem_range]
  constructor
  · rintro ⟨dy, hy, dx, hx, h⟩
    exact ⟨_, _, by omega, by omega, by omega, by omega, h⟩
  · rintro ⟨x, y, hx, hx', hy, hy', h⟩
    exact ⟨y - blockOrigin s.imgH.toNat bY, by omega, x - blockOrigin s.imgW.toNat bx, by omega, by
      rwa [Nat.add_sub_cancel' hx, Nat.add_sub_cancel' hy]⟩

theorem sum_map_range (n : Nat) (g : Nat → Nat) : ((List.range n).map g).sum = ∑ k ∈ Finset.range n, g k := by
  induction n with
  | zero => rfl
  | succ n ih => rw [List.range_succ, List.map_append, List.sum_append, ih, Finset.sum_range_succ]; simp

theorem sum_flatMap_range (n k : Nat) (g : Nat → Nat → Nat) :
    ((List.range n).flatMap fun a => (List.range k).map (g a)).sum = ∑ a ∈ Finset.range n, ∑ b ∈ Finset.range k, g a b := by
  simp only [← sum_map_range, List.flatMap, List.sum_flatten, List.map_map, Function.comp_def]

/-- The sum of a block's pixels (R245). -/
theorem sum_blockPixels (s : State) (bx bY : Nat) : (s.blockPixels bx bY).sum =
    ∑ y ∈ Finset.Ico (blockOrigin s.imgH.toNat bY) (blockOrigin s.imgH.toNat bY + 8),
      ∑ x ∈ Finset.Ico (blockOrigin s.imgW.toNat bx) (blockOrigin s.imgW.toNat bx + 8), s.pixel x y := by
  rw [State.blockPixels, sum_flatMap_range]
  simp only [Finset.sum_Ico_eq_sum_range, Nat.add_sub_cancel_left]

/-- The threshold of a block is the mean of the 5×5 black points around the clamped centre (R247). -/
theorem blockThreshold_eq (s : State) (subW bx bY : Nat) :
    blockThreshold (s.blockGrid (blockCount s.imgH.toNat)) subW (blockCount s.imgH.toNat) bx bY =
      (∑ dy ∈ Finset.range 5, ∑ dx ∈ Finset.range 5,
        s.blockBlackPoint (min (max bY 2) (blockCount s.imgH.toNat - 3) + dy - 2) (min (max bx 2) (subW - 3) + dx - 2)) / 25 := by
  rw [blockThreshold, sum_flatMap_range]
  rfl

/-- The minimum of a non-empty list by the fold of R245, from any bound at or above it. -/
theorem foldl_min_eq {l : List Nat} {b lo : Nat} (h1 : lo ∈ l) (h2 : ∀ v ∈ l, lo ≤ v) (hb : lo ≤ b) : l.foldl min b = lo := by
  have hle : ∀ (l : List Nat) (b : Nat), lo ≤ b → (∀ v ∈ l, lo ≤ v) → lo ≤ l.foldl min b := by
    intro l
    induction l with
    | nil => exact fun _ h _ => h
    | cons a l ih => exact fun b hb h => ih _ (le_min hb (h a (by simp))) fun v hv => h v (by simp [hv])
  have hge : ∀ (l : List Nat) (b : Nat), lo ∈ l ∨ b ≤ lo → l.foldl min b ≤ lo := by
    intro l
    induction l with
    | nil => rintro b (h | h); exacts [by simp at h, h]
    | cons a l ih =>
      rintro b (h | h)
      · rcases List.mem_cons.1 h with rfl | h
        · exact ih _ (.inr (min_le_right _ _))
        · exact ih _ (.inl h)
      · exact ih _ (.inr ((min_le_left _ _).trans h))
  exact le_antisymm (hge l b (.inl h1)) (hle l b hb h2)

/-- The maximum, likewise. -/
theorem foldl_max_eq {l : List Nat} {b hi : Nat} (h1 : hi ∈ l) (h2 : ∀ v ∈ l, v ≤ hi) (hb : b ≤ hi) : l.foldl max b = hi := by
  have hle : ∀ (l : List Nat) (b : Nat), b ≤ hi → (∀ v ∈ l, v ≤ hi) → l.foldl max b ≤ hi := by
    intro l
    induction l with
    | nil => exact fun _ h _ => h
    | cons a l ih => exact fun b hb h => ih _ (max_le hb (h a (by simp))) fun v hv => h v (by simp [hv])
  have hge : ∀ (l : List Nat) (b : Nat), hi ∈ l ∨ hi ≤ b → hi ≤ l.foldl max b := by
    intro l
    induction l with
    | nil => rintro b (h | h); exacts [by simp at h, h]
    | cons a l ih =>
      rintro b (h | h)
      · rcases List.mem_cons.1 h with rfl | h
        · exact ih _ (.inr (le_max_right _ _))
        · exact ih _ (.inl h)
      · exact ih _ (.inr (h.trans (le_max_left _ _)))
  exact le_antisymm (hle l b hb h2) (hge l b (.inl h1))

theorem pixel_le (s : State) (x y : Nat) : s.pixel x y ≤ 255 := by
  have := (s.readLMEM (y * s.imgW.toNat + x)).isLt
  unfold State.pixel
  omega

end Sys2Proof.Machine
end

