-- ==== Sys2Proof/Laws/Decode.lean ====
section
/-! SUPPORT. The formats of rule R92 read back: each field of each format, and the must-be-zero bits. -/

namespace Sys2Proof

/-- A field read from the low part of an append is the low part's. -/
theorem extractLsb'_append_low {m n : Nat} (x : BitVec m) (y : BitVec n) {s l : Nat} (h : s + l ≤ n) :
    (x ++ y).extractLsb' s l = y.extractLsb' s l := by
  apply BitVec.eq_of_getLsbD_eq
  intro i hi
  simp [BitVec.getLsbD_append, hi, show s + i < n by omega]

/-- A field read from the high part of an append is the high part's. -/
theorem extractLsb'_append_high {m n : Nat} (x : BitVec m) (y : BitVec n) {s l : Nat} (h : n ≤ s) :
    (x ++ y).extractLsb' s l = x.extractLsb' (s - n) l := by
  apply BitVec.eq_of_getLsbD_eq
  intro i hi
  simp [BitVec.getLsbD_append, hi, show ¬ s + i < n by omega, show s + i - n = s - n + i by omega]

theorem extractLsb'_whole {n : Nat} (x : BitVec n) : x.extractLsb' 0 n = x := by
  apply BitVec.eq_of_getLsbD_eq
  intro i hi
  simp [hi]

section
variable (op a b : Byte) (rd re ra rb : Reg) (row : Half)

@[simp] theorem opcodeOf_formatZ : opcodeOf (formatZ op) = op := by
  unfold opcodeOf formatZ; rw [extractLsb'_append_high _ _ (by omega), extractLsb'_whole]

@[simp] theorem opcodeOf_formatS : opcodeOf (formatS op a b) = op := by
  unfold opcodeOf formatS
  rw [extractLsb'_append_high _ _ (by omega), extractLsb'_append_high _ _ (by omega),
    extractLsb'_append_high _ _ (by omega), extractLsb'_whole]

@[simp] theorem fieldHi_formatS : fieldHi (formatS op a b) = a := by
  unfold fieldHi formatS
  rw [extractLsb'_append_high _ _ (by omega), extractLsb'_append_low _ _ (by omega), extractLsb'_whole]

@[simp] theorem fieldLo_formatS : fieldLo (formatS op a b) = b := by
  unfold fieldLo formatS; rw [extractLsb'_append_low _ _ (by omega), extractLsb'_whole]

@[simp] theorem opcodeOf_formatR : opcodeOf (formatR op rd re ra rb) = op := by
  unfold opcodeOf formatR
  rw [extractLsb'_append_high _ _ (by omega), extractLsb'_append_high _ _ (by omega),
    extractLsb'_append_high _ _ (by omega), extractLsb'_append_high _ _ (by omega),
    extractLsb'_append_high _ _ (by omega), extractLsb'_whole]

@[simp] theorem fieldRd_formatR : fieldRd (formatR op rd re ra rb) = rd := by
  unfold fieldRd formatR
  rw [extractLsb'_append_high _ _ (by omega), extractLsb'_append_high _ _ (by omega),
    extractLsb'_append_high _ _ (by omega), extractLsb'_append_high _ _ (by omega),
    extractLsb'_append_low _ _ (by omega), extractLsb'_whole]

@[simp] theorem fieldRe_formatR : fieldRe (formatR op rd re ra rb) = re := by
  unfold fieldRe formatR
  rw [extractLsb'_append_high _ _ (by omega), extractLsb'_append_high _ _ (by omega),
    extractLsb'_append_high _ _ (by omega), extractLsb'_append_low _ _ (by omega), extractLsb'_whole]

@[simp] theorem fieldRaR_formatR : fieldRaR (formatR op rd re ra rb) = ra := by
  unfold fieldRaR formatR
  rw [extractLsb'_append_high _ _ (by omega), extractLsb'_append_high _ _ (by omega),
    extractLsb'_append_low _ _ (by omega), extractLsb'_whole]

@[simp] theorem fieldRb_formatR : fieldRb (formatR op rd re ra rb) = rb := by
  unfold fieldRb formatR
  rw [extractLsb'_append_high _ _ (by omega), extractLsb'_append_low _ _ (by omega), extractLsb'_whole]

@[simp] theorem opcodeOf_formatI : opcodeOf (formatI op rd ra a b) = op := by
  unfold opcodeOf formatI
  rw [extractLsb'_append_high _ _ (by omega), extractLsb'_append_high _ _ (by omega),
    extractLsb'_append_high _ _ (by omega), extractLsb'_append_high _ _ (by omega),
    extractLsb'_append_high _ _ (by omega), extractLsb'_whole]

@[simp] theorem fieldRd_formatI : fieldRd (formatI op rd ra a b) = rd := by
  unfold fieldRd formatI
  rw [extractLsb'_append_high _ _ (by omega), extractLsb'_append_high _ _ (by omega),
    extractLsb'_append_high _ _ (by omega), extractLsb'_append_high _ _ (by omega),
    extractLsb'_append_low _ _ (by omega), extractLsb'_whole]

@[simp] theorem fieldRaI_formatI : fieldRaI (formatI op rd ra a b) = ra := by
  unfold fieldRaI formatI
  rw [extractLsb'_append_high _ _ (by omega), extractLsb'_append_high _ _ (by omega),
    extractLsb'_append_high _ _ (by omega), extractLsb'_append_low _ _ (by omega), extractLsb'_whole]

@[simp] theorem fieldHi_formatI : fieldHi (formatI op rd ra a b) = a := by
  unfold fieldHi formatI
  rw [extractLsb'_append_high _ _ (by omega), extractLsb'_append_low _ _ (by omega), extractLsb'_whole]

@[simp] theorem fieldLo_formatI : fieldLo (formatI op rd ra a b) = b := by
  unfold fieldLo formatI; rw [extractLsb'_append_low _ _ (by omega), extractLsb'_whole]

@[simp] theorem opcodeOf_formatB : opcodeOf (formatB op row) = op := by
  unfold opcodeOf formatB
  rw [extractLsb'_append_high _ _ (by omega), extractLsb'_append_high _ _ (by omega), extractLsb'_whole]

@[simp] theorem fieldRow_formatB : fieldRow (formatB op row) = row := by
  unfold fieldRow formatB; rw [extractLsb'_append_low _ _ (by omega), extractLsb'_whole]

end

/-! ### The words bit by bit -/

section
variable (op a b : Byte) (rd re ra rb : Reg) (row : Half) (k : Nat)

theorem getLsbD_append_if {m n : Nat} (x : BitVec m) (y : BitVec n) (k : Nat) :
    (x ++ y).getLsbD k = if k < n then y.getLsbD k else x.getLsbD (k - n) := by
  rw [BitVec.getLsbD_append]

theorem getLsbD_formatZ : (formatZ op).getLsbD k = if k < 24 then false else op.getLsbD (k - 24) := by
  unfold formatZ; rw [getLsbD_append_if]; simp

theorem getLsbD_formatS : (formatS op a b).getLsbD k =
    if k < 8 then b.getLsbD k else if k - 8 < 8 then a.getLsbD (k - 8)
    else if k - 8 - 8 < 8 then false else op.getLsbD (k - 8 - 8 - 8) := by
  unfold formatS; rw [getLsbD_append_if, getLsbD_append_if, getLsbD_append_if]; simp

theorem getLsbD_formatR : (formatR op rd re ra rb).getLsbD k =
    if k < 12 then false else if k - 12 < 3 then (BitVec.ofFin (w := 3) rb).getLsbD (k - 12)
    else if k - 12 - 3 < 3 then (BitVec.ofFin (w := 3) ra).getLsbD (k - 12 - 3)
    else if k - 12 - 3 - 3 < 3 then (BitVec.ofFin (w := 3) re).getLsbD (k - 12 - 3 - 3)
    else if k - 12 - 3 - 3 - 3 < 3 then (BitVec.ofFin (w := 3) rd).getLsbD (k - 12 - 3 - 3 - 3)
    else op.getLsbD (k - 12 - 3 - 3 - 3 - 3) := by
  unfold formatR
  rw [getLsbD_append_if, getLsbD_append_if, getLsbD_append_if, getLsbD_append_if, getLsbD_append_if]; simp

theorem getLsbD_formatI : (formatI op rd ra a b).getLsbD k =
    if k < 8 then b.getLsbD k else if k - 8 < 8 then a.getLsbD (k - 8)
    else if k - 8 - 8 < 2 then false
    else if k - 8 - 8 - 2 < 3 then (BitVec.ofFin (w := 3) ra).getLsbD (k - 8 - 8 - 2)
    else if k - 8 - 8 - 2 - 3 < 3 then (BitVec.ofFin (w := 3) rd).getLsbD (k - 8 - 8 - 2 - 3)
    else op.getLsbD (k - 8 - 8 - 2 - 3 - 3) := by
  unfold formatI
  rw [getLsbD_append_if, getLsbD_append_if, getLsbD_append_if, getLsbD_append_if, getLsbD_append_if]; simp

theorem getLsbD_formatB : (formatB op row).getLsbD k =
    if k < 16 then row.getLsbD k else if k - 16 < 8 then false else op.getLsbD (k - 16 - 8) := by
  unfold formatB; rw [getLsbD_append_if, getLsbD_append_if]; simp

end

/-- What the decoder gives when it gives the command `i`: the row's must-be-zero bits are 0 (R98). -/
theorem requireZero_ok {mbz w : Word} {i j : Instr} (h : requireZero mbz w i = .ok j) : w &&& mbz = 0 ∧ i = j := by
  unfold requireZero at h
  split at h
  · next h0 => exact ⟨h0, by injection h⟩
  · cases h

end Sys2Proof
end

