-- ==== Sys2Proof/Laws/Exec.lean ====
section
/-! SUPPORT. Everything a command can do, said once: it ends in an error, or it succeeds with one of a few kinds of writes
(rules R73, R280, R284). -/

namespace Sys2Proof.Machine

/-- The kinds of writes a successful command makes, before `STATUS` is updated. -/
inductive Effect (s : State) : Instr → State → Prop
  | nop : Effect s .nop s
  | sreset : Effect s .sreset s.resetRegisters
  | gfadd (a b v) : Effect s (.gfadd a b) (s.writeRES v)
  | gfmul (a b v) : Effect s (.gfmul a b) (s.writeRES v)
  | gfinv (a v) : Effect s (.gfinv a) (s.writeRES v)
  | gfexp (a v) : Effect s (.gfexp a) (s.writeRES v)
  | gflog (a v) : Effect s (.gflog a) (s.writeRES v)
  | pzero (rd p) : Effect s (.pzero rd) (s.writeP rd p)
  | pone (rd p) : Effect s (.pone rd) (s.writeP rd p)
  | pld (rd off len p) : Effect s (.pld rd off len) (s.writeP rd p)
  | pst (ra off i vs v) : Effect s (.pst ra off) ((s.writeCW i vs).writeRES v)
  | pdeg (ra v) : Effect s (.pdeg ra) (s.writeRES v)
  | pcoef (ra k v) : Effect s (.pcoef ra k) (s.writeRES v)
  | peval (ra a v) : Effect s (.peval ra a) (s.writeRES v)
  | padd (rd ra rb p) : Effect s (.padd rd ra rb) (s.writeP rd p)
  | pmul (rd ra rb p) : Effect s (.pmul rd ra rb) (s.writeP rd p)
  | pscl (rd ra c p) : Effect s (.pscl rd ra c) (s.writeP rd p)
  | pmulm (rd ra d c p) : Effect s (.pmulm rd ra d c) (s.writeP rd p)
  | pdiv (rd re ra rb q r) : Effect s (.pdiv rd re ra rb) ((s.writeP rd q).writeP re r)
  | rsenc (nd ec i vs) : Effect s (.rsenc nd ec) (s.writeCW i vs)
  | rsdecClean (n twoS) : Effect s (.rsdec n twoS) s
  | rsdec (n twoS i vs) : Effect s (.rsdec n twoS) (s.writeCW i vs)
  | rsgen (rd k p) : Effect s (.rsgen rd k) (s.writeP rd p)
  | rssyn (rd n twoS p) : Effect s (.rssyn rd n twoS) (s.writeP rd p)
  | bingm (w h ws bp) : Effect s .bingm ((s.writeOutput w h ws).writeBlackPt bp)
  | bingr (y w h ws bp) : Effect s (.bingr y) ((s.writeOutput w h ws).writeBlackPt bp)
  | binhmGlobal (w h ws bp) : Effect s .binhm ((s.writeOutput w h ws).writeBlackPt bp)
  | binhm (w h ws) : Effect s .binhm (s.writeOutput w h ws)

/-- A command whose pseudocode gave `r` has ended one way or the other. -/
theorem ends_of_finish {i : Instr} {s : State} {r : Except ErrorCode State} (h : exec i s = finish i s r)
    (hr : ∀ u, r = .ok u → Effect s i u) :
    (∃ c, exec i s = .next (s.raise c (encode i))) ∨ ∃ u, exec i s = .next u.succeed ∧ Effect s i u := by
  cases r with
  | ok u => exact .inr ⟨u, h, hr u rfl⟩
  | error c => exact .inl ⟨c, h⟩

theorem globalMatrix_ok {s u : State} (h : s.globalMatrix = .ok u) :
    ∃ w k ws bp, u = (s.writeOutput w k ws).writeBlackPt bp := by
  unfold State.globalMatrix at h
  split at h
  · cases h
  · cases h; exact ⟨_, _, _, _, rfl⟩

/-- Everything `exec` can do: an error, which changes only the error record, or a success with an effect of its kind. -/
theorem exec_cases (i : Instr) (s : State) :
    (∃ c, exec i s = .next (s.raise c (encode i))) ∨ ∃ u, exec i s = .next u.succeed ∧ Effect s i u := by
  cases i with
  | nop => exact .inr ⟨_, rfl, .nop⟩
  | sreset => exact .inr ⟨_, rfl, .sreset⟩
  | gfadd a b => exact .inr ⟨_, rfl, .gfadd a b _⟩
  | gfmul a b => exact .inr ⟨_, rfl, .gfmul a b _⟩
  | gfexp a => exact .inr ⟨_, rfl, .gfexp a _⟩
  | pzero rd => exact .inr ⟨_, rfl, .pzero rd _⟩
  | pone rd => exact .inr ⟨_, rfl, .pone rd _⟩
  | pdeg ra => exact .inr ⟨_, rfl, .pdeg ra _⟩
  | peval ra a => exact .inr ⟨_, rfl, .peval ra a _⟩
  | padd rd ra rb => exact .inr ⟨_, rfl, .padd rd ra rb _⟩
  | pscl rd ra c => exact .inr ⟨_, rfl, .pscl rd ra c _⟩
  | rsgen rd k => exact .inr ⟨_, rfl, .rsgen rd k _⟩
  | gfinv a =>
    refine ends_of_finish (show exec _ s = execGfinv a s from rfl) fun u hu => ?_
    split at hu
    · cases hu
    · cases hu; exact .gfinv _ _
  | gflog a =>
    refine ends_of_finish (show exec _ s = execGflog a s from rfl) fun u hu => ?_
    split at hu
    · cases hu
    · cases hu; exact .gflog _ _
  | pld rd off len =>
    refine ends_of_finish (show exec _ s = execPld rd off len s from rfl) fun u hu => ?_
    split at hu
    · cases hu
    · cases hu; exact .pld _ _ _ _
  | pst ra off =>
    refine ends_of_finish (show exec _ s = execPst ra off s from rfl) fun u hu => ?_
    split at hu
    · cases hu
    · cases hu; exact .pst _ _ _ _ _
  | pcoef ra k =>
    refine ends_of_finish (show exec _ s = execPcoef ra k s from rfl) fun u hu => ?_
    split at hu
    · cases hu
    · cases hu; exact .pcoef _ _ _
  | pmul rd ra rb =>
    refine ends_of_finish (show exec _ s = execPmul rd ra rb s from rfl) fun u hu => ?_
    unfold State.writeCapped at hu
    split at hu
    · cases hu
    · cases hu; exact .pmul _ _ _ _
  | pmulm rd ra d c =>
    refine ends_of_finish (show exec _ s = execPmulm rd ra d c s from rfl) fun u hu => ?_
    unfold State.writeCapped at hu
    split at hu
    · cases hu
    · cases hu; exact .pmulm _ _ _ _ _
  | pdiv rd re ra rb =>
    refine ends_of_finish (show exec _ s = execPdiv rd re ra rb s from rfl) fun u hu => ?_
    split at hu
    · cases hu
    · split at hu
      · cases hu
      · cases hu; exact .pdiv _ _ _ _ _ _
  | rsenc nd ec =>
    refine ends_of_finish (show exec _ s = execRsenc nd ec s from rfl) fun u hu => ?_
    split at hu
    · cases hu
    · cases hu; exact .rsenc _ _ _ _
  | rsdec n twoS =>
    refine ends_of_finish (show exec _ s = execRsdec n twoS s from rfl) fun u hu => ?_
    split at hu
    · cases hu
    · dsimp only at hu
      split at hu
      · cases hu; exact .rsdecClean _ _
      · split at hu
        · cases hu
        · cases hu; exact .rsdec _ _ _ _
  | rssyn rd n twoS =>
    refine ends_of_finish (show exec _ s = execRssyn rd n twoS s from rfl) fun u hu => ?_
    split at hu
    · cases hu
    · cases hu; exact .rssyn _ _ _ _
  | bingm =>
    refine ends_of_finish (show exec _ s = execBingm s from rfl) fun u hu => ?_
    split at hu
    · cases hu
    · obtain ⟨w, k, ws, bp, rfl⟩ := globalMatrix_ok hu
      exact .bingm _ _ _ _
  | bingr y =>
    refine ends_of_finish (show exec _ s = execBingr y s from rfl) fun u hu => ?_
    split at hu
    · cases hu
    · split at hu
      · cases hu
      · cases hu; exact .bingr _ _ _ _ _
  | binhm =>
    refine ends_of_finish (show exec _ s = execBinhm s from rfl) fun u hu => ?_
    split at hu
    · cases hu
    · split at hu
      · obtain ⟨w, k, ws, bp, rfl⟩ := globalMatrix_ok hu
        exact .binhmGlobal _ _ _ _
      · cases hu; exact .binhm _ _ _

end Sys2Proof.Machine
end

