-- ==== Sys2Proof/Laws/Field.lean ====
section
/-! SUPPORT. The tables of rules R122, R123 and R135: `exp` and `log` are inverse, and `exp` is never zero. The finite facts
are checked entry by entry. -/

namespace Sys2Proof.Machine

theorem glog_gexp_entries : ∀ i < 255, glog .qr (gexp .qr i) = i ∧ glog .dataMatrix (gexp .dataMatrix i) = i := by
  decide +kernel

theorem gexp_glog_entries : ∀ k < 255,
    (gexp .qr (glog .qr (BitVec.ofNat 8 (k + 1))) = BitVec.ofNat 8 (k + 1) ∧ glog .qr (BitVec.ofNat 8 (k + 1)) < 255) ∧
    (gexp .dataMatrix (glog .dataMatrix (BitVec.ofNat 8 (k + 1))) = BitVec.ofNat 8 (k + 1) ∧
      glog .dataMatrix (BitVec.ofNat 8 (k + 1)) < 255) := by
  decide +kernel

theorem gexp_entries : ∀ i < 256, gexp .qr i ≠ 0 ∧ gexp .dataMatrix i ≠ 0 := by decide +kernel

/-- Every non-zero byte is `k + 1` for some `k < 255`. -/
theorem byte_eq_succ {a : Byte} (h : a ≠ 0) : ∃ k < 255, a = BitVec.ofNat 8 (k + 1) := by
  have h0 : a.toNat ≠ 0 := fun e => h (BitVec.eq_of_toNat_eq (by simpa using e))
  have h1 := a.isLt
  exact ⟨a.toNat - 1, by omega, BitVec.eq_of_toNat_eq (by rw [BitVec.toNat_ofNat]; omega)⟩

/-- `log[exp[i]]` = i for i in 0 … 254 (R123). -/
theorem glog_gexp (f : Field) {i : Nat} (h : i < 255) : glog f (gexp f i) = i := by
  cases f
  · exact (glog_gexp_entries i h).1
  · exact (glog_gexp_entries i h).2

/-- `exp[log[a]]` = a for a ≠ 0 (R123). -/
theorem gexp_glog (f : Field) {a : Byte} (h : a ≠ 0) : gexp f (glog f a) = a := by
  obtain ⟨k, hk, rfl⟩ := byte_eq_succ h
  cases f
  · exact (gexp_glog_entries k hk).1.1
  · exact (gexp_glog_entries k hk).2.1

/-- `log[a]` is in 0 … 254, never 255 (R123, R134). -/
theorem glog_lt (f : Field) {a : Byte} (h : a ≠ 0) : glog f a < 255 := by
  obtain ⟨k, hk, rfl⟩ := byte_eq_succ h
  cases f
  · exact (gexp_glog_entries k hk).1.2
  · exact (gexp_glog_entries k hk).2.2

/-- The powers of α are non-zero (R122). -/
theorem gexp_ne_zero (f : Field) {i : Nat} (h : i < 256) : gexp f i ≠ 0 := by
  cases f
  · exact (gexp_entries i h).1
  · exact (gexp_entries i h).2

/-- `exp[255]` = `exp[0]` = 1 (R122). -/
@[simp] theorem gexp_zero (f : Field) : gexp f 0 = 1 := by cases f <;> decide +kernel

@[simp] theorem gexp_255 (f : Field) : gexp f 255 = 1 := by cases f <;> decide +kernel

/-- The zero cases of multiplication (R125). -/
@[simp] theorem gmul_zero (f : Field) (a : Byte) : gmul f a 0#8 = 0#8 := by simp [gmul]

@[simp] theorem zero_gmul (f : Field) (a : Byte) : gmul f 0#8 a = 0#8 := by simp [gmul]

/-- The other case of R125. -/
theorem gmul_of_ne_zero (f : Field) {a b : Byte} (ha : a ≠ 0) (hb : b ≠ 0) :
    gmul f a b = gexp f ((glog f a + glog f b) % 255) := if_neg (by tauto)

/-- The product of non-zero elements is non-zero. -/
theorem gmul_ne_zero (f : Field) {a b : Byte} (ha : a ≠ 0) (hb : b ≠ 0) : gmul f a b ≠ 0 := by
  rw [gmul_of_ne_zero f ha hb]; exact gexp_ne_zero f (by omega)

/-- The logarithm of a product (R125). -/
theorem glog_gmul (f : Field) {a b : Byte} (ha : a ≠ 0) (hb : b ≠ 0) :
    glog f (gmul f a b) = (glog f a + glog f b) % 255 := by
  rw [gmul_of_ne_zero f ha hb, glog_gexp f (by omega)]

end Sys2Proof.Machine
end

