-- ==== Sys2Proof/Laws/PerInstr.lean ====
section
/-! SUPPORT. Per-command family `EncodesInRow`: the encoding of every command matches the row of the opcode map (rule R99)
that carries its mnemonic: `encode i & mask = match` (rule R98). -/

namespace Sys2Proof.Laws.EncodesInRow

/-- The mnemonic of a command (R99). -/
def mnemonic : Instr → String
  | .nop => "NOP"
  | .sreset => "SRESET"
  | .gfadd _ _ => "GFADD"
  | .gfmul _ _ => "GFMUL"
  | .gfinv _ => "GFINV"
  | .gfexp _ => "GFEXP"
  | .gflog _ => "GFLOG"
  | .pzero _ => "PZERO"
  | .pone _ => "PONE"
  | .pld _ _ _ => "PLD"
  | .pst _ _ => "PST"
  | .pdeg _ => "PDEG"
  | .pcoef _ _ => "PCOEF"
  | .peval _ _ => "PEVAL"
  | .padd _ _ _ => "PADD"
  | .pmul _ _ _ => "PMUL"
  | .pscl _ _ _ => "PSCL"
  | .pmulm _ _ _ _ => "PMULM"
  | .pdiv _ _ _ _ => "PDIV"
  | .rsenc _ _ => "RSENC"
  | .rsdec _ _ => "RSDEC"
  | .rsgen _ _ => "RSGEN"
  | .rssyn _ _ _ => "RSSYN"
  | .bingm => "BINGM"
  | .bingr _ => "BINGR"
  | .binhm => "BINHM"

/-- The row of the opcode map with the command's mnemonic matches the command's word. -/
def Statement (i : Instr) : Prop :=
  ∃ row ∈ opcodeRows, row.mnemonic = mnemonic i ∧ encode i &&& row.mask = row.pattern

/-- Masking a word that is known bit by bit. -/
theorem and_eq_of_bits {w m p : Word} (h : ∀ k < 32, (w.getLsbD k && m.getLsbD k) = p.getLsbD k) : w &&& m = p :=
  BitVec.eq_of_getLsbD_eq fun k hk => by rw [BitVec.getLsbD_and]; exact h k hk

theorem nop : Statement .nop := by
  refine ⟨⟨"NOP", 0x00000000, 0xFFFFFFFF⟩, by decide, rfl, ?_⟩
  decide

theorem sreset : Statement .sreset := by
  refine ⟨⟨"SRESET", 0x01000000, 0xFFFFFFFF⟩, by decide, rfl, ?_⟩
  decide

theorem gfadd (a b : Byte) : Statement (.gfadd a b) := by
  refine ⟨⟨"GFADD", 0x10000000, 0xFFFF0000⟩, by decide, rfl, ?_⟩
  refine and_eq_of_bits fun k hk => ?_
  simp only [encode, getLsbD_formatS]
  interval_cases k <;> simp

theorem gfmul (a b : Byte) : Statement (.gfmul a b) := by
  refine ⟨⟨"GFMUL", 0x11000000, 0xFFFF0000⟩, by decide, rfl, ?_⟩
  refine and_eq_of_bits fun k hk => ?_
  simp only [encode, getLsbD_formatS]
  interval_cases k <;> simp

theorem gfinv (a : Byte) : Statement (.gfinv a) := by
  refine ⟨⟨"GFINV", 0x12000000, 0xFFFF00FF⟩, by decide, rfl, ?_⟩
  refine and_eq_of_bits fun k hk => ?_
  simp only [encode, getLsbD_formatS]
  interval_cases k <;> simp

theorem gfexp (i : Byte) : Statement (.gfexp i) := by
  refine ⟨⟨"GFEXP", 0x13000000, 0xFFFF00FF⟩, by decide, rfl, ?_⟩
  refine and_eq_of_bits fun k hk => ?_
  simp only [encode, getLsbD_formatS]
  interval_cases k <;> simp

theorem gflog (a : Byte) : Statement (.gflog a) := by
  refine ⟨⟨"GFLOG", 0x14000000, 0xFFFF00FF⟩, by decide, rfl, ?_⟩
  refine and_eq_of_bits fun k hk => ?_
  simp only [encode, getLsbD_formatS]
  interval_cases k <;> simp

theorem pzero (rd : Reg) : Statement (.pzero rd) := by
  refine ⟨⟨"PZERO", 0x20000000, 0xFF1FFFFF⟩, by decide, rfl, ?_⟩
  refine and_eq_of_bits fun k hk => ?_
  simp only [encode, getLsbD_formatR]
  interval_cases k <;> simp

theorem pone (rd : Reg) : Statement (.pone rd) := by
  refine ⟨⟨"PONE", 0x21000000, 0xFF1FFFFF⟩, by decide, rfl, ?_⟩
  refine and_eq_of_bits fun k hk => ?_
  simp only [encode, getLsbD_formatR]
  interval_cases k <;> simp

theorem pld (rd : Reg) (off len : Byte) : Statement (.pld rd off len) := by
  refine ⟨⟨"PLD", 0x22000000, 0xFF1F0000⟩, by decide, rfl, ?_⟩
  refine and_eq_of_bits fun k hk => ?_
  simp only [encode, getLsbD_formatI]
  interval_cases k <;> simp

theorem pst (ra : Reg) (off : Byte) : Statement (.pst ra off) := by
  refine ⟨⟨"PST", 0x23000000, 0xFFE300FF⟩, by decide, rfl, ?_⟩
  refine and_eq_of_bits fun k hk => ?_
  simp only [encode, getLsbD_formatI]
  interval_cases k <;> simp

theorem pdeg (ra : Reg) : Statement (.pdeg ra) := by
  refine ⟨⟨"PDEG", 0x24000000, 0xFFFC7FFF⟩, by decide, rfl, ?_⟩
  refine and_eq_of_bits fun k hk => ?_
  simp only [encode, getLsbD_formatR]
  interval_cases k <;> simp

theorem pcoef (ra : Reg) (k : Byte) : Statement (.pcoef ra k) := by
  refine ⟨⟨"PCOEF", 0x25000000, 0xFFE3FF00⟩, by decide, rfl, ?_⟩
  refine and_eq_of_bits fun k hk => ?_
  simp only [encode, getLsbD_formatI]
  interval_cases k <;> simp

theorem peval (ra : Reg) (a : Byte) : Statement (.peval ra a) := by
  refine ⟨⟨"PEVAL", 0x26000000, 0xFFE3FF00⟩, by decide, rfl, ?_⟩
  refine and_eq_of_bits fun k hk => ?_
  simp only [encode, getLsbD_formatI]
  interval_cases k <;> simp

theorem padd (rd ra rb : Reg) : Statement (.padd rd ra rb) := by
  refine ⟨⟨"PADD", 0x28000000, 0xFF1C0FFF⟩, by decide, rfl, ?_⟩
  refine and_eq_of_bits fun k hk => ?_
  simp only [encode, getLsbD_formatR]
  interval_cases k <;> simp

theorem pmul (rd ra rb : Reg) : Statement (.pmul rd ra rb) := by
  refine ⟨⟨"PMUL", 0x29000000, 0xFF1C0FFF⟩, by decide, rfl, ?_⟩
  refine and_eq_of_bits fun k hk => ?_
  simp only [encode, getLsbD_formatR]
  interval_cases k <;> simp

theorem pscl (rd ra : Reg) (c : Byte) : Statement (.pscl rd ra c) := by
  refine ⟨⟨"PSCL", 0x2A000000, 0xFF03FF00⟩, by decide, rfl, ?_⟩
  refine and_eq_of_bits fun k hk => ?_
  simp only [encode, getLsbD_formatI]
  interval_cases k <;> simp

theorem pmulm (rd ra : Reg) (deg coef : Byte) : Statement (.pmulm rd ra deg coef) := by
  refine ⟨⟨"PMULM", 0x2B000000, 0xFF030000⟩, by decide, rfl, ?_⟩
  refine and_eq_of_bits fun k hk => ?_
  simp only [encode, getLsbD_formatI]
  interval_cases k <;> simp

theorem pdiv (rd re ra rb : Reg) : Statement (.pdiv rd re ra rb) := by
  refine ⟨⟨"PDIV", 0x2C000000, 0xFF000FFF⟩, by decide, rfl, ?_⟩
  refine and_eq_of_bits fun k hk => ?_
  simp only [encode, getLsbD_formatR]
  interval_cases k <;> simp

theorem rsenc (nd ec : Byte) : Statement (.rsenc nd ec) := by
  refine ⟨⟨"RSENC", 0x30000000, 0xFFFF0000⟩, by decide, rfl, ?_⟩
  refine and_eq_of_bits fun k hk => ?_
  simp only [encode, getLsbD_formatS]
  interval_cases k <;> simp

theorem rsdec (n twoS : Byte) : Statement (.rsdec n twoS) := by
  refine ⟨⟨"RSDEC", 0x31000000, 0xFFFF0000⟩, by decide, rfl, ?_⟩
  refine and_eq_of_bits fun k hk => ?_
  simp only [encode, getLsbD_formatS]
  interval_cases k <;> simp

theorem rsgen (rd : Reg) (k : Byte) : Statement (.rsgen rd k) := by
  refine ⟨⟨"RSGEN", 0x32000000, 0xFF1FFF00⟩, by decide, rfl, ?_⟩
  refine and_eq_of_bits fun k hk => ?_
  simp only [encode, getLsbD_formatI]
  interval_cases k <;> simp

theorem rssyn (rd : Reg) (n twoS : Byte) : Statement (.rssyn rd n twoS) := by
  refine ⟨⟨"RSSYN", 0x33000000, 0xFF1F0000⟩, by decide, rfl, ?_⟩
  refine and_eq_of_bits fun k hk => ?_
  simp only [encode, getLsbD_formatI]
  interval_cases k <;> simp

theorem bingm : Statement .bingm := by
  refine ⟨⟨"BINGM", 0x40000000, 0xFFFFFFFF⟩, by decide, rfl, ?_⟩
  decide

theorem bingr (row : Half) : Statement (.bingr row) := by
  refine ⟨⟨"BINGR", 0x41000000, 0xFFFF0000⟩, by decide, rfl, ?_⟩
  refine and_eq_of_bits fun k hk => ?_
  simp only [encode, getLsbD_formatB]
  interval_cases k <;> simp

theorem binhm : Statement .binhm := by
  refine ⟨⟨"BINHM", 0x42000000, 0xFFFFFFFF⟩, by decide, rfl, ?_⟩
  decide

end Sys2Proof.Laws.EncodesInRow
end

