-- ==== Sys2Proof/Laws/Poly.lean ====
section
/-! SUPPORT. Lengths, normal form and coefficients of the polynomial functions (rules R150 to R158). -/

namespace Sys2Proof.Machine

/-! ### norm (R151) -/

theorem length_norm_pos (l : List Byte) : 1 ≤ (norm l).length := by
  induction l using norm.induct <;> simp_all [norm]

theorem length_norm_le (l : List Byte) : (norm l).length ≤ max 1 l.length := by
  induction l using norm.induct <;> simp_all [norm]; omega

/-- Stripped: one coefficient, or a non-zero first one. -/
theorem norm_normal (l : List Byte) : (norm l).length = 1 ∨ (norm l).headD 0 ≠ 0 := by
  induction l using norm.induct <;> simp_all [norm]

theorem polyOk_norm {l : List Byte} (h : l.length ≤ Config.pcap) : PolyOk (norm l) :=
  ⟨length_norm_pos l, le_trans (length_norm_le l) (by simp only [Config.pcap] at *; omega), norm_normal l⟩

/-- A normal list is its own `norm`. -/
theorem norm_eq_self {p : Poly} (h1 : 1 ≤ p.length) (h : p.length = 1 ∨ p.headD 0 ≠ 0) : norm p = p := by
  match p, h1, h with
  | [_], _, _ => rfl
  | a :: b :: l, _, h =>
    exact if_neg (by simpa using h)

@[simp] theorem norm_norm (l : List Byte) : norm (norm l) = norm l :=
  norm_eq_self (length_norm_pos l) (norm_normal l)

theorem norm_of_polyOk {p : Poly} (h : PolyOk p) : norm p = p := norm_eq_self h.1 h.2.2

/-- A normal list is zero exactly when it is `[0]` (R150). -/
theorem isZero_iff {p : Poly} (h : PolyOk p) : isZero p = true ↔ p = [0] := by
  obtain ⟨h1, -, h3⟩ := h
  match p, h1, h3 with
  | [a], _, _ => simp [isZero]
  | a :: b :: l, _, h3 => simp_all [isZero]

/-! ### coefficients -/

theorem coeff_eq_reverse (p : List Byte) (k : Nat) : coeff p k = p.reverse.getD k 0 := by
  unfold coeff
  split
  · next h => simp [List.getD_eq_getElem?_getD, List.getElem?_reverse h]
  · next h => rw [List.getD_eq_default]; simpa using h

theorem coeff_cons (a : Byte) (p : List Byte) (k : Nat) :
    coeff (a :: p) k = if k = p.length then a else coeff p k := by
  simp only [coeff_eq_reverse, List.reverse_cons, List.getD_eq_getElem?_getD]
  by_cases h : k < p.length
  · rw [List.getElem?_append_left (by simpa using h), if_neg (by omega)]
  · rw [List.getElem?_append_right (by simpa using h)]
    by_cases h2 : k = p.length
    · simp [h2]
    · rw [if_neg h2, List.getElem?_eq_none (by simp; omega), List.getElem?_eq_none (by simp; omega)]

@[simp] theorem coeff_nil (k : Nat) : coeff [] k = 0 := by simp [coeff]

/-- Stripping leading zeros changes no coefficient. -/
@[simp] theorem coeff_norm (l : List Byte) (k : Nat) : coeff (norm l) k = coeff l k := by
  induction l using norm.induct generalizing k with
  | case1 => simp [norm, coeff_cons]
  | case2 a => rfl
  | case3 b l ih =>
    rw [show norm (0 :: b :: l) = norm (b :: l) by simp [norm], ih, coeff_cons 0]
    split
    · next h => simp [coeff, h]
    · rfl
  | case4 a b l h => rw [show norm (a :: b :: l) = a :: b :: l from if_neg h]

/-- Zeros in front change no coefficient. -/
@[simp] theorem coeff_zeros_append (n : Nat) (p : List Byte) (k : Nat) : coeff (List.replicate n 0 ++ p) k = coeff p k := by
  simp only [coeff_eq_reverse, List.reverse_append, List.reverse_replicate, List.getD_eq_getElem?_getD]
  by_cases h : k < p.length
  · rw [List.getElem?_append_left (by simpa using h)]
  · rw [List.getElem?_append_right (by simpa using h), List.getElem?_eq_none (l := p.reverse) (by simp; omega),
      List.getElem?_replicate]
    split <;> rfl

/-- Zeros at the end move every coefficient up. -/
theorem coeff_append_zeros (p : List Byte) (d k : Nat) :
    coeff (p ++ List.replicate d 0) k = if k < d then 0 else coeff p (k - d) := by
  simp only [coeff_eq_reverse, List.reverse_append, List.reverse_replicate, List.getD_eq_getElem?_getD]
  by_cases h : k < d
  · rw [List.getElem?_append_left (by simpa using h), if_pos h]
    simp [h]
  · rw [List.getElem?_append_right (by simpa using h), if_neg h]
    simp

theorem coeff_map (g : Byte → Byte) (h0 : g 0 = 0) (p : List Byte) (k : Nat) : coeff (p.map g) k = g (coeff p k) := by
  simp only [coeff_eq_reverse, ← List.map_reverse, List.getD_eq_getElem?_getD, List.getElem?_map]
  cases p.reverse[k]? with
  | none => exact h0.symm
  | some a => rfl

theorem coeff_zipWith_gadd {p q : List Byte} (h : p.length = q.length) (k : Nat) :
    coeff (List.zipWith gadd p q) k = coeff p k ^^^ coeff q k := by
  simp only [coeff_eq_reverse, List.reverse_zipWith h, List.getD_eq_getElem?_getD, List.getElem?_zipWith]
  have hl : p.reverse.length = q.reverse.length := by simpa using h
  by_cases hk : k < p.reverse.length
  · rw [List.getElem?_eq_getElem hk, List.getElem?_eq_getElem (by omega)]
    rfl
  · rw [List.getElem?_eq_none (by omega), List.getElem?_eq_none (by omega)]
    rfl

/-- The sum's coefficients are the sums of the coefficients (R153). -/
@[simp] theorem coeff_padd (p q : Poly) (k : Nat) : coeff (padd p q) k = coeff p k ^^^ coeff q k := by
  unfold padd xorAligned
  rw [coeff_norm, coeff_zipWith_gadd (by simp; omega), coeff_zeros_append, coeff_zeros_append]

/-- Scaling scales every coefficient (R155). -/
@[simp] theorem coeff_pscl (f : Field) (p : Poly) (c : Byte) (k : Nat) : coeff (pscl f p c) k = gmul f (coeff p k) c := by
  unfold pscl
  rw [coeff_norm, coeff_map (fun x => gmul f x c) (by simp)]

/-- Multiplying by c·x^d scales every coefficient and moves it up by `d` (R156). -/
theorem coeff_pmulm (f : Field) (p : Poly) (d : Nat) (c : Byte) (k : Nat) :
    coeff (pmulm f p d c) k = if k < d then 0 else gmul f (coeff p (k - d)) c := by
  unfold pmulm
  split
  · next h => subst h; simp [coeff_cons]
  · rw [coeff_norm, coeff_append_zeros, coeff_map (fun x => gmul f x c) (by simp)]

/-! ### lengths -/

@[simp] theorem length_xorAligned (p q : List Byte) : (xorAligned p q).length = max p.length q.length := by
  simp [xorAligned]; omega

theorem length_padd_le (p q : Poly) : (padd p q).length ≤ max 1 (max p.length q.length) :=
  le_trans (length_norm_le _) (by rw [length_xorAligned])

@[simp] theorem length_xorFront (p q : List Byte) : (xorFront p q).length = max p.length q.length := by
  induction p, q using xorFront.induct <;> simp_all [xorFront]

theorem length_convolve (f : Field) (p q : List Byte) (hp : 1 ≤ p.length) (hq : 1 ≤ q.length) :
    (convolve f p q).length = p.length + q.length - 1 := by
  induction p with
  | nil => simp at hp
  | cons a p ih =>
    cases p with
    | nil => simp [convolve]; omega
    | cons b p => rw [convolve, length_xorFront, List.length_cons, ih (by simp)]; simp; omega

theorem length_pscl_le (f : Field) (p : Poly) (s : Byte) : (pscl f p s).length ≤ max 1 p.length :=
  le_trans (length_norm_le _) (by simp)

theorem length_pmulm_le (f : Field) (p : Poly) (d : Nat) (c : Byte) :
    (pmulm f p d c).length ≤ max 1 (p.length + d) := by
  unfold pmulm
  split
  · simp
  · exact le_trans (length_norm_le _) (by simp)

theorem length_pmulm_pos (f : Field) (p : Poly) (d : Nat) (c : Byte) : 1 ≤ (pmulm f p d c).length := by
  unfold pmulm
  split
  · simp
  · exact length_norm_pos _

/-- Quotient and remainder are never longer than the dividend (R171: "No capacity error is possible"). -/
theorem length_pdivLoop_le (f : Field) (b : Poly) (inv : Byte) {n : Nat} (hn : 1 ≤ n) (hb : 1 ≤ b.length) :
    ∀ (fuel : Nat) (q r : Poly), q.length ≤ n → r.length ≤ n →
      (pdivLoop f b inv fuel q r).1.length ≤ n ∧ (pdivLoop f b inv fuel q r).2.length ≤ n := by
  intro fuel
  induction fuel with
  | zero => intro q r hq hr; exact ⟨hq, hr⟩
  | succ fuel ih =>
    intro q r hq hr
    unfold pdivLoop
    split
    · next h =>
      have hd : deg b ≤ deg r := h.1
      simp only [deg] at hd
      refine ih _ _ (le_trans (length_padd_le _ _) ?_) (le_trans (length_padd_le _ _) ?_)
      · have := length_pmulm_le f [1] (deg r - deg b) (gmul f (r.headD 0) inv)
        simp only [deg, List.length_cons, List.length_nil] at this ⊢
        omega
      · have := length_pmulm_le f b (deg r - deg b) (gmul f (r.headD 0) inv)
        simp only [deg] at this ⊢
        omega
    · exact ⟨hq, hr⟩

end Sys2Proof.Machine
end

