-- ==== Sys2Proof/Tests/Slice0.lean ====
section
/-! SUPPORT. Tests of the model, each on one step of a small state; expected values are the spec's own (95_test_vectors.md and
the examples of the command rules) unless a comment says how they were worked out. Then the witnesses: for every statement
with hypotheses, a state and operands that meet them. -/

namespace Sys2Proof.Tests

open Sys2Proof.Machine

/-! ### Helpers -/

/-- The state after a command, or the same state if the machine stopped. -/
def after (i : Instr) (s : State) : State :=
  match exec i s with
  | .next t => t
  | _ => s

/-- The state after the host writes a command word. -/
def afterWord (w : Word) (s : State) : State :=
  match runCommand w s with
  | .next t => t
  | _ => s

/-- Reset, then bytes written to `CW` from index 0. -/
def withCW (bytes : List Byte) : State := { State.reset with cw := Memory.writeRange [] 0 bytes }

/-- Reset, then `P1` and `P2` set. -/
def withP (p1 p2 : Poly) : State := (State.reset.writeP 1 p1).writeP 2 p2

/-- The Data Matrix field selected. -/
def dm (s : State) : State := { s with fsel := 1 }

/-- Reset, then an image of `w` by `h` pixels in `LMEM`. -/
def withImage (w h : Nat) (pixels : List Byte) : State :=
  { State.reset with imgW := BitVec.ofNat 16 w, imgH := BitVec.ofNat 16 h, lmem := Memory.writeRange [] 0 pixels }

/-- The first `n` words of `BMEM`. -/
def words (n : Nat) (s : State) : List Word := (List.range n).map s.readBMEM

/-- Image G1 of 95_test_vectors.md section 4.2. -/
def g1 : List Byte :=
  [30, 200, 200, 30, 200, 200, 30, 200, 200, 30] ++ [200, 200, 30, 200, 200, 30, 200, 200, 30, 200] ++
  [200, 30, 200, 200, 30, 200, 200, 30, 200, 200] ++ [30, 200, 200, 30, 200, 200, 30, 200, 200, 30] ++
  [200, 200, 30, 200, 200, 30, 200, 200, 30, 200]

/-! ### Well-formedness and decoding -/

theorem test_wf_refuses_pdiv_same_destination : (Instr.pdiv 1 1 1 2).wf = false := by decide

theorem test_wf_accepts_pdiv_onto_sources : (Instr.pdiv 1 2 1 2).wf = true := by decide

/-- Bit by bit from the formats of R92: opcode, then the fields from the left. -/
theorem test_decode_bits :
    decode (0b00101011#8 ++ 0b010#3 ++ 0b001#3 ++ 0b00#2 ++ 0b00001010#8 ++ 0b00000001#8) = .ok (.pmulm 2 1 10 1) ∧
    decode (0b00101100#8 ++ 0b011#3 ++ 0b100#3 ++ 0b001#3 ++ 0b010#3 ++ 0b000000000000#12) = .ok (.pdiv 3 4 1 2) ∧
    decode (0b00010001#8 ++ 0b00000000#8 ++ 0b01010011#8 ++ 0b11001010#8) = .ok (.gfmul 0x53 0xCA) ∧
    decode (0b00110001#8 ++ 0b00000000#8 ++ 0b00011010#8 ++ 0b00001010#8) = .ok (.rsdec 26 10) ∧
    decode (0b01000001#8 ++ 0b00000000#8 ++ 0b0000000000000010#16) = .ok (.bingr 2) ∧
    decode (0b00000001#8 ++ 0b000000000000000000000000#24) = .ok .sreset := by decide

theorem test_decode_control_and_scalar :
    decode 0x00000000 = .ok .nop ∧ decode 0x01000000 = .ok .sreset ∧ decode 0x100053CA = .ok (.gfadd 0x53 0xCA) ∧
    decode 0x110053CA = .ok (.gfmul 0x53 0xCA) ∧ decode 0x12005300 = .ok (.gfinv 0x53) ∧
    decode 0x13000800 = .ok (.gfexp 8) ∧ decode 0x14001D00 = .ok (.gflog 0x1D) := by decide

theorem test_decode_polynomial :
    decode 0x20600000 = .ok (.pzero 3) ∧ decode 0x21200000 = .ok (.pone 1) ∧ decode 0x22200404 = .ok (.pld 1 4 4) ∧
    decode 0x23041000 = .ok (.pst 1 0x10) ∧ decode 0x24010000 = .ok (.pdeg 2) ∧ decode 0x25080000 = .ok (.pcoef 2 0) ∧
    decode 0x26040002 = .ok (.peval 1 2) ∧ decode 0x2800A000 = .ok (.padd 0 1 2) ∧ decode 0x2900A000 = .ok (.pmul 0 1 2) ∧
    decode 0x2A200010 = .ok (.pscl 1 0 0x10) ∧ decode 0x2B440A01 = .ok (.pmulm 2 1 10 1) ∧
    decode 0x2C70A000 = .ok (.pdiv 3 4 1 2) := by decide

theorem test_decode_codec_and_binarizer :
    decode 0x3000100A = .ok (.rsenc 16 10) ∧ decode 0x31001A0A = .ok (.rsdec 26 10) ∧ decode 0x3220000A = .ok (.rsgen 1 10) ∧
    decode 0x33000502 = .ok (.rssyn 0 5 2) ∧ decode 0x40000000 = .ok .bingm ∧ decode 0x4100FFFF = .ok (.bingr 65535) ∧
    decode 0x42000000 = .ok .binhm := by decide

theorem test_decode_rejects :
    decode 0x00000001 = .error .mustBeZeroBitSet ∧ decode 0x12005301 = .error .mustBeZeroBitSet ∧
    decode 0x10010000 = .error .mustBeZeroBitSet ∧ decode 0x24080000 = .error .mustBeZeroBitSet ∧
    decode 0x2804A000 = .error .mustBeZeroBitSet ∧ decode 0x3101000A = .error .mustBeZeroBitSet ∧
    decode 0x2C24A000 = .error .pdivSameDestination ∧ decode 0x02000000 = .error .unlistedOpcode ∧
    decode 0x27000000 = .error .unlistedOpcode ∧ decode 0xFFFFFFFF = .error .unlistedOpcode := by decide

/-- The encoding of a line of R105. -/
theorem test_encode : encode (.pmulm 2 1 10 1) = 0x2B440A01 ∧ encode (.pdiv 3 4 1 2) = 0x2C70A000 ∧
    encode (.pst 1 0x10) = 0x23041000 ∧ encode (.pdeg 2) = 0x24010000 ∧ encode (.bingr 2) = 0x41000002 := by decide

/-! ### Control, errors, host accesses (Program 5) -/

theorem test_nop_clears_last_keeps_sticky : (after .nop { State.reset with status := 0x101 }).status = 0x100 := by decide

theorem test_gfinv_zero_records_error :
    (after (.gfinv 0) { State.reset with res := 0x8F }).status = 0x101 ∧
    (after (.gfinv 0) { State.reset with res := 0x8F }).res = 0x8F ∧
    (after (.gfinv 0) { State.reset with res := 0x8F }).errCmd = 0x12000000 := by decide

theorem test_illegal_word_joins_sticky_bits :
    (afterWord 0x02000000 { State.reset with status := 0x100 }).status = 0x904 ∧
    (afterWord 0x2C24A000 { State.reset with status := 0x900 }).errCmd = 0x2C24A000 := by decide

theorem test_decode_error_wins : (afterWord 0x3101000A { State.reset with status := 0xD01 }).status = 0xD04 := by decide

theorem test_sreset_clears_registers_keeps_cw :
    (after .sreset { withCW [7] with status := 0xD00, res := 3, fsel := 1, errCmd := 9 }).status = 0 ∧
    (after .sreset { withCW [7] with status := 0xD00, res := 3, fsel := 1, errCmd := 9 }).errCmd = 0 ∧
    (after .sreset { withCW [7] with status := 0xD00, res := 3, fsel := 1, errCmd := 9 }).readCW 0 = 7 := by decide

/-- Reserved bits of `FIELD` and `IMG_W` ignore writes (R30, R31); `STATUS` is read only (R26). -/
theorem test_csr_masks : (State.reset.setCSR 3 0xFFFFFFFF).csr 3 = 1 ∧ (State.reset.setCSR 4 0x1234ABCD).csr 4 = 0xABCD ∧
    (State.reset.setCSR 1 5).csr 1 = 0 ∧ State.reset.csr 11 = 0 := by decide

/-! ### Scalar unit (95_test_vectors.md section 3.1) -/

theorem test_gfadd : (after (.gfadd 0x53 0xCA) State.reset).res = 0x99 := by decide

theorem test_gfmul_qr : (after (.gfmul 0x53 0xCA) State.reset).res = 0x8F ∧ (after (.gfmul 0x80 2) State.reset).res = 0x1D := by
  decide +kernel

theorem test_gfmul_dm : (after (.gfmul 0xFF 0xFF) (dm State.reset)).res = 0x34 ∧
    (after (.gfmul 0 0xFF) (dm State.reset)).res = 0 := by decide +kernel

theorem test_gfinv : (after (.gfinv 2) State.reset).res = 0x8E ∧ (after (.gfinv 0xFF) (dm State.reset)).res = 0x9C := by
  decide +kernel

theorem test_gfexp : (after (.gfexp 25) State.reset).res = 3 ∧ (after (.gfexp 255) (dm State.reset)).res = 1 := by
  decide +kernel

theorem test_gflog : (after (.gflog 0xFF) State.reset).res = 175 ∧ (after (.gflog 0x1D) (dm State.reset)).res = 118 := by
  decide +kernel

/-! ### Polynomial unit (sections 3.2 and 6; rules R160 to R171) -/

theorem test_pzero_pone : (after (.pzero 1) (withP [1, 2] [3])).readP 1 = [0] ∧
    (after (.pone 2) (withP [1, 2] [3])).readP 2 = [1] := by decide

theorem test_pld_strips : (after (.pld 1 4 4) (withCW [0, 0, 0, 0, 0, 0, 0x12, 0x34])).readP 1 = [0x12, 0x34] := by decide

theorem test_pld_range : (after (.pld 0 250 10) State.reset).status = 0x101 ∧
    (after (.pld 0 0 0) State.reset).status = 0x101 := by decide

theorem test_pst : (after (.pst 1 0x10) (withP [0x12, 0x34] [0])).readCW 16 = 0x12 ∧
    (after (.pst 1 0x10) (withP [0x12, 0x34] [0])).readCW 17 = 0x34 ∧
    (after (.pst 1 0x10) (withP [0x12, 0x34] [0])).res = 2 := by decide

theorem test_pst_range : (after (.pst 1 255) (withP [0x12, 0x34] [0])).status = 0x101 := by decide

theorem test_pdeg : (after (.pdeg 2) (withP [0] [1, 3, 2])).res = 2 ∧ (after (.pdeg 1) (withP [0] [1, 3, 2])).res = 0 := by decide

theorem test_pcoef : (after (.pcoef 2 0) (withP [0] [1, 3, 2])).res = 2 ∧ (after (.pcoef 2 2) (withP [0] [1, 3, 2])).res = 1 ∧
    (after (.pcoef 2 3) (withP [0] [1, 3, 2])).status = 0x101 := by decide

theorem test_peval : (after (.peval 1 2) (withP [0x12, 0x34, 0x56] [0])).res = 0x76 ∧
    (after (.peval 1 1) (withP [0x12, 0x34, 0x56] [0])).res = 0x70 := by decide +kernel

theorem test_padd_cancels : (after (.padd 1 1 2) (withP [1, 2, 3] [1, 2, 4])).readP 1 = [7] := by decide

theorem test_padd_aligns : (after (.padd 0 1 2) (withP [5, 0, 0, 1] [7])).readP 0 = [5, 0, 0, 6] := by decide

theorem test_pmul : (after (.pmul 1 1 2) (withP [1, 3, 2] [1, 4])).readP 1 = [1, 7, 0xE, 8] ∧
    (after (.pmul 0 1 2) (dm (withP [1, 6, 8] [1, 8]))).readP 0 = [1, 0xE, 0x38, 0x40] := by decide +kernel

theorem test_pscl : (after (.pscl 0 1 2) (withP [0x80, 1] [0])).readP 0 = [0x1D, 2] ∧
    (after (.pscl 0 1 0) (withP [0x80, 1] [0])).readP 0 = [0] := by decide +kernel

theorem test_pmulm : (after (.pmulm 0 1 2 0x10) (withP [1, 3, 2] [0])).readP 0 = [0x10, 0x30, 0x20, 0, 0] ∧
    (after (.pmulm 0 2 7 5) (withP [1, 3, 2] [0])).readP 0 = [0] := by decide +kernel

theorem test_pdiv : (after (.pdiv 1 2 1 2) (withP [0x12, 0x34, 0x56, 0, 0] [1, 3, 2])).readP 1 = [0x12, 2, 0x74] ∧
    (after (.pdiv 1 2 1 2) (withP [0x12, 0x34, 0x56, 0, 0] [1, 3, 2])).readP 2 = [0x98, 0xE8] := by decide +kernel

theorem test_pdiv_by_zero : (after (.pdiv 3 4 1 2) (withP [1] [0])).status = 0x101 ∧
    (after (.pdiv 3 4 1 2) (withP [0x12, 0x34, 0x56] [5])).readP 3 = [0xF1, 0x5D, 0xE5] := by decide +kernel

/-! ### Codec (sections 1.2 and 2) -/

theorem test_rsgen : (after (.rsgen 1 10) State.reset).readP 1 =
    [1, 0xD8, 0xC2, 0x9F, 0x6F, 0xC7, 0x5E, 0x5F, 0x71, 0x9D, 0xC1] ∧
    (after (.rsgen 1 5) (dm State.reset)).readP 1 = [1, 0x3E, 0x6F, 0x0F, 0x30, 0xE4] := by decide +kernel

/-- ZX §8 scenario 3. -/
theorem test_rsenc_scenario3 : (after (.rsenc 16 10)
    (withCW [0x10, 0x20, 0x0C, 0x56, 0x61, 0x80, 0xEC, 0x11, 0xEC, 0x11, 0xEC, 0x11, 0xEC, 0x11, 0xEC, 0x11])).cwRange 16 10 =
    [0xA5, 0x24, 0xD4, 0xC1, 0xED, 0x36, 0xC7, 0x87, 0x2C, 0x55] := by decide +kernel

theorem test_rsenc_dm : (after (.rsenc 3 5) (dm (withCW [0x8E, 0xA4, 0xBA]))).cwRange 0 8 =
    [0x8E, 0xA4, 0xBA, 0x72, 0x19, 0x05, 0x58, 0x66] ∧ (after (.rsenc 200 56) State.reset).status = 0x101 := by decide +kernel

theorem test_rssyn : (after (.rssyn 0 5 2) (withCW [0x12, 0x43, 0x56, 0x98, 0xE8])).readP 0 = [0x9F, 0x77] ∧
    (after (.rssyn 0 8 5) (dm (withCW [0xCE, 0xA4, 0xBA, 0x72, 0x19, 0x05, 0x5B, 0x66]))).readP 0 =
      [0x28, 0x69, 0x85, 0xF7, 0x3F] := by decide +kernel

/-- The block of section 2.3 with five errors, the root 01 among them. -/
theorem test_rsdec_five_errors : (after (.rsdec 26 10)
    (withCW [0x10, 0x75, 0x0C, 0x56, 0x61, 0x80, 0xEC, 0xBB, 0xEC, 0x11, 0xEC, 0x11, 0xED, 0x11, 0xEC, 0x11, 0xA5, 0x24, 0xD4,
      0x41, 0xED, 0x36, 0xC7, 0x87, 0x2C, 0xAA])).cwRange 0 26 =
    [0x10, 0x20, 0x0C, 0x56, 0x61, 0x80, 0xEC, 0x11, 0xEC, 0x11, 0xEC, 0x11, 0xEC, 0x11, 0xEC, 0x11, 0xA5, 0x24, 0xD4, 0xC1,
      0xED, 0x36, 0xC7, 0x87, 0x2C, 0x55] := by decide +kernel

/-- Section 2.5 (the last step of R204) and the silent case of R207 (2). -/
theorem test_rsdec_dm_and_silent : (after (.rsdec 8 5) (dm (withCW [0xCE, 0xA4, 0xBA, 0x72, 0x19, 0x05, 0x5B, 0x66]))).cwRange 0 8 =
      [0x8E, 0xA4, 0xBA, 0x72, 0x19, 0x05, 0x58, 0x66] ∧
    (after (.rsdec 5 2) (withCW [0x12, 0x34, 0x56, 0x99, 0xEA])).status = 0 ∧
    (after (.rsdec 10 10) State.reset).status = 0x101 := by decide +kernel

/-! ### Binarizer (section 4) -/

theorem test_bingm_g1 : words 5 (after .bingm (withImage 10 5 g1)) = [0x249, 0x124, 0x92, 0x249, 0x124] ∧
    (after .bingm (withImage 10 5 g1)).blackPt = 144 ∧ (after .bingm (withImage 10 5 g1)).outRs = 1 := by decide +kernel

theorem test_bingm_low_contrast : (after .bingm (withImage 5 1 [9, 9, 9, 9, 9])).status = 0x202 ∧
    (after .bingm (withImage 0 1 [])).status = 0x101 := by decide +kernel

theorem test_bingr_row : words 1 (after (.bingr 0)
    (withImage 12 1 [200, 200, 40, 200, 200, 120, 130, 40, 40, 200, 90, 200])) = [0x5A4] := by decide +kernel

theorem test_bingr_narrow : words 1 (after (.bingr 0) (withImage 2 1 [10, 200])) = [1] ∧
    (after (.bingr 0) (withImage 2 1 [100, 110])).status = 0x202 ∧
    (after (.bingr 5) (withImage 10 5 g1)).errCmd = 0x41000005 := by decide +kernel

theorem test_binhm_falls_back : words 5 (after .binhm (withImage 10 5 g1)) = [0x249, 0x124, 0x92, 0x249, 0x124] := by
  decide +kernel

/-- Ties and the start of the second-peak search (section 4.1). -/
theorem test_black_point_ties :
    estimateBlackPoint [0, 0, 0, 8, 0, 0, 0, 0, 0, 0, 0, 0, 0, 0, 0, 0, 0, 0, 0, 0, 0, 0, 0, 0, 0, 8, 0, 0, 0, 0, 0, 0] = .ok 144 ∧
    estimateBlackPoint [10, 0, 1, 2, 9, 0, 0, 0, 0, 0, 0, 0, 0, 0, 0, 0, 0, 0, 0, 0, 0, 0, 0, 0, 0, 0, 0, 0, 0, 0, 0, 0] = .ok 24 ∧
    estimateBlackPoint [0, 0, 0, 0, 5, 0, 5, 0, 0, 0, 0, 0, 0, 0, 0, 0, 0, 0, 0, 0, 0, 0, 0, 0, 0, 0, 0, 0, 0, 0, 0, 0] = .error .notFound ∧
    estimateBlackPoint (List.replicate 32 0) = .error .notFound := by decide +kernel

/-- The neighbour average of image H1 (section 4.4): `(38 + 2·125 + 125) div 4` = 103 > 76, and 71 is not above 84. -/
theorem test_block_point : blockPoint [76, 77] (some (38, 125, 125)) = 103 ∧ blockPoint [84, 85] (some (42, 103, 38)) = 42 ∧
    blockPoint [76, 77] none = 38 := by decide

/-! ### Witnesses: states and operands -/

/-- Reset, with the host about to perform `a`. -/
def pending (a : HostAct) : State := { State.reset with host := [a] }

/-- A 40 by 40 image of the one luminance `v`. -/
def flat40 (v : Byte) : State := withImage 40 40 (List.replicate 1600 v)

theorem polyOk_replicate {n : Nat} (h1 : 1 ≤ n) (h2 : n ≤ 256) : PolyOk (List.replicate n 1) := by
  refine ⟨by simpa using h1, by simpa using h2, .inr ?_⟩
  obtain ⟨m, rfl⟩ : ∃ m, n = m + 1 := ⟨n - 1, by omega⟩
  simp [List.replicate_succ]

theorem readP_withP_1 {p q : Poly} (h : PolyOk p) : (withP p q).readP 1 = p := by
  rw [withP, readP_writeP_ne _ _ (by decide), readP_writeP_self, norm_of_polyOk h]

theorem readP_withP_2 {p q : Poly} (h : PolyOk q) : (withP p q).readP 2 = q := by
  rw [withP, readP_writeP_self, norm_of_polyOk h]

theorem polyOk_const (a : Byte) : PolyOk [a] := ⟨by simp, by simp [Config.pcap], .inl rfl⟩

theorem polysOk_withP {p q : Poly} (hp : PolyOk p) (hq : PolyOk q) : (withP p q).polysOk := by
  intro r
  by_cases h2 : r = 2
  · subst h2; rwa [readP_withP_2 hq]
  · by_cases h1 : r = 1
    · subst h1; rwa [readP_withP_1 hp]
    · rw [withP, readP_writeP_ne _ _ h2, readP_writeP_ne _ _ h1]
      have : State.reset.readP r = [0] := by revert r; decide
      rw [this]; exact polyOk_const 0

theorem lmem_withImage (w h : Nat) (px : List Byte) : (withImage w h px).lmem = Memory.writeRange [] 0 px := rfl

theorem imgW_withImage (w h : Nat) (px : List Byte) : (withImage w h px).imgW = BitVec.ofNat 16 w := rfl

theorem imgH_withImage (w h : Nat) (px : List Byte) : (withImage w h px).imgH = BitVec.ofNat 16 h := rfl

theorem sizes_withImage (w h : Nat) (px : List Byte) : (withImage w h px).sizes = ⟨16384, 512⟩ := rfl

theorem imgW_flat40 (v : Byte) : (flat40 v).imgW.toNat = 40 := by rw [flat40, imgW_withImage]; rfl

theorem imgH_flat40 (v : Byte) : (flat40 v).imgH.toNat = 40 := by rw [flat40, imgH_withImage]; rfl

theorem pixel_flat40 (v : Byte) {x y : Nat} (hx : x < 40) (hy : y < 40) : (flat40 v).pixel x y = v.toNat := by
  have hw := imgW_flat40 v
  have hl : (flat40 v).lmem.lookup (y * 40 + x) = some v := by
    rw [flat40, lmem_withImage, Memory.lookup_writeRange, if_pos (by rw [List.length_replicate]; omega),
      List.getElem?_replicate, if_pos (by omega)]
  simp [State.pixel, State.readLMEM, hw, hl]

/-! ### Witnesses: one for every statement with hypotheses, each clause met -/

theorem witness_StepRunsDecodedCommand :
    (pending (.writeCSR 0 0x100053CA)).host = .writeCSR 0 0x100053CA :: [] ∧ decode 0x100053CA = .ok (.gfadd 0x53 0xCA) ∧
    decodeTableWord 32 0x100053CA = some (.gfadd 0x53 0xCA) ∧ (pending (.readCSR 0)).host = .readCSR 0 :: [] ∧
    (pending (.writeCSR 0 0xFFFFFFFF)).host = .writeCSR 0 0xFFFFFFFF :: [] := by decide

/-- Also for the second clause of `StepRunsDecodedCommand` and the last of `NopOnlyClearsLast`. -/
theorem witness_IllegalWordsRecordIllegalCommand :
    (∀ i, decode 0x2C24A000 ≠ .ok i) ∧ (∀ i, decode 0xFFFFFFFF ≠ .ok i) := by
  refine ⟨fun i h => ?_, fun i h => ?_⟩
  · rw [show decode 0x2C24A000 = .error .pdivSameDestination by decide] at h; cases h
  · rw [show decode 0xFFFFFFFF = .error .unlistedOpcode by decide] at h; cases h

theorem witness_IdleBlockHoldsItsState : State.reset.host = [] := rfl

/-- The last element of each memory and the first index outside it. -/
theorem witness_HostReadsAndReplacesElements :
    ((pending (.readCW 255)).host = .readCW 255 :: [] ∧ (pending (.readCW 256)).host = .readCW 256 :: []) ∧
    ((pending (.writeCW 255 1)).host = .writeCW 255 1 :: [] ∧ (pending (.writeCW 256 1)).host = .writeCW 256 1 :: []) ∧
    ((pending (.readLMEM 16383)).host = .readLMEM 16383 :: [] ∧ (pending (.writeLMEM 16384 1)).host = .writeLMEM 16384 1 :: [] ∧
      (pending (.readLMEM 0)).sizes.lmemSize = 16384) ∧
    ((pending (.readBMEM 512)).host = .readBMEM 512 :: [] ∧ (pending (.writeBMEM 511 1)).host = .writeBMEM 511 1 :: [] ∧
      (pending (.readBMEM 0)).sizes.bmemWords = 512) := by decide

/-- The last CSR and the first number beyond, and a write of each kind of CSR. -/
theorem witness_CsrAccessKeepsOnlyStoredBits :
    (pending (.readCSR 10)).host = .readCSR 10 :: [] ∧ (pending (.readCSR 11)).host = .readCSR 11 :: [] ∧
    (pending (.writeCSR 3 7)).host = .writeCSR 3 7 :: [] ∧ (pending (.writeCSR 5 0x12345)).host = .writeCSR 5 0x12345 :: [] ∧
    (pending (.writeCSR 1 7)).host = .writeCSR 1 7 :: [] ∧ (3 : Nat) ≠ 0 ∧ (5 : Nat) ≠ 0 ∧ (1 : Nat) ≠ 0 := by decide

theorem witness_HardwareResetValues : (pending .hwReset).host = .hwReset :: [] := rfl

theorem witness_CommandSucceedsOrChangesOnlyErrorRecord : Instr.nop ≠ .sreset := by decide

theorem witness_IllegalArgumentExactlyForItsCauses : (withP [1, 2] [3]).polysOk :=
  polysOk_withP ⟨by decide, by decide, .inr (by decide)⟩ (polyOk_const 3)

/-- Each of the codes 2, 3 and 4 is shown by a command. -/
theorem witness_OtherErrorsHaveTheirCommands :
    lastOf (after (.bingr 0) (withImage 2 1 [100, 110])).status = 2 ∧
    lastOf (after (.rsdec 5 2) (withCW [0xAA, 0xBB, 0xCC, 0xDD, 0xEE])).status = 3 ∧
    lastOf (after (.pdiv 1 1 2 3) State.reset).status = 4 ∧ (Instr.pdiv 1 1 2 3).wf = false := by decide +kernel

theorem witness_StickyBitsClearedOnlyByReset :
    let s := { pending (.writeCSR 0 0) with status := 0x100 }
    s.host = .writeCSR 0 0 :: [] ∧ HostAct.writeCSR 0 0 ≠ .hwReset ∧ HostAct.writeCSR 0 0 ≠ .writeCSR 0 0x01000000 ∧
    step s = .next (State.succeed { s with host := [] }) ∧ s.status.getLsbD 8 = true := by
  refine ⟨rfl, by decide, by decide, rfl, by decide⟩

/-- `NOP` meets every premise at once; `PADD` those about `BMEM`, `CW`, `RES`; `GFADD` that about the polynomial registers. -/
theorem witness_CommandsWriteOnlyTheirState :
    Instr.nop ≠ .bingm ∧ (∀ y, Instr.nop ≠ .bingr y) ∧ Instr.nop ≠ .binhm ∧ Instr.nop ≠ .sreset ∧
    (∀ r o, Instr.nop ≠ .pst r o) ∧ (∀ n e, Instr.nop ≠ .rsenc n e) ∧ (∀ n e, Instr.nop ≠ .rsdec n e) ∧
    (∀ a b, Instr.padd 1 2 3 ≠ .gfadd a b) ∧ (∀ r, Instr.gfadd 1 2 ≠ .pzero r) ∧ (∀ r n e, Instr.gfadd 1 2 ≠ .rssyn r n e) := by
  refine ⟨?_, ?_, ?_, ?_, ?_, ?_, ?_, ?_, ?_, ?_⟩ <;> (intros; simp)

theorem witness_ReissuedCommandsChangeNothing : State.reset.memoriesOk ∧ Instr.bingm = .bingm ∧
    (∃ y, Instr.bingr 3 = .bingr y) ∧ ∃ n e, Instr.rsenc 3 4 = .rsenc n e :=
  ⟨⟨by decide, by decide, by decide⟩, rfl, ⟨3, rfl⟩, ⟨3, 4, rfl⟩⟩

theorem witness_NopOnlyClearsLast : (1 : Word).extractLsb' 24 8 = 0 ∧ (1 : Word) ≠ 0 := by decide

theorem witness_FieldIndependentCommands : ∃ r a b, Instr.padd 1 2 3 = .padd r a b := ⟨1, 2, 3, rfl⟩

theorem witness_GfinvGivesTheInverse : (1 : Byte) ≠ 0 ∧ (255 : Byte) ≠ 0 ∧ (0 : Byte) = 0 := by decide

theorem witness_GflogIsTheDiscreteLogarithm : (1 : Byte) ≠ 0 ∧ alphaPower .qr 0 = (1 : Byte).toNat ∧
    alphaPower .dataMatrix 254 = (0x96 : Byte).toNat := by decide +kernel

/-- The longest range that fits and the shortest that does not, at both ends; the empty range. -/
theorem witness_PldLoadsStrippedRange :
    (1 ≤ (255 : Byte).toNat ∧ (1 : Byte).toNat + (255 : Byte).toNat ≤ 256) ∧
    (1 ≤ (1 : Byte).toNat ∧ (255 : Byte).toNat + (1 : Byte).toNat ≤ 256) ∧
    256 < (2 : Byte).toNat + (255 : Byte).toNat ∧ 256 < (255 : Byte).toNat + (2 : Byte).toNat ∧ (0 : Byte) = 0 := by decide

/-- Two coefficients end at the last byte of `CW`, or one byte beyond it. -/
theorem witness_PstStoresCoefficients :
    (254 : Byte).toNat + ((withP [1, 2] [0]).readP 1).length ≤ 256 ∧
    256 < (255 : Byte).toNat + ((withP [1, 2] [0]).readP 1).length := by decide

theorem witness_PdegPcoefReadThePolynomial :
    1 ≤ ((withP [1, 2] [0]).readP 1).length ∧ (1 : Byte).toNat < ((withP [1, 2] [0]).readP 1).length ∧
    ((withP [1, 2] [0]).readP 1).length ≤ (2 : Byte).toNat := by decide

/-- Degrees 127 and 128 add up to 255; 128 and 128 to 256; a zero operand. -/
theorem witness_PmulConvolvesCoefficients :
    ((withP (.replicate 128 1) (.replicate 129 1)).polysOk ∧
      deg ((withP (.replicate 128 1) (.replicate 129 1)).readP 1) +
        deg ((withP (.replicate 128 1) (.replicate 129 1)).readP 2) ≤ 255) ∧
    ((withP (.replicate 129 1) (.replicate 129 1)).polysOk ∧
      255 < deg ((withP (.replicate 129 1) (.replicate 129 1)).readP 1) +
        deg ((withP (.replicate 129 1) (.replicate 129 1)).readP 2) ∧
      (withP (.replicate 129 1) (.replicate 129 1)).readP 1 ≠ [0] ∧
      (withP (.replicate 129 1) (.replicate 129 1)).readP 2 ≠ [0]) ∧
    (withP [0] [1]).readP 1 = [0] := by
  have h : PolyOk (List.replicate 128 (1 : Byte)) := polyOk_replicate (by decide) (by decide)
  have k : PolyOk (List.replicate 129 (1 : Byte)) := polyOk_replicate (by decide) (by decide)
  refine ⟨⟨polysOk_withP h k, ?_⟩, ⟨polysOk_withP k k, ?_, ?_, ?_⟩, by decide⟩
  · rw [readP_withP_1 h, readP_withP_2 k]; simp [deg]
  · rw [readP_withP_1 k, readP_withP_2 k]; simp [deg]
  · rw [readP_withP_1 k]; simp [List.replicate_succ]
  · rw [readP_withP_2 k]; simp [List.replicate_succ]

/-- Two coefficients moved up by 254 fill the register, by 255 they do not fit; the zero cases. -/
theorem witness_PsclPmulmScaleCoefficients :
    (withP [1, 2] [0]).polysOk ∧ ((withP [1, 2] [0]).readP 1).length + (254 : Byte).toNat ≤ 256 ∧
    ((3 : Byte) ≠ 0 ∧ (withP [1, 2] [0]).readP 1 ≠ [0] ∧ 256 < ((withP [1, 2] [0]).readP 1).length + (255 : Byte).toNat) ∧
    (withP [1, 2] [0]).readP 2 = [0] :=
  ⟨polysOk_withP ⟨by decide, by decide, .inr (by decide)⟩ (polyOk_const 0), by decide, by decide, by decide⟩

theorem witness_PdivIsDivisionWithRemainder :
    (withP [1, 2] [3]).polysOk ∧ ((3 : Reg) ≠ 4 ∧ (withP [1, 2] [3]).readP 2 ≠ [0]) ∧
    ((1 : Reg) ≠ 2 ∧ (withP [1, 2] [3]).readP 0 = [0]) ∧ (5 : Reg) = 5 :=
  ⟨polysOk_withP ⟨by decide, by decide, .inr (by decide)⟩ (polyOk_const 3), by decide, by decide, rfl⟩

theorem witness_PseudoInstructionsMeanWhatTheySay :
    (withP [1, 2] [3]).polysOk ∧ (withP [1, 2] [3]).readP 0 = [0] ∧
    ((withP [1, 2] [3]).readP 1).length + (254 : Byte).toNat ≤ 256 :=
  ⟨polysOk_withP ⟨by decide, by decide, .inr (by decide)⟩ (polyOk_const 3), by decide, by decide⟩

theorem witness_RsgenHasItsRoots : 254 < (255 : Byte).toNat ∧ 0 < (1 : Byte).toNat := by decide

/-- Blocks of 255 bytes with the most and the least data; one byte too long; no data; no parity. -/
theorem witness_RsencCompletesACodeword :
    ((254 : Byte) ≠ 0 ∧ (1 : Byte) ≠ 0 ∧ (254 : Byte).toNat + (1 : Byte).toNat ≤ 255 ∧ 0 < (1 : Byte).toNat) ∧
    ((1 : Byte) ≠ 0 ∧ (254 : Byte) ≠ 0 ∧ (1 : Byte).toNat + (254 : Byte).toNat ≤ 255 ∧ 253 < (254 : Byte).toNat) ∧
    255 < (254 : Byte).toNat + (2 : Byte).toNat ∧ (0 : Byte) = 0 := by decide

theorem witness_RssynWritesSyndromes :
    (1 ≤ (1 : Byte).toNat ∧ (1 : Byte).toNat < (2 : Byte).toNat) ∧ (1 ≤ (254 : Byte).toNat ∧ (254 : Byte).toNat < (255 : Byte).toNat) ∧
    (0 : Byte) = 0 ∧ (2 : Byte).toNat ≤ (2 : Byte).toNat := by decide

theorem witness_RsdecTouchesOnlyItsBlock :
    (1 ≤ (1 : Byte).toNat ∧ (1 : Byte).toNat < (2 : Byte).toNat) ∧ (1 ≤ (254 : Byte).toNat ∧ (254 : Byte).toNat < (255 : Byte).toNat) ∧
    (0 : Byte) = 0 ∧ (255 : Byte).toNat ≤ (255 : Byte).toNat := by decide

/-- The loop of R201 on a block of `CW`, from the model. -/
def loopOn (f : Field) (twoS : Nat) (c : List Byte) : Except ErrorCode (Poly × Poly) :=
  euclidLoop f twoS (twoS + 1) (pmulm f [1] twoS 1) (syndromePoly (syndromes f c twoS)) [0] [1]

/-- The limits; then one block for each cause of `CHECKSUM` (`t(0)` = 0; no root of a `t` of degree 2; the one error at x^25 of
a block of 4 bytes) and one that is corrected at x^1. -/
theorem witness_RsdecDecidesEveryBlock :
    (1 ≤ (1 : Byte).toNat ∧ (1 : Byte).toNat < (2 : Byte).toNat) ∧ (1 ≤ (254 : Byte).toNat ∧ (254 : Byte).toNat < (255 : Byte).toNat) ∧
    (loopOn .qr 2 [0, 1, 1] = .ok ([244, 0], [0]) ∧ coeff [244, 0] 0 = 0) ∧
    (loopOn .qr 4 [44, 232, 96, 160, 82, 74, 116, 94, 13] = .ok ([53, 22, 100], [190, 185]) ∧
      errorPowers .qr [53, 22, 100] = [] ∧ coeff [53, 22, 100] 0 ≠ 0 ∧ deg [53, 22, 100] = 2) ∧
    (loopOn .qr 2 [1, 2, 3, 3] = .ok ([167, 150], [167]) ∧ errorPowers .qr [167, 150] = [25]) ∧
    (loopOn .qr 2 [1, 2, 3, 2] = .ok ([71, 173], [71]) ∧ errorPowers .qr [71, 173] = [1] ∧ coeff [71, 173] 0 ≠ 0 ∧
      deg [71, 173] = 1) := by decide +kernel

/-- The block of R207 (2): its syndrome `S_0` is not zero, `S_1` is; and a codeword. -/
theorem witness_RsdecLeavesBlocksWithLowSyndromes :
    let s := withCW [0x12, 0x34, 0x56, 0x99, 0xEA]
    let c := withCW [0x12, 0x34, 0x56, 0x98, 0xE8]
    1 ≤ (2 : Byte).toNat ∧ (2 : Byte).toNat < (5 : Byte).toNat ∧
    (∀ i < (2 : Byte).toNat, (2 : Byte).toNat ≤ 2 * i → polyValue s.fld (s.cwRange 0 5) (syndromePoint s.fld i) = 0) ∧
    polyValue s.fld (s.cwRange 0 5) (syndromePoint s.fld 0) ≠ 0 ∧
    (∀ i < (2 : Byte).toNat, polyValue c.fld (c.cwRange 0 5) (syndromePoint c.fld i) = 0) := by decide +kernel

theorem witness_EuclidLoopStopsWithoutFailure :
    (1 ≤ 1 ∧ PolyOk [0] ∧ ([0] : Poly).length ≤ 1) ∧ (1 ≤ 2 ∧ PolyOk [3, 5] ∧ ([3, 5] : Poly).length ≤ 2) :=
  ⟨⟨by decide, polyOk_const 0, by decide⟩, by decide, ⟨by decide, by decide, .inr (by decide)⟩, by decide⟩

theorem witness_ForneyDenominatorNeverZero : (2 : Byte) ≠ 0 ∧ ∀ r ∈ ([1, 2, 0xFF] : List Byte), r ≠ 0 := by decide

/-- Example 1.2 with one byte of five wrong, and with none. -/
theorem witness_RsdecRestoresCorrectableBlocks :
    1 ≤ ([0x12, 0x34, 0x56] : List Byte).length ∧ 1 ≤ (2 : Byte).toNat ∧
    ([0x12, 0x34, 0x56] : List Byte).length + (2 : Byte).toNat = (5 : Byte).toNat ∧
    (let s := withCW [0x12, 0x43, 0x56, 0x98, 0xE8]
     ((List.range (5 : Byte).toNat).countP fun k =>
      s.readCW k != ([0x12, 0x34, 0x56] ++ rsenc s.fld [0x12, 0x34, 0x56] (2 : Byte).toNat).getD k 0) ≤ (2 : Byte).toNat / 2) := by
  decide +kernel

theorem witness_HistogramsCountTheSampledPixels : 0 < 32 ∧ 31 < 32 := by decide

/-- Peaks 22 apart, and peaks 2 apart. -/
theorem witness_BlackPointIsTheValley :
    let a : List Nat := [0, 0, 0, 8, 0, 0, 0, 0, 0, 0, 0, 0, 0, 0, 0, 0, 0, 0, 0, 0, 0, 0, 0, 0, 0, 8, 0, 0, 0, 0, 0, 0]
    let b : List Nat := [0, 0, 0, 0, 5, 0, 5, 0, 0, 0, 0, 0, 0, 0, 0, 0, 0, 0, 0, 0, 0, 0, 0, 0, 0, 0, 0, 0, 0, 0, 0, 0]
    (a.length = 32 ∧ 2 < max (firstPeak a).1 (secondPeak a (firstPeak a).1) - min (firstPeak a).1 (secondPeak a (firstPeak a).1)) ∧
    (b.length = 32 ∧ max (firstPeak b).1 (secondPeak b (firstPeak b).1) - min (firstPeak b).1 (secondPeak b (firstPeak b).1) ≤ 2) := by
  decide +kernel

/-- Image G1, an image without contrast, an image without pixels. -/
theorem witness_BingmThresholdsTheImage :
    (withImage 10 5 g1).Admits (((withImage 10 5 g1).imgW.toNat + 31) / 32 * (withImage 10 5 g1).imgH.toNat) ∧
    estimateBlackPoint (histogram (withImage 10 5 g1).matrixSamples) = .ok 144 ∧
    (withImage 5 1 [9, 9, 9, 9, 9]).Admits (((withImage 5 1 [9, 9, 9, 9, 9]).imgW.toNat + 31) / 32 * 1) ∧
    estimateBlackPoint (histogram (withImage 5 1 [9, 9, 9, 9, 9]).matrixSamples) = .error .notFound ∧
    ¬ (withImage 0 1 []).Admits 0 := by
  unfold State.Admits; decide +kernel

/-- The last row of G1, a row of two pixels, a row without contrast, the first row number that is too large. -/
theorem witness_BingrThresholdsTheSharpenedRow :
    let s := withImage 10 5 g1
    let n := withImage 2 1 [10, 200]
    let e := withImage 2 1 [100, 110]
    (s.Admits ((s.imgW.toNat + 31) / 32) ∧ (4 : Half).toNat < s.imgH.toNat ∧
      ∃ bp, estimateBlackPoint (histogram ((List.range s.imgW.toNat).map fun x => s.pixel x (4 : Half).toNat)) = .ok bp) ∧
    (n.Admits ((n.imgW.toNat + 31) / 32) ∧ (0 : Half).toNat < n.imgH.toNat ∧ n.imgW.toNat < 3 ∧
      ∃ bp, estimateBlackPoint (histogram ((List.range n.imgW.toNat).map fun x => n.pixel x (0 : Half).toNat)) = .ok bp) ∧
    (e.Admits ((e.imgW.toNat + 31) / 32) ∧
      estimateBlackPoint (histogram ((List.range e.imgW.toNat).map fun x => e.pixel x (0 : Half).toNat)) = .error .notFound) ∧
    s.imgH.toNat ≤ (5 : Half).toNat := by
  refine ⟨⟨?_, by decide, ⟨144, by decide +kernel⟩⟩, ⟨?_, by decide, by decide, ⟨136, by decide +kernel⟩⟩, ⟨?_, by decide +kernel⟩, by decide⟩ <;>
    (unfold State.Admits; decide +kernel)

/-- 39 columns are too few whatever the rows. -/
theorem witness_BinhmFallsBackToBingm : (withImage 39 40 []).imgW.toNat < 40 ∧ (withImage 40 39 []).imgH.toNat < 40 := by decide

theorem admits_flat40 (v : Byte) : (flat40 v).Admits (((flat40 v).imgW.toNat + 31) / 32 * (flat40 v).imgH.toNat) := by
  refine ⟨?_, ?_, ?_, ?_⟩
  · rw [flat40, imgW_withImage]; decide
  · rw [flat40, imgH_withImage]; decide
  · rw [imgW_flat40, imgH_flat40, flat40, sizes_withImage]; decide
  · rw [imgW_flat40, imgH_flat40, flat40, sizes_withImage]; decide

/-- The last pixel of a 41-pixel side lies in the two last blocks of it; the smallest hybrid image. -/
theorem witness_BinhmThresholdsByBlock (v : Byte) :
    40 ≤ (flat40 v).imgW.toNat ∧ 40 ≤ (flat40 v).imgH.toNat ∧
    (flat40 v).Admits (((flat40 v).imgW.toNat + 31) / 32 * (flat40 v).imgH.toNat) ∧
    (let s := withImage 41 40 []
     s.Admits ((s.imgW.toNat + 31) / 32 * s.imgH.toNat) ∧ 39 < s.imgW.toNat ∧ 5 < blockCount s.imgW.toNat ∧
      min (8 * 5) (s.imgW.toNat - 8) ≤ 39 ∧ 39 < min (8 * 5) (s.imgW.toNat - 8) + 8 ∧ 39 / 8 ≠ 5) :=
  ⟨(imgW_flat40 v).ge, (imgH_flat40 v).ge, admits_flat40 v, ⟨by decide, by decide, by decide, by decide⟩, by decide, by decide, by decide,
    by decide, by decide⟩

/-- An inner block of a flat image. -/
theorem witness_BlockBlackPoints (v : Byte) :
    4 < ((flat40 v).imgW.toNat + 7) / 8 ∧ 1 < ((flat40 v).imgH.toNat + 7) / 8 ∧
    (∃ x y, 32 ≤ x ∧ x < 32 + 8 ∧ 8 ≤ y ∧ y < 8 + 8 ∧ (flat40 v).pixel x y = v.toNat) ∧
    (∀ x y, 32 ≤ x → x < 32 + 8 → 8 ≤ y → y < 8 + 8 → v.toNat ≤ (flat40 v).pixel x y ∧ (flat40 v).pixel x y ≤ v.toNat) ∧
    min (8 * 4) ((flat40 v).imgW.toNat - 8) = 32 ∧ min (8 * 1) ((flat40 v).imgH.toNat - 8) = 8 := by
  refine ⟨by rw [imgW_flat40]; decide, by rw [imgH_flat40]; decide, ?_, fun x y _ hx _ hy => ?_,
    by rw [imgW_flat40]; decide, by rw [imgH_flat40]; decide⟩
  · exact ⟨32, 8, by decide, by decide, by decide, by decide, pixel_flat40 v (by decide) (by decide)⟩
  · rw [pixel_flat40 v hx (by omega)]; exact ⟨le_refl _, le_refl _⟩

theorem witness_UniformImages (v : Byte) :
    (flat40 v).Admits (((flat40 v).imgW.toNat + 31) / 32 * (flat40 v).imgH.toNat) ∧
    (∀ x < (flat40 v).imgW.toNat, ∀ y < (flat40 v).imgH.toNat, (flat40 v).pixel x y = v.toNat) ∧
    40 ≤ (flat40 v).imgW.toNat ∧ 40 ≤ (flat40 v).imgH.toNat :=
  ⟨admits_flat40 v, fun _ hx _ hy => pixel_flat40 v (by rwa [imgW_flat40] at hx) (by rwa [imgH_flat40] at hy),
    (imgW_flat40 v).ge, (imgH_flat40 v).ge⟩

theorem witness_StepKeepsPolynomialRegistersNormal :
    (withP [1, 2] [3]).polysOk ∧ step (withP [1, 2] [3]) = .next (withP [1, 2] [3]) :=
  ⟨polysOk_withP ⟨by decide, by decide, .inr (by decide)⟩ (polyOk_const 3), rfl⟩

theorem witness_StepKeepsStatusLegal :
    let s := { pending (.writeCSR 0 0) with status := 0x904 }
    s.statusOk ∧ step s = .next (State.succeed { s with host := [] }) := by
  refine ⟨?_, rfl⟩
  unfold State.statusOk; decide

/-- A state with something in every part of it, and a command pending. -/
theorem witness_StepKeepsInvariant :
    let s := { withP [1, 2] [3] with
      status := 0x101, res := 256, outW := 33, outH := 2, outRs := 2, blackPt := 240, host := [.writeCSR 0 0],
      cw := Memory.writeRange [] 254 [1, 2], lmem := [(16383, 7)], bmem := [(0, 1), (511, 2)] }
    s.Inv ∧ step s = .next (State.succeed { s with host := [] }) := by
  refine ⟨⟨?_, ⟨by decide, by decide, by decide⟩, ?_, ?_, by decide, by decide⟩, rfl⟩
  · exact polysOk_withP (p := [1, 2]) (q := [3]) ⟨by decide, by decide, .inr (by decide)⟩ (polyOk_const 3)
  · unfold State.statusOk; decide
  · unfold State.resultsOk; decide

end Sys2Proof.Tests
end

/-! The family of spec/10_state.md: the invariant, the frames of commands and steps, `STATUS`, the CSR map and reset. -/

namespace Sys2Proof.Machine

/-! ### Stripped polynomials and the remainder of a division (R22, R151, R158) -/

theorem stripped_norm (l : List Byte) : Stripped (norm l) := ⟨length_norm_pos l, norm_normal l⟩

theorem stripped_pmulm (f : Field) (p : Poly) (d : Nat) (c : Byte) : Stripped (pmulm f p d c) := by
  unfold pmulm
  split
  · exact ⟨le_rfl, .inl rfl⟩
  · exact stripped_norm _

/-- Only the constant zero polynomial is stripped and zero. -/
theorem Stripped.length_of_isZero {p : Poly} (hp : Stripped p) (hz : isZero p = true) : p.length = 1 :=
  hp.2.resolve_right fun h => h (by simpa [isZero] using hz)

theorem length_pos_of_headD_ne_zero {p : List Byte} (h : p.headD 0 ≠ 0) : 0 < p.length :=
  List.length_pos_of_ne_nil fun hp => h (by rw [hp]; rfl)

/-- A list with a zero in front loses it, or is zero. -/
theorem isZero_norm_or_length_norm_lt {l : List Byte} (h : l.headD 0 = 0) :
    isZero (norm l) = true ∨ (norm l).length < l.length := by
  match l, h with
  | [], _ => exact .inl rfl
  | [a], h => exact .inl (by simpa [norm, isZero] using h)
  | a :: b :: l, h =>
    obtain rfl : a = 0 := h
    have hle := length_norm_le (b :: l)
    refine .inr ?_
    rw [show norm (0 :: b :: l) = norm (b :: l) by simp [norm]]
    simp only [List.length_cons] at hle ⊢
    omega

/-- The leading coefficient of the sum of two lists of the same length (R153). -/
theorem headD_xorAligned {p q : List Byte} (h : p.length = q.length) :
    (xorAligned p q).headD 0 = p.headD 0 ^^^ q.headD 0 := by
  match p, q, h with
  | [], [], _ => rfl
  | a :: p, b :: q, h => simp_all [xorAligned, gadd]

/-- A non-zero multiple by `c·x^d` is `d` coefficients longer, and its leading coefficient is scaled by `c` (R156). -/
theorem pmulm_length_head (f : Field) {p : Poly} (d : Nat) {c : Byte} (hp : p.headD 0 ≠ 0) (hc : c ≠ 0) :
    (pmulm f p d c).length = p.length + d ∧ (pmulm f p d c).headD 0 = gmul f (p.headD 0) c := by
  obtain _ | ⟨a, p⟩ := p
  · simp at hp
  · have hnorm : norm ((a :: p).map (fun x => gmul f x c) ++ List.replicate d 0) = _ :=
      norm_eq_self (by simp) (.inr (by simpa using gmul_ne_zero f hp hc))
    rw [pmulm, if_neg hc, hnorm]
    exact ⟨by simp [Nat.add_right_comm], rfl⟩

theorem ginv_ne_zero (f : Field) (a : Byte) : ginv f a ≠ 0 := gexp_ne_zero f (by omega)

/-- Multiplying `b ≠ 0` by `a / b` gives `a` (R126). -/
theorem gmul_gmul_ginv (f : Field) {a b : Byte} (ha : a ≠ 0) (hb : b ≠ 0) : gmul f b (gmul f a (ginv f b)) = a := by
  have hinv := ginv_ne_zero f b
  have hlog : glog f (ginv f b) = (255 - glog f b) % 255 := by
    rcases Nat.eq_zero_or_pos (glog f b) with h | h
    · simp only [ginv, h, Nat.sub_zero, gexp_255]
      rw [← gexp_zero f, glog_gexp f (by omega)]
    · rw [ginv, glog_gexp f (by omega), Nat.mod_eq_of_lt (by omega)]
  have hla := glog_lt f ha
  have hlb := glog_lt f hb
  rw [gmul_of_ne_zero f hb (gmul_ne_zero f ha hinv), glog_gmul f ha hinv, hlog,
    show (glog f b + (glog f a + (255 - glog f b) % 255) % 255) % 255 = glog f a by omega, gexp_glog f ha]

/-- One pass of R158 cancels the leading coefficient of the remainder. -/
theorem isZero_or_length_lt_of_pass (f : Field) {b r : Poly} (hb : b.headD 0 ≠ 0) (hdeg : deg b ≤ deg r)
    (hr : isZero r = false) :
    let r' := padd r (pmulm f b (deg r - deg b) (gmul f (r.headD 0) (ginv f (b.headD 0))))
    isZero r' = true ∨ r'.length < r.length := by
  intro r'
  have hr0 : r.headD 0 ≠ 0 := by simpa [isZero] using hr
  obtain ⟨hlen, hhead⟩ := pmulm_length_head f (deg r - deg b) hb (gmul_ne_zero f hr0 (ginv_ne_zero f _))
  have hb1 := length_pos_of_headD_ne_zero hb
  have hr1 := length_pos_of_headD_ne_zero hr0
  simp only [deg] at hdeg
  have heq : r.length = (pmulm f b (deg r - deg b) (gmul f (r.headD 0) (ginv f (b.headD 0)))).length := by
    rw [hlen]
    simp only [deg]
    omega
  have hcancel : (xorAligned r (pmulm f b (deg r - deg b) (gmul f (r.headD 0) (ginv f (b.headD 0))))).headD 0 = 0 := by
    rw [headD_xorAligned heq, hhead, gmul_gmul_ginv f hr0 hb]
    exact BitVec.xor_self
  have h := isZero_norm_or_length_norm_lt hcancel
  rwa [length_xorAligned, ← heq, max_self] at h

/-- The loop of R158 ends with a stripped remainder that is zero or shorter than the divisor. -/
theorem pdivLoop_remainder (f : Field) {b : Poly} (hb : b.headD 0 ≠ 0) (fuel : Nat) (q : Poly) {r : Poly} (hr : Stripped r)
    (hfuel : isZero r = true ∨ r.length < fuel + b.length) :
    let r' := (pdivLoop f b (ginv f (b.headD 0)) fuel q r).2
    Stripped r' ∧ (isZero r' = true ∨ r'.length < b.length) := by
  induction fuel generalizing q r with
  | zero => exact ⟨hr, hfuel.imp_right fun h => by rwa [Nat.zero_add] at h⟩
  | succ fuel ih =>
    simp only [pdivLoop]
    split
    · next h =>
      refine ih _ (stripped_norm _) ((isZero_or_length_lt_of_pass f hb h.1 h.2).imp_right fun hlt => ?_)
      have := hfuel.resolve_left (by simp [h.2])
      exact lt_of_lt_of_le hlt (by omega)
    · next h =>
      refine ⟨hr, or_iff_not_imp_left.2 fun hz => ?_⟩
      have hlt : ¬ deg b ≤ deg r := fun hd => h ⟨hd, by simpa using hz⟩
      have := hr.1
      simp only [deg] at hlt ⊢
      omega

/-- The remainder is zero or of lower degree than the divisor (R158). -/
theorem pdiv_remainder (f : Field) {a b : Poly} (ha : Stripped a) (hb : b.headD 0 ≠ 0) :
    Stripped (pdiv f a b).2 ∧ (isZero (pdiv f a b).2 = true ∨ (pdiv f a b).2.length < b.length) := by
  have := length_pos_of_headD_ne_zero hb
  exact pdivLoop_remainder f hb _ _ ha (.inr (by omega))

/-! ### Lengths of the results of the codec (R192 to R198) -/

/-- The leading coefficient of a product before stripping (R154). -/
theorem headD_convolve (f : Field) {p q : List Byte} (hp : p ≠ []) (hq : q ≠ []) :
    (convolve f p q).headD 0 = gmul f (p.headD 0) (q.headD 0) := by
  obtain ⟨a, p, rfl⟩ := List.exists_cons_of_ne_nil hp
  obtain ⟨b, q, rfl⟩ := List.exists_cons_of_ne_nil hq
  simp [convolve, xorFront, gadd]

/-- The product of polynomials with non-zero leading coefficients has one too, and the degrees add up (R154). -/
theorem pmul_length_head (f : Field) {p q : Poly} (hp : p.headD 0 ≠ 0) (hq : q.headD 0 ≠ 0) :
    (pmul f p q).length = p.length + q.length - 1 ∧ (pmul f p q).headD 0 = gmul f (p.headD 0) (q.headD 0) := by
  have hlp := length_pos_of_headD_ne_zero hp
  have hlq := length_pos_of_headD_ne_zero hq
  have hlen := length_convolve f p q hlp hlq
  have hhead := headD_convolve f (List.ne_nil_of_length_pos hlp) (List.ne_nil_of_length_pos hlq)
  have heq : pmul f p q = convolve f p q := by
    have hz : (isZero p || isZero q) = false := by simpa [isZero] using And.intro hp hq
    rw [pmul, hz]
    exact norm_eq_self (by omega) (.inr (by rw [hhead]; exact gmul_ne_zero f hp hq))
  rw [heq]
  exact ⟨hlen, hhead⟩

/-- `gen(k)` has degree `k` and a non-zero leading coefficient (R193). -/
theorem gen_length_head (f : Field) (k : Nat) : (gen f k).length = k + 1 ∧ (gen f k).headD 0 ≠ 0 := by
  induction k with
  | zero => simp [gen]
  | succ k ih =>
    obtain ⟨hlen, hhead⟩ := ih
    have h1 : ([1, gexp f ((k + f.base) % 255)] : Poly).headD 0 ≠ 0 := by simp
    obtain ⟨hl, hh⟩ := pmul_length_head f hhead h1
    refine ⟨by rw [gen, hl, hlen]; rfl, ?_⟩
    rw [gen, hh]
    exact gmul_ne_zero f hhead h1

/-- `rsenc` gives `ec` bytes: the remainder by `gen(ec)` has no more (R192). -/
theorem length_rsenc (f : Field) (data : List Byte) {ec : Nat} (hec : 1 ≤ ec) : (rsenc f data ec).length = ec := by
  obtain ⟨hlen, hhead⟩ := gen_length_head f ec
  obtain ⟨hs, hr⟩ := pdiv_remainder f (stripped_pmulm f (norm data) ec 1) hhead
  have hle : (pdiv f (pmulm f (norm data) ec 1) (gen f ec)).2.length ≤ ec := by
    rcases hr with hz | hlt
    · have := hs.length_of_isZero hz
      omega
    · omega
  simp only [rsenc, List.length_append, List.length_replicate]
  omega

@[simp] theorem length_syndromes (f : Field) (c : List Byte) (twoS : Nat) : (syndromes f c twoS).length = twoS := by
  simp [syndromes]

/-- The corrections keep the block's length (R198). -/
theorem length_of_correctAll {f : Field} {omega : Poly} {roots rs : List Byte} {n : Nat} {c c' : List Byte}
    (h : correctAll f omega roots n rs c = .ok c') : c'.length = c.length := by
  induction rs generalizing c with
  | nil => injection h with h; rw [h]
  | cons rho rest ih =>
    simp only [correctAll] at h
    split at h
    · cases h
    · simpa using ih h

theorem length_of_correctBlock {f : Field} {c syn c' : List Byte} {n twoS : Nat}
    (h : correctBlock f c syn n twoS = .ok c') : c'.length = c.length := by
  unfold correctBlock at h
  split at h
  · cases h
  · split at h
    · cases h
    · exact length_of_correctAll h

/-! ### The range of the black point (R36, R236 to R239) -/

theorem firstPeak_lt (count : List Nat) : (firstPeak count).1 < 32 := by
  rcases foldl_greatest id (bucket count) (0, 0) 32 with ⟨h, -⟩ | ⟨d, hd, h, -⟩
  · rw [show firstPeak count = (0, 0) from h]
    decide
  · rw [show firstPeak count = (d, bucket count d) from h]
    exact hd

theorem secondPeak_lt (count : List Nat) {first : Nat} (hf : first < 32) : secondPeak count first < 32 := by
  rcases foldl_greatest id (peakScore count first) (first, 0) 32 with ⟨h, -⟩ | ⟨d, hd, h, -⟩
  · rwa [show secondPeak count first = first from congrArg Prod.fst h]
  · rwa [show secondPeak count first = d from congrArg Prod.fst h]

/-- The valley is strictly between the peaks (R238). -/
theorem valley_between (count : List Nat) (maxCount : Nat) {lo hi : Nat} (h : 2 < hi - lo) :
    lo < valley count maxCount lo hi ∧ valley count maxCount lo hi < hi := by
  rcases foldl_greatest (fun d => hi - 1 - d) (fun d => valleyScore count maxCount lo hi (hi - 1 - d)) (hi - 1, -1)
    (hi - lo - 1) with ⟨hv, -⟩ | ⟨d, hd, hv, -⟩
  · rw [show valley count maxCount lo hi = hi - 1 from congrArg Prod.fst hv]
    omega
  · rw [show valley count maxCount lo hi = hi - 1 - d from congrArg Prod.fst hv]
    omega

/-- A black point is a multiple of 8 from 8 to 240 (R36). -/
theorem estimateBlackPoint_range {count : List Nat} {bp : Nat} (h : estimateBlackPoint count = .ok bp) :
    8 ∣ bp ∧ 8 ≤ bp ∧ bp ≤ 240 := by
  have h1 := firstPeak_lt count
  have h2 := secondPeak_lt count h1
  simp only [estimateBlackPoint] at h
  split at h
  · cases h
  · next hsep =>
    injection h with h
    subst h
    obtain ⟨hlo, hhi⟩ := valley_between count (firstPeak count).2 (not_le.1 hsep)
    exact ⟨dvd_mul_right _ _, by omega, by omega⟩

/-! ### What a successful command writes, with the bounds of what it writes -/

/-- What a command leaves in `s` before `STATUS` is updated, as `Effect` says it, with the bounds that make it fit: `RES` at
most 256 (R29), at most `PCAP` coefficients (R159), inside `CW` and `BMEM` (R38, R40), black points in range (R36). -/
inductive Writes (s : State) : State → Prop
  | nothing : Writes s s
  | reset : Writes s s.resetRegisters
  | res {v : Nat} (hv : v ≤ 256) : Writes s (s.writeRES v)
  | poly (rd : Reg) {v : Poly} (hv : v.length ≤ Config.pcap) : Writes s (s.writeP rd v)
  | polys (rd re : Reg) {q r : Poly} (hq : q.length ≤ Config.pcap) (hr : r.length ≤ Config.pcap) :
      Writes s ((s.writeP rd q).writeP re r)
  | cw {i : Nat} {vs : List Byte} (h : i + vs.length ≤ Config.cwSize) : Writes s (s.writeCW i vs)
  | cwRes {i : Nat} {vs : List Byte} {v : Nat} (h : i + vs.length ≤ Config.cwSize) (hv : v ≤ 256) :
      Writes s ((s.writeCW i vs).writeRES v)
  | output {w : Nat} (h : Nat) {ws : List Word} (hw : w < 2 ^ 16) (hws : ws.length ≤ s.sizes.bmemWords) :
      Writes s (s.writeOutput w h ws)
  | outputBlackPt {w : Nat} (h : Nat) {ws : List Word} {bp : Nat} (hw : w < 2 ^ 16) (hws : ws.length ≤ s.sizes.bmemWords)
      (hbp : 8 ∣ bp ∧ 8 ≤ bp ∧ bp ≤ 240) : Writes s ((s.writeOutput w h ws).writeBlackPt bp)

theorem byte_le_256 (b : Byte) : b.toNat ≤ 256 := Nat.le_of_lt b.isLt

theorem deg_le_of_polyOk {p : Poly} (h : PolyOk p) : deg p ≤ 256 := (Nat.sub_le _ _).trans h.2.1

theorem writes_writeCapped {s u : State} {rd : Reg} {r : Poly} (h : s.writeCapped rd r = .ok u) : Writes s u := by
  unfold State.writeCapped at h
  split at h
  · cases h
  · next hcap =>
    cases h
    exact .poly rd (not_lt.1 hcap)

/-- Quotient and remainder fit in a register when the dividend does (R171). -/
theorem length_pdiv_le (f : Field) {a b : Poly} (ha : PolyOk a) (hb : PolyOk b) :
    (pdiv f a b).1.length ≤ Config.pcap ∧ (pdiv f a b).2.length ≤ Config.pcap := by
  obtain ⟨hq, hr⟩ := length_pdivLoop_le f b (ginv f (b.headD 0)) ha.1 hb.1 a.length [0] a ha.1 le_rfl
  exact ⟨hq.trans ha.2.1, hr.trans ha.2.1⟩

/-- An admitted output fits in `BMEM` (R231). -/
theorem le_bmemWords_of_admitted {s : State} {n : Nat} (h : ¬ s.inadmissible n = true) : n ≤ s.sizes.bmemWords := by
  rw [inadmissible_iff, not_not] at h
  exact h.2.2.2

theorem writes_globalMatrix {s u : State} (hadm : ¬ s.inadmissible s.matrixWords = true) (h : s.globalMatrix = .ok u) :
    Writes s u := by
  unfold State.globalMatrix at h
  split at h
  · cases h
  · next bp hbp =>
    cases h
    exact .outputBlackPt _ s.imgW.isLt ((length_packMatrix _ _ _).trans_le (le_bmemWords_of_admitted hadm))
      (estimateBlackPoint_range hbp)

theorem writes_hybridMatrix {s : State} (hadm : ¬ s.inadmissible s.matrixWords = true) : Writes s s.hybridMatrix :=
  .output _ s.imgW.isLt ((length_packMatrix _ _ _).trans_le (le_bmemWords_of_admitted hadm))

/-- `ends_of_finish` for `Writes`: it is enough to look at the state the pseudocode leaves. -/
theorem writes_of_finish {i : Instr} {s : State} {r : Except ErrorCode State} (h : exec i s = finish i s r)
    (hr : ∀ u, r = .ok u → Writes s u) :
    (∃ c, exec i s = .next (s.raise c (encode i))) ∨ ∃ u, exec i s = .next u.succeed ∧ Writes s u := by
  cases r with
  | ok u => exact .inr ⟨u, h, hr u rfl⟩
  | error c => exact .inl ⟨c, h⟩

/-- `exec_cases` with bounds: from normal polynomial registers a command records an error or makes a write that fits. -/
theorem exec_writes (i : Instr) {s : State} (hs : s.polysOk) :
    (∃ c, exec i s = .next (s.raise c (encode i))) ∨ ∃ u, exec i s = .next u.succeed ∧ Writes s u := by
  cases i with
  | nop => exact .inr ⟨_, rfl, .nothing⟩
  | sreset => exact .inr ⟨_, rfl, .reset⟩
  | gfadd a b => exact .inr ⟨_, rfl, .res (byte_le_256 _)⟩
  | gfmul a b => exact .inr ⟨_, rfl, .res (byte_le_256 _)⟩
  | gfexp a => exact .inr ⟨_, rfl, .res (byte_le_256 _)⟩
  | pdeg ra => exact .inr ⟨_, rfl, .res (deg_le_of_polyOk (hs ra))⟩
  | peval ra a => exact .inr ⟨_, rfl, .res (byte_le_256 _)⟩
  | pzero rd => exact .inr ⟨_, rfl, .poly rd (by simp [Config.pcap])⟩
  | pone rd => exact .inr ⟨_, rfl, .poly rd (by simp [Config.pcap])⟩
  | padd rd ra rb =>
    have hle := length_padd_le (s.readP ra) (s.readP rb)
    obtain ⟨-, ha, -⟩ := hs ra
    obtain ⟨-, hb, -⟩ := hs rb
    exact .inr ⟨_, rfl, .poly rd (hle.trans (max_le (by decide) (max_le ha hb)))⟩
  | pscl rd ra c =>
    obtain ⟨-, ha, -⟩ := hs ra
    exact .inr ⟨_, rfl, .poly rd ((length_pscl_le _ _ c).trans (max_le (by decide) ha))⟩
  | rsgen rd k =>
    exact .inr ⟨_, rfl, .poly rd ((gen_length_head s.fld k.toNat).1.trans_le k.isLt)⟩
  | gfinv a =>
    refine writes_of_finish (show exec _ s = execGfinv a s from rfl) fun u hu => ?_
    split at hu
    · cases hu
    · cases hu; exact .res (byte_le_256 _)
  | gflog a =>
    refine writes_of_finish (show exec _ s = execGflog a s from rfl) fun u hu => ?_
    split at hu
    · cases hu
    · next ha =>
      have := glog_lt s.fld ha
      cases hu; exact .res (by omega)
  | pld rd off len =>
    refine writes_of_finish (show exec _ s = execPld rd off len s from rfl) fun u hu => ?_
    split at hu
    · cases hu
    · cases hu; exact .poly rd (by simpa using byte_le_256 len)
  | pst ra off =>
    refine writes_of_finish (show exec _ s = execPst ra off s from rfl) fun u hu => ?_
    split at hu
    · cases hu
    · next hfit => cases hu; exact .cwRes (not_lt.1 hfit) (hs ra).2.1
  | pcoef ra k =>
    refine writes_of_finish (show exec _ s = execPcoef ra k s from rfl) fun u hu => ?_
    split at hu
    · cases hu
    · cases hu; exact .res (byte_le_256 _)
  | pmul rd ra rb => exact writes_of_finish (show exec _ s = execPmul rd ra rb s from rfl) fun u => writes_writeCapped
  | pmulm rd ra d c => exact writes_of_finish (show exec _ s = execPmulm rd ra d c s from rfl) fun u => writes_writeCapped
  | pdiv rd re ra rb =>
    refine writes_of_finish (show exec _ s = execPdiv rd re ra rb s from rfl) fun u hu => ?_
    split at hu
    · cases hu
    · split at hu
      · cases hu
      · obtain ⟨hq, hr⟩ := length_pdiv_le s.fld (hs ra) (hs rb)
        cases hu; exact .polys rd re hq hr
  | rsenc nd ec =>
    refine writes_of_finish (show exec _ s = execRsenc nd ec s from rfl) fun u hu => ?_
    split at hu
    · cases hu
    · next hlim =>
      simp only [Config.nmax, not_or, not_lt] at hlim
      obtain ⟨-, hec, hsum⟩ := hlim
      have hlen := length_rsenc s.fld (s.cwRange 0 nd.toNat) (ec := ec.toNat) (by bv_omega)
      cases hu
      exact .cw (by rw [hlen, Config.cwSize]; omega)
  | rsdec n twoS =>
    refine writes_of_finish (show exec _ s = execRsdec n twoS s from rfl) fun u hu => ?_
    split at hu
    · cases hu
    · dsimp only at hu
      split at hu
      · cases hu; exact .nothing
      · split at hu
        · cases hu
        · next c' hc =>
          have hlen := (length_of_correctBlock hc).trans (length_cwRange s 0 n.toNat)
          cases hu
          exact .cw (by rw [hlen, Nat.zero_add]; exact byte_le_256 n)
  | rssyn rd n twoS =>
    refine writes_of_finish (show exec _ s = execRssyn rd n twoS s from rfl) fun u hu => ?_
    split at hu
    · cases hu
    · have hlen := length_norm_le (syndromes s.fld (s.cwRange 0 n.toNat) twoS.toNat).reverse
      simp only [List.length_reverse, length_syndromes] at hlen
      cases hu
      exact .poly rd (hlen.trans (max_le (by decide) (byte_le_256 twoS)))
  | bingm =>
    refine writes_of_finish (show exec _ s = execBingm s from rfl) fun u hu => ?_
    split at hu
    · cases hu
    · next hadm => exact writes_globalMatrix hadm hu
  | bingr y =>
    refine writes_of_finish (show exec _ s = execBingr y s from rfl) fun u hu => ?_
    split at hu
    · cases hu
    · next hadm =>
      split at hu
      · cases hu
      · next bp hbp =>
        simp only [Bool.or_eq_true, not_or] at hadm
        cases hu
        exact .outputBlackPt 1 s.imgW.isLt ((length_packRow _ _).trans_le (le_bmemWords_of_admitted hadm.1))
          (estimateBlackPoint_range hbp)
  | binhm =>
    refine writes_of_finish (show exec _ s = execBinhm s from rfl) fun u hu => ?_
    split at hu
    · cases hu
    · next hadm =>
      split at hu
      · exact writes_globalMatrix hadm hu
      · cases hu; exact writes_hybridMatrix hadm

/-! ### Writes keep the parts of the invariant (R22, R29, R35, R36, R38 to R40) -/

theorem polysOk_congr {s t : State} (h : t.p = s.p) (hs : s.polysOk) : t.polysOk := by
  unfold State.polysOk State.readP
  rw [h]
  exact hs

theorem polysOk_of_reset {s : State} (h : s.p = Vector.replicate 8 [0]) : s.polysOk := by
  intro r
  have : s.readP r = [0] := by simp [State.readP, h]
  rw [this]
  exact ⟨by simp, by simp [Config.pcap], .inl rfl⟩

theorem polysOk_writeP {s : State} {v : Poly} (rd : Reg) (hv : v.length ≤ Config.pcap) (hs : s.polysOk) :
    (s.writeP rd v).polysOk := by
  intro r
  by_cases h : r = rd
  · subst h
    rw [readP_writeP_self]
    exact polyOk_norm hv
  · rw [readP_writeP_ne _ _ h]
    exact hs r

theorem Writes.polysOk {s u : State} (h : Writes s u) (hs : s.polysOk) : u.polysOk := by
  cases h with
  | nothing => exact hs
  | reset => exact polysOk_of_reset rfl
  | poly rd hv => exact polysOk_writeP rd hv hs
  | polys rd re hq hr => exact polysOk_writeP re hr (polysOk_writeP rd hq hs)
  | res | cw | cwRes | output | outputBlackPt => exact polysOk_congr rfl hs

theorem Writes.sizes {s u : State} (h : Writes s u) : u.sizes = s.sizes := by cases h <;> rfl

theorem Writes.memoriesOk {s u : State} (h : Writes s u) (hs : s.memoriesOk) : u.memoriesOk := by
  obtain ⟨hcw, hlmem, hbmem⟩ := hs
  cases h with
  | cw hvs => exact ⟨Memory.wf_writeRange hcw hvs, hlmem, hbmem⟩
  | cwRes hvs hv => exact ⟨Memory.wf_writeRange hcw hvs, hlmem, hbmem⟩
  | output k hw hws => exact ⟨hcw, hlmem, Memory.wf_writeRange hbmem (by rwa [Nat.zero_add])⟩
  | outputBlackPt k hw hws hbp => exact ⟨hcw, hlmem, Memory.wf_writeRange hbmem (by rwa [Nat.zero_add])⟩
  | nothing | reset | res | poly | polys => exact ⟨hcw, hlmem, hbmem⟩

/-- `OUT_RS` is ⌈`OUT_W`/32⌉ in its 12 bits (R35). -/
theorem toNat_outRs_of_lt {w : Nat} (hw : w < 2 ^ 16) :
    (BitVec.ofNat 12 (rowWords w)).toNat = ((BitVec.ofNat 16 w).toNat + 31) / 32 := by
  simp only [BitVec.toNat_ofNat, rowWords]
  omega

theorem Writes.resultsOk {s u : State} (h : Writes s u) (hs : s.resultsOk) : u.resultsOk := by
  obtain ⟨hres, hout, hbp⟩ := hs
  cases h with
  | nothing | poly | polys | cw => exact ⟨hres, hout, hbp⟩
  | reset => exact ⟨by simp, by simp, .inl rfl⟩
  | res hv => exact ⟨(Nat.mod_le _ _).trans hv, hout, hbp⟩
  | cwRes hvs hv => exact ⟨(Nat.mod_le _ _).trans hv, hout, hbp⟩
  | output k hw hws => exact ⟨hres, toNat_outRs_of_lt hw, hbp⟩
  | @outputBlackPt w k ws bp hw hws hrange =>
    obtain ⟨hdvd, hlo, hhi⟩ := hrange
    have hmod : (BitVec.ofNat 8 bp).toNat = bp := Nat.mod_eq_of_lt (by omega)
    refine ⟨hres, toNat_outRs_of_lt hw, .inr ?_⟩
    rw [State.writeBlackPt_blackPt, hmod]
    exact ⟨hdvd, hlo, hhi⟩

/-! ### STATUS stays legal (R28, R281, R284) -/

theorem getLsbD_reservedMask (n : Nat) : (0xFFFFF0F0 : Word).getLsbD n = decide (4 ≤ n ∧ n < 8 ∨ 12 ≤ n ∧ n < 32) := by
  by_cases h : n < 32
  · have : ∀ k < 32, (0xFFFFF0F0 : Word).getLsbD k = decide (4 ≤ k ∧ k < 8 ∨ 12 ≤ k ∧ k < 32) := by decide
    exact this n h
  · rw [BitVec.getLsbD_of_ge _ _ (by omega)]
    simp
    omega

/-- The reserved bits of `STATUS` are 7:4 and 31:12 (R28). -/
theorem reserved_eq_zero_iff (st : Word) :
    st &&& 0xFFFFF0F0 = 0 ↔ ∀ n, 4 ≤ n ∧ n < 8 ∨ 12 ≤ n ∧ n < 32 → st.getLsbD n = false := by
  have hbit : ∀ n, (st &&& 0xFFFFF0F0).getLsbD n =
      (st.getLsbD n && decide (4 ≤ n ∧ n < 8 ∨ 12 ≤ n ∧ n < 32)) := fun n => by
    rw [BitVec.getLsbD_and, getLsbD_reservedMask]
  constructor
  · intro h n hn
    have := hbit n
    rw [h, decide_eq_true hn, Bool.and_true] at this
    simpa using this.symm
  · intro h
    refine BitVec.eq_of_getLsbD_eq fun n _ => ?_
    rw [hbit]
    by_cases hn : 4 ≤ n ∧ n < 8 ∨ 12 ≤ n ∧ n < 32
    · simp [h n hn]
    · simp [hn]

theorem statusOk_congr {s t : State} (h : t.status = s.status) (hs : s.statusOk) : t.statusOk := by
  unfold State.statusOk
  rw [h]
  exact hs

theorem statusOk_of_eq_zero {s : State} (h : s.status = 0) : s.statusOk := by
  unfold State.statusOk
  rw [h]
  decide

theorem statusOk_succeed {s : State} (hs : s.statusOk) : s.succeed.statusOk := by
  obtain ⟨hreserved, -, -⟩ := hs
  rw [reserved_eq_zero_iff] at hreserved
  refine ⟨(reserved_eq_zero_iff _).2 fun n hn => ?_, by simp, fun h => absurd (lastOf_statusAfterSuccess _) h⟩
  rw [State.succeed_status, getLsbD_statusAfterSuccess _ (by omega)]
  exact hreserved n hn

theorem statusOk_raise {s : State} (c : ErrorCode) (cmd : Word) (hs : s.statusOk) : (s.raise c cmd).statusOk := by
  obtain ⟨hreserved, -, -⟩ := hs
  rw [reserved_eq_zero_iff] at hreserved
  obtain ⟨hlo, hhi⟩ := c.code_le
  refine ⟨(reserved_eq_zero_iff _).2 fun n hn => ?_, ?_, fun _ => ?_⟩
  · rw [State.raise_status, getLsbD_statusAfterError _ _ (by omega), hreserved n hn]
    simp
    omega
  · rwa [State.raise_status, lastOf_statusAfterError]
  · rw [State.raise_status, lastOf_statusAfterError, getLsbD_statusAfterError _ _ (by omega)]
    simp

/-- No command but `SRESET` touches `STATUS` before it ends (R284). -/
theorem Effect.status {s u : State} {i : Instr} (h : Effect s i u) :
    u.status = s.status ∨ i = .sreset ∧ u.status = 0 := by
  cases h with
  | sreset => exact .inr ⟨rfl, rfl⟩
  | _ => exact .inl rfl

/-! ### Host accesses other than commands (R26, R44, R60 to R63) -/

/-- A CSR write changes `FIELD`, `IMG_W` and `IMG_H` at most. -/
theorem setCSR_frame (s : State) (n : Nat) (v : Word) :
    s.setCSR n v = { s with fsel := (s.setCSR n v).fsel, imgW := (s.setCSR n v).imgW, imgH := (s.setCSR n v).imgH } := by
  unfold State.setCSR
  split <;> rfl

/-- What a host access other than hardware reset can change: no register that a command writes. -/
theorem serve_frame (s : State) {a : HostAct} (ha : a ≠ .hwReset) :
    (s.serve a).p = s.p ∧ (s.serve a).status = s.status ∧ (s.serve a).res = s.res ∧ (s.serve a).outW = s.outW ∧
      (s.serve a).outRs = s.outRs ∧ (s.serve a).blackPt = s.blackPt ∧ (s.serve a).sizes = s.sizes := by
  cases a with
  | hwReset => exact absurd rfl ha
  | writeCSR n v => rw [State.serve, setCSR_frame]; simp
  | writeCW i v => rw [State.serve]; split <;> simp
  | writeLMEM i v => rw [State.serve]; split <;> simp
  | writeBMEM i v => rw [State.serve]; split <;> simp
  | readCSR | readCW | readLMEM | readBMEM => simp [State.serve]

theorem memoriesOk_serve {s : State} (a : HostAct) (hs : s.memoriesOk) : (s.serve a).memoriesOk := by
  obtain ⟨hcw, hlmem, hbmem⟩ := hs
  cases a with
  | readCSR | readCW | readLMEM | readBMEM => exact ⟨hcw, hlmem, hbmem⟩
  | writeCSR n v =>
    rw [State.serve, setCSR_frame]
    exact ⟨hcw, hlmem, hbmem⟩
  | writeCW i v =>
    rw [State.serve]
    split
    · next hi => exact ⟨Memory.wf_write hcw hi, hlmem, hbmem⟩
    · exact ⟨hcw, hlmem, hbmem⟩
  | writeLMEM i v =>
    rw [State.serve]
    split
    · next hi => exact ⟨hcw, Memory.wf_write hlmem hi, hbmem⟩
    · exact ⟨hcw, hlmem, hbmem⟩
  | writeBMEM i v =>
    rw [State.serve]
    split
    · next hi => exact ⟨hcw, hlmem, Memory.wf_write hbmem hi⟩
    · exact ⟨hcw, hlmem, hbmem⟩
  | hwReset => exact ⟨Memory.wf_nil, Memory.wf_nil, Memory.wf_nil⟩

theorem polysOk_serve {s : State} (a : HostAct) (hs : s.polysOk) : (s.serve a).polysOk := by
  by_cases ha : a = .hwReset
  · subst ha
    exact polysOk_of_reset rfl
  · exact polysOk_congr (serve_frame s ha).1 hs

theorem statusOk_serve {s : State} (a : HostAct) (hs : s.statusOk) : (s.serve a).statusOk := by
  by_cases ha : a = .hwReset
  · subst ha
    exact statusOk_of_eq_zero rfl
  · exact statusOk_congr (serve_frame s ha).2.1 hs

theorem resultsOk_serve {s : State} (a : HostAct) (hs : s.resultsOk) : (s.serve a).resultsOk := by
  by_cases ha : a = .hwReset
  · subst ha
    exact Writes.reset.resultsOk hs
  · obtain ⟨-, -, hres, houtW, houtRs, hbp, -⟩ := serve_frame s ha
    unfold State.resultsOk
    rw [hres, houtW, houtRs, hbp]
    exact hs

theorem serve_sizes (s : State) (a : HostAct) : (s.serve a).sizes = s.sizes := by
  by_cases ha : a = .hwReset
  · subst ha
    rfl
  · obtain ⟨-, -, -, -, -, -, h⟩ := serve_frame s ha
    exact h

/-! ### What every step keeps -/

/-- A predicate that commands, error records, other host acts and taking an act off the queue keep, every step keeps. -/
theorem step_keeps {P : State → Prop} (hqueue : ∀ s rest, P s → P { s with host := rest })
    (hexec : ∀ i s t, P s → exec i s = .next t → P t) (hraise : ∀ s cmd, P s → P (s.raise .illegalCommand cmd))
    (hserve : ∀ s a, P s → P (s.serve a)) {s t : State} (hs : P s) (h : step s = .next t) : P t := by
  rcases step_cases s with ⟨-, e⟩ | ⟨w, i, rest, -, -, e⟩ | ⟨w, _, rest, -, -, e⟩ | ⟨a, rest, -, -, e⟩
  · rw [e] at h
    cases h
    exact hs
  · rw [e] at h
    exact hexec i _ t (hqueue s rest hs) h
  · rw [e] at h
    cases h
    exact hraise _ w (hqueue s rest hs)
  · rw [e] at h
    cases h
    exact hserve _ a (hqueue s rest hs)

theorem exec_keeps_polysOk (i : Instr) (s t : State) (hs : s.polysOk) (h : exec i s = .next t) : t.polysOk := by
  rcases exec_writes i hs with ⟨c, e⟩ | ⟨u, e, hu⟩
  · rw [e] at h
    cases h
    exact polysOk_congr rfl hs
  · rw [e] at h
    cases h
    exact polysOk_congr rfl (hu.polysOk hs)

theorem exec_keeps_statusOk (i : Instr) (s t : State) (hs : s.statusOk) (h : exec i s = .next t) : t.statusOk := by
  rcases exec_cases i s with ⟨c, e⟩ | ⟨u, e, hu⟩
  · rw [e] at h
    cases h
    exact statusOk_raise c _ hs
  · rw [e] at h
    cases h
    rcases hu.status with hst | ⟨-, hst⟩
    · exact statusOk_succeed (statusOk_congr hst hs)
    · exact statusOk_succeed (statusOk_of_eq_zero hst)

/-- The parts of the invariant that are not about `STATUS` say nothing of it, of `ERRCMD` or of the queue. -/
theorem inv_of_rest {s t : State} (ht : t = { s with status := t.status, errCmd := t.errCmd, host := t.host })
    (hp : s.polysOk) (hm : s.memoriesOk) (hr : s.resultsOk) (hz : s.sizesOk) (hst : t.statusOk) : t.Inv := by
  refine ⟨?_, ?_, hst, ?_, ?_⟩
  · rw [ht]; exact hp
  · rw [ht]; exact hm
  · rw [ht]; exact hr
  · rw [ht]; exact hz

theorem exec_keeps_inv (i : Instr) (s t : State) (hs : s.Inv) (h : exec i s = .next t) : t.Inv := by
  obtain ⟨hp, hm, hst, hr, hz⟩ := hs
  have hst' := exec_keeps_statusOk i s t hst h
  rcases exec_writes i hp with ⟨c, e⟩ | ⟨u, e, hu⟩
  · rw [e] at h
    cases h
    exact inv_of_rest rfl hp hm hr hz hst'
  · rw [e] at h
    cases h
    have hz' : u.sizesOk := by
      unfold State.sizesOk
      rw [hu.sizes]
      exact hz
    exact inv_of_rest rfl (hu.polysOk hp) (hu.memoriesOk hm) (hu.resultsOk hr) hz' hst'

theorem raise_keeps_inv (s : State) (cmd : Word) (hs : s.Inv) : (s.raise .illegalCommand cmd).Inv := by
  obtain ⟨hp, hm, hst, hr, hz⟩ := hs
  exact inv_of_rest rfl hp hm hr hz (statusOk_raise _ _ hst)

theorem serve_keeps_inv (s : State) (a : HostAct) (hs : s.Inv) : (s.serve a).Inv := by
  obtain ⟨hp, hm, hst, hr, hz⟩ := hs
  refine ⟨polysOk_serve a hp, memoriesOk_serve a hm, statusOk_serve a hst, resultsOk_serve a hr, ?_⟩
  unfold State.sizesOk
  rw [serve_sizes]
  exact hz

/-- Settles O56, part by part: what a command writes fits (`exec_writes`), and so does what the host writes. -/
theorem stepKeepsInvariant : Obligations.StepKeepsInvariant := by
  unfold Obligations.StepKeepsInvariant
  intro s t
  exact step_keeps (P := State.Inv) (fun _ _ h => h) exec_keeps_inv raise_keeps_inv serve_keeps_inv

/-- Settles O54: every polynomial a command writes has at most `PCAP` coefficients, and writing normalises it. -/
theorem stepKeepsPolynomialRegistersNormal : Obligations.StepKeepsPolynomialRegistersNormal := by
  unfold Obligations.StepKeepsPolynomialRegistersNormal
  intro s t
  exact step_keeps (P := State.polysOk) (fun _ _ h => h) exec_keeps_polysOk (fun _ _ h => h) fun _ => polysOk_serve

/-- Settles O55: `STATUS` changes only by the record of an error, by that of a success, and by a reset. -/
theorem stepKeepsStatusLegal : Obligations.StepKeepsStatusLegal := by
  unfold Obligations.StepKeepsStatusLegal
  intro s t
  exact step_keeps (P := State.statusOk) (fun _ _ h => h) exec_keeps_statusOk (fun _ => statusOk_raise _) fun _ => statusOk_serve

/-- Settles O53. -/
theorem resetMeetsInvariant : Obligations.ResetMeetsInvariant := by
  unfold Obligations.ResetMeetsInvariant
  exact ⟨polysOk_of_reset rfl, ⟨Memory.wf_nil, Memory.wf_nil, Memory.wf_nil⟩, statusOk_of_eq_zero rfl,
    ⟨by decide, by decide, .inl rfl⟩, by decide, by decide⟩

/-! ### One step, act by act (R27, R60, R64) -/

theorem step_of_command {s : State} {w : Word} {rest : List HostAct} (h : s.host = .writeCSR 0 w :: rest) :
    step s = runCommand w { s with host := rest } := by
  unfold step
  rw [h]
  rfl

theorem step_of_access {s : State} {a : HostAct} {rest : List HostAct} (h : s.host = a :: rest)
    (ha : ∀ w, a ≠ .writeCSR 0 w) : step s = .next (State.serve { s with host := rest } a) := by
  unfold step
  rw [h]
  split
  · next e => cases e
  · next w _ e => cases e; exact absurd rfl (ha w)
  · next e => cases e; rfl

theorem runCommand_of_ok {w : Word} {i : Instr} (h : decode w = .ok i) (s : State) : runCommand w s = exec i s := by
  unfold runCommand
  rw [h]

theorem runCommand_of_illegal {w : Word} (h : ∀ i, decode w ≠ .ok i) (s : State) :
    runCommand w s = .next (s.raise .illegalCommand w) := by
  unfold runCommand
  split
  · next i e => exact absurd e (h i)
  · rfl

theorem decode_of_decodeTableWord {w : Nat} {i : Instr} (h : decodeTableWord 32 w = some i) :
    decode (BitVec.ofNat 32 (w % 2 ^ 32)) = .ok i := by
  unfold decodeTableWord at h
  split at h
  · next e => rw [e, Option.some.inj h]
  · cases h

/-- Settles O1: the four clauses are the decoder's two answers, the first one again through `withFetchWord`, and a read. -/
theorem stepRunsDecodedCommand : Obligations.StepRunsDecodedCommand := by
  unfold Obligations.StepRunsDecodedCommand
  refine ⟨fun s w rest i h hd => ?_, fun s w rest h hd => ?_, fun s w i hd => ?_, fun s rest h => ?_⟩
  · rw [step_of_command h, runCommand_of_ok hd]
  · rw [step_of_command h, runCommand_of_illegal hd]
  · rw [step_of_command (State.withFetchWord_host s 32 w), runCommand_of_ok (decode_of_decodeTableWord hd)]
    rfl
  · exact step_of_access h (by simp)

/-! ### The CSR map (R26 to R37, R44) -/

theorem csr_of_ge (s : State) {n : Nat} (h : 11 ≤ n) : s.csr n = 0 := by
  obtain ⟨k, rfl⟩ := Nat.exists_eq_add_of_le' h
  rfl

theorem toNat_setWidth_setWidth (v : Word) {k : Nat} (hk : k ≤ 32) :
    ((v.setWidth k).setWidth 32).toNat = v.toNat % 2 ^ k := by
  have hlt : v.toNat % 2 ^ k < 2 ^ 32 :=
    (Nat.mod_lt _ (Nat.two_pow_pos k)).trans_le (Nat.pow_le_pow_right (by decide) hk)
  rw [BitVec.toNat_setWidth, BitVec.toNat_setWidth, Nat.mod_eq_of_lt hlt]

theorem setWidth_one_eq_and (v : Word) : (v.setWidth 1).setWidth 32 = v &&& 1 := by
  apply BitVec.eq_of_toNat_eq
  rw [toNat_setWidth_setWidth v (by decide), BitVec.toNat_and]
  exact (Nat.and_one_is_mod _).symm

theorem setWidth_half_eq_and (v : Word) : (v.setWidth 16).setWidth 32 = v &&& 0xFFFF := by
  apply BitVec.eq_of_toNat_eq
  rw [toNat_setWidth_setWidth v (by decide), BitVec.toNat_and]
  exact (Nat.and_two_pow_sub_one_eq_mod v.toNat 16).symm

/-- A write to CSR `n` leaves every other CSR as it reads. -/
theorem csr_setCSR_ne (s : State) {n m : Nat} (v : Word) (h : m ≠ n) : (s.setCSR n v).csr m = s.csr m := by
  unfold State.setCSR
  split
  · unfold State.csr
    split
    case h_3 => exact absurd rfl h
    all_goals rfl
  · unfold State.csr
    split
    case h_4 => exact absurd rfl h
    all_goals rfl
  · unfold State.csr
    split
    case h_5 => exact absurd rfl h
    all_goals rfl
  · rfl

/-- What CSR `n` reads after a write: the bits `FIELD`, `IMG_W` and `IMG_H` have, and as before elsewhere. -/
theorem csr_setCSR_self (s : State) (n : Nat) (v : Word) : (s.setCSR n v).csr n =
    if n = 3 then v &&& 1 else if n = 4 ∨ n = 5 then v &&& 0xFFFF else s.csr n := by
  unfold State.setCSR
  split
  · exact setWidth_one_eq_and v
  · exact setWidth_half_eq_and v
  · exact setWidth_half_eq_and v
  · next h3 h4 h5 => rw [if_neg h3, if_neg (not_or.2 ⟨h4, h5⟩)]

/-- Settles O5: the map is the definition's own; a write is `setCSR`, whose reads back the two lemmas above give. -/
theorem csrAccessKeepsOnlyStoredBits : Obligations.CsrAccessKeepsOnlyStoredBits := by
  unfold Obligations.CsrAccessKeepsOnlyStoredBits
  refine ⟨fun s => ⟨rfl, rfl, rfl, rfl, rfl, rfl, rfl, rfl, rfl, rfl, rfl, fun n => csr_of_ge s⟩,
    fun s rest n => ⟨fun h => ?_, fun v hn h => ?_⟩⟩
  · have hread : (if n < 11 then s.csr n else 0) = s.csr n :=
      ite_eq_left_iff.2 fun h => (csr_of_ge s (not_lt.1 h)).symm
    rw [step_of_access h (by simp), hread]
    rfl
  · refine ⟨_, step_of_access h (by simpa using fun h => absurd h hn), setCSR_frame _ n v, fun m => ?_⟩
    by_cases hm : m = n
    · subst hm
      simp only [true_and]
      exact csr_setCSR_self _ m v
    · simp only [hm, false_and, if_false]
      exact csr_setCSR_ne _ v hm

/-! ### Hardware reset (R43, R310) -/

theorem csr_resetRegisters (s : State) (n : Nat) : s.resetRegisters.csr n = 0 := by
  unfold State.csr
  split <;> rfl

theorem readP_resetRegisters (s : State) (r : Reg) : s.resetRegisters.readP r = [0] := by
  simp [State.readP]

/-- Settles O6: every register as `resetRegisters` leaves it, and no memory element listed. -/
theorem hardwareResetValues : Obligations.HardwareResetValues := by
  unfold Obligations.HardwareResetValues
  refine ⟨fun s rest h => ?_, readP_resetRegisters State.reset, csr_resetRegisters State.reset⟩
  exact ⟨_, step_of_access h (by simp), readP_resetRegisters s, csr_resetRegisters s, fun _ => rfl, fun _ => rfl,
    fun _ => rfl, rfl, rfl, rfl, rfl⟩

/-! ### Sticky bits (R28, R271, R286) -/

/-- `SRESET` has one command word (R98, R99). -/
theorem eq_of_decode_sreset {w : Word} (h : decode w = .ok .sreset) : w = 0x01000000 := by
  unfold decode at h
  split at h
  case h_2 hop =>
    have hlow : w.toNat % 2 ^ 24 = 0 := by
      rw [← Nat.and_two_pow_sub_one_eq_mod]
      exact congrArg BitVec.toNat (requireZero_ok h).1
    have hw := w.isLt
    simp only [opcodeOf, BitVec.extractLsb'_toNat, Nat.shiftRight_eq_div_pow] at hop
    exact BitVec.eq_of_toNat_eq (show w.toNat = 0x01000000 by omega)
  case h_19 =>
    split at h
    · cases h
    · cases (requireZero_ok h).2
  case h_27 => cases h
  all_goals cases (requireZero_ok h).2

/-- Only `SRESET` clears a sticky bit (R284, R286). -/
theorem exec_keeps_sticky {i : Instr} {s t : State} (hi : i ≠ .sreset) (h : exec i s = .next t) {n : Nat} (hn : 4 ≤ n)
    (hs : s.status.getLsbD n = true) : t.status.getLsbD n = true := by
  rcases exec_cases i s with ⟨c, e⟩ | ⟨u, e, hu⟩
  · rw [e] at h
    cases h
    simp [getLsbD_statusAfterError _ _ hn, hs]
  · rw [e] at h
    cases h
    rcases hu.status with hst | ⟨rfl, -⟩
    · rwa [State.succeed_status, getLsbD_statusAfterSuccess _ hn, hst]
    · exact absurd rfl hi

/-- Settles O14, by the four kinds of steps. -/
theorem stickyBitsClearedOnlyByReset : Obligations.StickyBitsClearedOnlyByReset := by
  unfold Obligations.StickyBitsClearedOnlyByReset
  intro s t a rest hhost hreset hsreset h n hn _ hs
  have hn4 : 4 ≤ n := by omega
  rcases step_cases s with ⟨e, -⟩ | ⟨w, i, rest', e, hd, hstep⟩ | ⟨w, _, rest', -, -, hstep⟩ | ⟨b, rest', e, -, hstep⟩
  · rw [hhost] at e
    cases e
  · rw [hhost] at e
    cases e
    rw [hstep] at h
    exact exec_keeps_sticky (fun hi => hsreset (congrArg _ (eq_of_decode_sreset (hi ▸ hd)))) h hn4 hs
  · rw [hstep] at h
    cases h
    simp [getLsbD_statusAfterError _ _ hn4, hs]
  · rw [hhost] at e
    cases e
    rw [hstep] at h
    cases h
    obtain ⟨-, hst, -⟩ := serve_frame { s with host := rest } hreset
    rwa [hst]

/-! ### The flags are read by no command (R25) -/

/-- `s` with another `STATUS`. -/
def State.withStatus (s : State) (st : Word) : State := { s with status := st }

theorem fld_withStatus (s : State) (st : Word) : (s.withStatus st).fld = s.fld := rfl

theorem cwRange_withStatus (s : State) (st : Word) : (s.withStatus st).cwRange = s.cwRange := rfl

theorem matrixSamples_withStatus (s : State) (st : Word) : (s.withStatus st).matrixSamples = s.matrixSamples := rfl

theorem rowSamples_withStatus (s : State) (st : Word) : (s.withStatus st).rowSamples = s.rowSamples := rfl

/-- A check before a result commutes with what is done to the result. -/
theorem map_guard (g : State → State) (c : Prop) [Decidable c] (e : ErrorCode) (r : Except ErrorCode State) :
    (if c then .error e else r : Except ErrorCode State).map g = if c then .error e else r.map g := by
  split <;> rfl

theorem writeCapped_withStatus (s : State) (st : Word) (rd : Reg) (r : Poly) :
    (s.withStatus st).writeCapped rd r = (s.writeCapped rd r).map (·.withStatus st) := by
  unfold State.writeCapped
  rw [map_guard]
  rfl

theorem globalMatrix_withStatus (s : State) (st : Word) :
    (s.withStatus st).globalMatrix = s.globalMatrix.map (·.withStatus st) := by
  unfold State.globalMatrix
  rw [matrixSamples_withStatus]
  cases estimateBlackPoint (histogram s.matrixSamples) <;> rfl

theorem blockRow_withStatus (s : State) (st : Word) (bY : Nat) (up : Option (List Nat)) (k : Nat) :
    (s.withStatus st).blockRow bY up k = s.blockRow bY up k := by
  induction k with
  | zero => rfl
  | succ k ih =>
    rw [blockRow_succ, blockRow_succ, ih]
    rfl

theorem blockGrid_withStatus (s : State) (st : Word) (k : Nat) : (s.withStatus st).blockGrid k = s.blockGrid k := by
  induction k with
  | zero => rfl
  | succ k ih =>
    simp only [State.blockGrid, ih, blockRow_withStatus]
    rfl

theorem hybridMatrix_withStatus (s : State) (st : Word) :
    (s.withStatus st).hybridMatrix = s.hybridMatrix.withStatus st := by
  have hthr : (s.withStatus st).thresholds = s.thresholds := by
    unfold State.thresholds
    simp only [blockGrid_withStatus]
    rfl
  unfold State.hybridMatrix
  rw [hthr]
  rfl

/-- A command but `SRESET` computes the same from states that differ in `STATUS` only. -/
theorem exec_withStatus {i : Instr} (hi : i ≠ .sreset) (s : State) (st : Word) :
    ∃ r, exec i s = finish i s r ∧
      exec i (s.withStatus st) = finish i (s.withStatus st) (r.map (·.withStatus st)) := by
  cases i with
  | sreset => exact absurd rfl hi
  | nop | gfadd | gfmul | gfexp | pzero | pone | pdeg | peval | padd | pscl | rsgen => exact ⟨.ok _, rfl, rfl⟩
  | gfinv | gflog | pld | pst | pcoef | rsenc | rssyn =>
    refine ⟨_, rfl, congrArg (finish _ _) ?_⟩
    rw [map_guard]
    rfl
  | pmul rd ra rb => exact ⟨_, rfl, congrArg (finish _ _) (writeCapped_withStatus s st rd _)⟩
  | pmulm rd ra d c => exact ⟨_, rfl, congrArg (finish _ _) (writeCapped_withStatus s st rd _)⟩
  | pdiv rd re ra rb =>
    refine ⟨_, rfl, congrArg (finish _ _) ?_⟩
    rw [map_guard, map_guard]
    rfl
  | rsdec n twoS =>
    refine ⟨_, rfl, congrArg (finish _ _) ?_⟩
    simp only [fld_withStatus, cwRange_withStatus]
    rw [map_guard, apply_ite (Except.map _)]
    cases correctBlock s.fld (s.cwRange 0 n.toNat) (syndromes s.fld (s.cwRange 0 n.toNat) twoS.toNat) n.toNat
      twoS.toNat <;> rfl
  | bingm =>
    refine ⟨_, rfl, congrArg (finish _ _) ?_⟩
    rw [map_guard, ← globalMatrix_withStatus]
    rfl
  | bingr y =>
    refine ⟨_, rfl, congrArg (finish _ _) ?_⟩
    rw [map_guard, rowSamples_withStatus]
    cases estimateBlackPoint (histogram (s.rowSamples y.toNat)) <;> rfl
  | binhm =>
    refine ⟨_, rfl, congrArg (finish _ _) ?_⟩
    rw [map_guard, apply_ite (Except.map _), globalMatrix_withStatus, hybridMatrix_withStatus]
    rfl

/-- Settles O15: the two runs give results that differ in `STATUS` only, and `finish` sets the same `LAST` in both. -/
theorem noCommandReadsStatus : Obligations.NoCommandReadsStatus := by
  unfold Obligations.NoCommandReadsStatus
  intro i s st
  by_cases hi : i = .sreset
  · subst hi
    exact ⟨_, _, rfl, rfl, rfl, rfl⟩
  · obtain ⟨r, hs, hst⟩ := exec_withStatus hi s st
    cases r with
    | ok u =>
      exact ⟨_, _, hs, hst, rfl, (lastOf_statusAfterSuccess st).trans (lastOf_statusAfterSuccess u.status).symm⟩
    | error c =>
      exact ⟨_, _, hs, hst, rfl, (lastOf_statusAfterError c st).trans (lastOf_statusAfterError c s.status).symm⟩

/-! ### Which command writes which state (R29, R73, R191) -/

section
variable {s u : State} {i : Instr} (h : Effect s i u)
include h

theorem Effect.lmem : u.lmem = s.lmem := by cases h <;> rfl

theorem Effect.powerCycle : u.powerCycle = s.powerCycle := by cases h <;> rfl

theorem Effect.sizes : u.sizes = s.sizes := by cases h <;> rfl

theorem Effect.host : u.host = s.host := by cases h <;> rfl

theorem Effect.hostData : u.hostData = s.hostData := by cases h <;> rfl

/-- Only the binarizer writes `BMEM` (R73). -/
theorem Effect.bmem (hm : i ≠ .bingm) (hr : ∀ y, i ≠ .bingr y) (hh : i ≠ .binhm) : u.bmem = s.bmem := by
  cases h with
  | bingm => exact absurd rfl hm
  | bingr y => exact absurd rfl (hr y)
  | binhmGlobal | binhm => exact absurd rfl hh
  | _ => rfl

/-- Only the binarizer and `SRESET` write the output registers (R33 to R36). -/
theorem Effect.outputs (hm : i ≠ .bingm) (hr : ∀ y, i ≠ .bingr y) (hh : i ≠ .binhm) (hs : i ≠ .sreset) :
    u.outW = s.outW ∧ u.outH = s.outH ∧ u.outRs = s.outRs ∧ u.blackPt = s.blackPt := by
  cases h with
  | sreset => exact absurd rfl hs
  | bingm => exact absurd rfl hm
  | bingr y => exact absurd rfl (hr y)
  | binhmGlobal | binhm => exact absurd rfl hh
  | _ => exact ⟨rfl, rfl, rfl, rfl⟩

/-- Only `PST`, `RSENC` and `RSDEC` write `CW` (R191). -/
theorem Effect.cw (hp : ∀ r o, i ≠ .pst r o) (he : ∀ n e, i ≠ .rsenc n e) (hd : ∀ n e, i ≠ .rsdec n e) : u.cw = s.cw := by
  cases h with
  | pst r o => exact absurd rfl (hp r o)
  | rsenc n e => exact absurd rfl (he n e)
  | rsdec n e => exact absurd rfl (hd n e)
  | _ => rfl

/-- Only `SRESET` writes the registers that are the host's to write (R30 to R32). -/
theorem Effect.hostRegisters (hs : i ≠ .sreset) : u.fsel = s.fsel ∧ u.imgW = s.imgW ∧ u.imgH = s.imgH := by
  cases h with
  | sreset => exact absurd rfl hs
  | _ => exact ⟨rfl, rfl, rfl⟩

/-- Only the nine commands of R29 and `SRESET` write `RES`. -/
theorem Effect.res (hadd : ∀ a b, i ≠ .gfadd a b) (hmul : ∀ a b, i ≠ .gfmul a b) (hinv : ∀ a, i ≠ .gfinv a)
    (hexp : ∀ a, i ≠ .gfexp a) (hlog : ∀ a, i ≠ .gflog a) (hdeg : ∀ r, i ≠ .pdeg r) (hcoef : ∀ r k, i ≠ .pcoef r k)
    (heval : ∀ r a, i ≠ .peval r a) (hst : ∀ r o, i ≠ .pst r o) (hs : i ≠ .sreset) : u.res = s.res := by
  cases h with
  | sreset => exact absurd rfl hs
  | gfadd a b => exact absurd rfl (hadd a b)
  | gfmul a b => exact absurd rfl (hmul a b)
  | gfinv a => exact absurd rfl (hinv a)
  | gfexp a => exact absurd rfl (hexp a)
  | gflog a => exact absurd rfl (hlog a)
  | pdeg r => exact absurd rfl (hdeg r)
  | pcoef r k => exact absurd rfl (hcoef r k)
  | peval r a => exact absurd rfl (heval r a)
  | pst r o => exact absurd rfl (hst r o)
  | _ => rfl

/-- Only ten commands and `SRESET` write the polynomial registers (R160 to R171, R194, R197). -/
theorem Effect.p (hzero : ∀ r, i ≠ .pzero r) (hone : ∀ r, i ≠ .pone r) (hld : ∀ r o l, i ≠ .pld r o l)
    (hadd : ∀ r a b, i ≠ .padd r a b) (hmul : ∀ r a b, i ≠ .pmul r a b) (hscl : ∀ r a c, i ≠ .pscl r a c)
    (hmulm : ∀ r a d c, i ≠ .pmulm r a d c) (hdiv : ∀ q r a b, i ≠ .pdiv q r a b) (hgen : ∀ r k, i ≠ .rsgen r k)
    (hsyn : ∀ r n e, i ≠ .rssyn r n e) (hs : i ≠ .sreset) : u.p = s.p := by
  cases h with
  | sreset => exact absurd rfl hs
  | pzero r => exact absurd rfl (hzero r)
  | pone r => exact absurd rfl (hone r)
  | pld r o l => exact absurd rfl (hld r o l)
  | padd r a b => exact absurd rfl (hadd r a b)
  | pmul r a b => exact absurd rfl (hmul r a b)
  | pscl r a c => exact absurd rfl (hscl r a c)
  | pmulm r a d c => exact absurd rfl (hmulm r a d c)
  | pdiv q r a b => exact absurd rfl (hdiv q r a b)
  | rsgen r k => exact absurd rfl (hgen r k)
  | rssyn r n e => exact absurd rfl (hsyn r n e)
  | _ => rfl

end

section
variable {s t : State} (hk : t.powerCycle = s.powerCycle) (a : Nat)
include hk

theorem readCW_congr (h : t.cw = s.cw) : t.readCW a = s.readCW a := by rw [State.readCW, h, hk]; rfl

theorem readLMEM_congr (h : t.lmem = s.lmem) : t.readLMEM a = s.readLMEM a := by rw [State.readLMEM, h, hk]; rfl

theorem readBMEM_congr (h : t.bmem = s.bmem) : t.readBMEM a = s.readBMEM a := by rw [State.readBMEM, h, hk]; rfl

end

/-- Settles O16: an error changes none of it, and for a success there is one lemma for each register and memory above. -/
theorem commandsWriteOnlyTheirState : Obligations.CommandsWriteOnlyTheirState := by
  unfold Obligations.CommandsWriteOnlyTheirState
  intro i s
  rcases exec_cases i s with ⟨c, e⟩ | ⟨u, e, hu⟩
  · exact ⟨_, e, fun _ => rfl, rfl, rfl, rfl, fun _ _ _ => ⟨fun _ => rfl, fun _ => ⟨rfl, rfl, rfl, rfl⟩⟩,
      fun _ _ _ _ => rfl, fun _ => ⟨rfl, rfl, rfl⟩, fun _ _ _ _ _ _ _ _ _ _ => rfl, fun _ _ _ _ _ _ _ _ _ _ _ => rfl⟩
  · have hk : u.succeed.powerCycle = s.powerCycle := hu.powerCycle
    exact ⟨_, e, fun a => readLMEM_congr hk a hu.lmem, hu.sizes, hu.host, hu.hostData,
      fun hm hr hh => ⟨fun a => readBMEM_congr hk a (hu.bmem hm hr hh), hu.outputs hm hr hh⟩,
      fun hp he hd a => readCW_congr hk a (hu.cw hp he hd), hu.hostRegisters, hu.res, hu.p⟩

end Sys2Proof.Machine

/-! The family of spec/20_memory.md: the host's accesses to the memories, and commands that may be issued again. -/

namespace Sys2Proof.Machine

/-! ### The host's accesses to `CW`, `LMEM` and `BMEM` (R62, R63) -/

theorem readCW_writeCW_singleton (s : State) (i : Nat) (v : Byte) (j : Nat) :
    (s.writeCW i [v]).readCW j = if j = i then v else s.readCW j := by
  simp only [State.readCW, State.writeCW_cw, State.writeCW_powerCycle, Memory.writeRange, Memory.lookup_write]
  split <;> rfl

theorem readBMEM_writeBMEM_singleton (s : State) (i : Nat) (v : Word) (j : Nat) :
    (s.writeBMEM i [v]).readBMEM j = if j = i then v else s.readBMEM j := by
  simp only [State.readBMEM, State.writeBMEM_bmem, State.writeBMEM_powerCycle, Memory.writeRange, Memory.lookup_write]
  split <;> rfl

theorem serve_writeCW (s : State) (i : Nat) (v : Byte) :
    s.serve (.writeCW i v) = { s with cw := (s.serve (.writeCW i v)).cw } ∧
      ∀ j, (s.serve (.writeCW i v)).readCW j = if j = i ∧ i < Config.cwSize then v else s.readCW j := by
  rw [State.serve]
  split
  · next hi => exact ⟨rfl, fun j => by simp only [readCW_writeCW_singleton, hi, and_true]⟩
  · next hi => exact ⟨rfl, fun j => by simp only [hi, and_false, if_false]⟩

theorem serve_writeLMEM (s : State) (i : Nat) (v : Byte) :
    s.serve (.writeLMEM i v) = { s with lmem := (s.serve (.writeLMEM i v)).lmem } ∧
      ∀ j, (s.serve (.writeLMEM i v)).readLMEM j = if j = i ∧ i < s.sizes.lmemSize then v else s.readLMEM j := by
  rw [State.serve]
  split
  · next hi => exact ⟨rfl, fun j => by simp only [readLMEM_writeLMEM, hi, and_true]⟩
  · next hi => exact ⟨rfl, fun j => by simp only [hi, and_false, if_false]⟩

theorem serve_writeBMEM (s : State) (i : Nat) (v : Word) :
    s.serve (.writeBMEM i v) = { s with bmem := (s.serve (.writeBMEM i v)).bmem } ∧
      ∀ j, (s.serve (.writeBMEM i v)).readBMEM j = if j = i ∧ i < s.sizes.bmemWords then v else s.readBMEM j := by
  rw [State.serve]
  split
  · next hi => exact ⟨rfl, fun j => by simp only [readBMEM_writeBMEM_singleton, hi, and_true]⟩
  · next hi => exact ⟨rfl, fun j => by simp only [hi, and_false, if_false]⟩

/-- Settles O4: each access is one act served; the writes are the three lemmas above. -/
theorem hostReadsAndReplacesElements : Obligations.HostReadsAndReplacesElements := by
  unfold Obligations.HostReadsAndReplacesElements
  intro s rest i
  refine ⟨fun h => step_of_access h (by simp), fun h => step_of_access h (by simp), fun h => step_of_access h (by simp),
    fun v h => ?_, fun v h => ?_, fun v h => ?_⟩
  · exact ⟨_, step_of_access h (by simp), serve_writeCW _ i v⟩
  · exact ⟨_, step_of_access h (by simp), serve_writeLMEM _ i v⟩
  · exact ⟨_, step_of_access h (by simp), serve_writeBMEM _ i v⟩

/-! ### Writing and recording twice -/

theorem Memory.wf_mono {w size size' : Nat} {m : Memory w} (h : size ≤ size') (hm : m.wf size = true) :
    m.wf size' = true := by
  rw [Memory.wf_iff] at hm ⊢
  exact ⟨hm.1, fun c hc => (hm.2 c hc).trans_le h⟩

/-- Writing a range again changes nothing: the canonical form is determined by what it holds. -/
theorem Memory.writeRange_writeRange {w size : Nat} {m : Memory w} (hm : m.wf size = true) (a : Nat) (vs : List (BitVec w)) :
    (m.writeRange a vs).writeRange a vs = m.writeRange a vs := by
  have hle : a + vs.length ≤ size + (a + vs.length) := Nat.le_add_left _ _
  have h1 := Memory.wf_writeRange (Memory.wf_mono (Nat.le_add_right _ _) hm) hle
  refine Memory.ext_of_wf (Memory.wf_writeRange h1 hle) h1 fun j => ?_
  simp only [Memory.lookup_writeRange]
  split <;> rfl

theorem statusAfterSuccess_statusAfterSuccess (st : Word) :
    statusAfterSuccess (statusAfterSuccess st) = statusAfterSuccess st := by
  refine BitVec.eq_of_getLsbD_eq fun n _ => ?_
  simp only [statusAfterSuccess, getLsbD_withLast]
  split <;> rfl

theorem statusAfterError_statusAfterError (c : ErrorCode) (st : Word) :
    statusAfterError c (statusAfterError c st) = statusAfterError c st := by
  refine BitVec.eq_of_getLsbD_eq fun n _ => ?_
  simp only [statusAfterError, getLsbD_withBit, getLsbD_withLast]
  split
  · rfl
  · rw [Bool.or_assoc, Bool.or_self]

theorem State.succeed_succeed (s : State) : s.succeed.succeed = s.succeed := by
  simp only [State.succeed, statusAfterSuccess_statusAfterSuccess]

theorem State.raise_raise (s : State) (c : ErrorCode) (cmd : Word) : (s.raise c cmd).raise c cmd = s.raise c cmd := by
  simp only [State.raise, statusAfterError_statusAfterError]

theorem State.writeCW_writeCW {s : State} (hs : s.memoriesOk) (i : Nat) (vs : List Byte) :
    (s.writeCW i vs).writeCW i vs = s.writeCW i vs := by
  obtain ⟨hcw, -, -⟩ := hs
  simp only [State.writeCW, Memory.writeRange_writeRange hcw]

theorem State.writeOutput_writeOutput {s : State} (hs : s.memoriesOk) (w h : Nat) (ws : List Word) :
    (s.writeOutput w h ws).writeOutput w h ws = s.writeOutput w h ws := by
  obtain ⟨-, -, hbmem⟩ := hs
  simp only [State.writeOutput, State.writeBMEM, Memory.writeRange_writeRange hbmem]

/-! ### What the binarizer reads (R39, R231, R252) -/

/-- `t` shows the binarizer what `s` shows it: the image and the sizes of the memories. -/
structure SameImage (s t : State) : Prop where
  imgW : t.imgW = s.imgW
  imgH : t.imgH = s.imgH
  sizes : t.sizes = s.sizes
  pixel : t.pixel = s.pixel

/-- No command but `SRESET` changes the image (R30 to R32, R73). -/
theorem sameImage_of_exec {i : Instr} {s t : State} (hi : i ≠ .sreset) (h : exec i s = .next t) : SameImage s t := by
  rcases exec_cases i s with ⟨c, e⟩ | ⟨u, e, hu⟩
  · rw [e] at h
    cases h
    exact ⟨rfl, rfl, rfl, rfl⟩
  · rw [e] at h
    cases h
    obtain ⟨-, hw, hh⟩ := hu.hostRegisters hi
    refine ⟨hw, hh, hu.sizes, funext₂ fun x y => ?_⟩
    simp only [State.pixel, State.succeed_imgW, hw]
    exact congrArg BitVec.toNat (readLMEM_congr (t := u.succeed) hu.powerCycle _ hu.lmem)

section
variable {s t : State} (h : SameImage s t)
include h

theorem SameImage.inadmissible (n : Nat) : t.inadmissible n = s.inadmissible n := by
  simp only [State.inadmissible, h.imgW, h.imgH, h.sizes]

theorem SameImage.matrixWords : t.matrixWords = s.matrixWords := by
  simp only [State.matrixWords, h.imgW, h.imgH]

theorem SameImage.matrixSamples : t.matrixSamples = s.matrixSamples := by
  simp only [State.matrixSamples, h.imgW, h.imgH, h.pixel]

theorem SameImage.rowSamples : t.rowSamples = s.rowSamples := by
  funext y
  simp only [State.rowSamples, h.imgW, h.pixel]

theorem SameImage.sharp : t.sharp = s.sharp := by
  funext y x
  simp only [State.sharp, h.pixel]

theorem SameImage.rowBlack : t.rowBlack = s.rowBlack := by
  funext y bp x
  simp only [State.rowBlack, h.sharp, h.imgW, h.pixel]

theorem SameImage.blockRow (bY : Nat) (up : Option (List Nat)) (k : Nat) : t.blockRow bY up k = s.blockRow bY up k := by
  induction k with
  | zero => rfl
  | succ k ih => simp only [blockRow_succ, ih, State.blockPixels, h.imgW, h.imgH, h.pixel]

theorem SameImage.blockGrid (k : Nat) : t.blockGrid k = s.blockGrid k := by
  induction k with
  | zero => rfl
  | succ k ih => simp only [State.blockGrid, ih, h.blockRow, h.imgW]

theorem SameImage.thresholds : t.thresholds = s.thresholds := by
  simp only [State.thresholds, h.blockGrid, h.imgW, h.imgH]

theorem SameImage.hybridBlack : t.hybridBlack = s.hybridBlack := by
  funext thr x y
  simp only [State.hybridBlack, h.imgW, h.imgH, h.pixel]

end

/-! ### What the binarizer answers for an image (R241, R243, R251) -/

/-- The pseudocode of a binarizer command ends alike in `s` and in `t`: with the same error or with the same write. -/
inductive SameWrite (s t : State) : Except ErrorCode State → Except ErrorCode State → Prop
  | error (c : ErrorCode) : SameWrite s t (.error c) (.error c)
  | output (w h : Nat) (ws : List Word) : SameWrite s t (.ok (s.writeOutput w h ws)) (.ok (t.writeOutput w h ws))
  | outputBlackPt (w h : Nat) (ws : List Word) (bp : Nat) :
      SameWrite s t (.ok ((s.writeOutput w h ws).writeBlackPt bp)) (.ok ((t.writeOutput w h ws).writeBlackPt bp))

theorem SameWrite.guard {s t : State} (p : Prop) [Decidable p] (c : ErrorCode) {r r' : Except ErrorCode State}
    (h : SameWrite s t r r') : SameWrite s t (if p then .error c else r) (if p then .error c else r') := by
  split
  · exact .error c
  · exact h

section
variable {s t : State} (h : SameImage s t)
include h

theorem SameImage.sameWrite_globalMatrix : SameWrite s t s.globalMatrix t.globalMatrix := by
  simp only [State.globalMatrix, h.matrixSamples, h.imgW, h.imgH, h.pixel]
  cases estimateBlackPoint (histogram s.matrixSamples) with
  | error c => exact .error c
  | ok bp => exact .outputBlackPt _ _ _ bp

theorem SameImage.sameWrite_hybridMatrix : SameWrite s t (.ok s.hybridMatrix) (.ok t.hybridMatrix) := by
  simp only [State.hybridMatrix, h.thresholds, h.hybridBlack, h.imgW, h.imgH]
  exact .output _ _ _

/-- A binarizer command reads nothing but the image and the sizes of the memories. -/
theorem SameImage.sameWrite_exec {i : Instr} (hi : i = .bingm ∨ (∃ y, i = .bingr y) ∨ i = .binhm) :
    ∃ r r', exec i s = finish i s r ∧ exec i t = finish i t r' ∧ SameWrite s t r r' := by
  rcases hi with rfl | ⟨y, rfl⟩ | rfl
  · refine ⟨_, _, rfl, rfl, ?_⟩
    rw [h.matrixWords, h.inadmissible]
    exact .guard _ _ h.sameWrite_globalMatrix
  · refine ⟨_, _, rfl, rfl, ?_⟩
    simp only [h.inadmissible, h.rowSamples, h.rowBlack, h.imgW, h.imgH]
    refine .guard _ _ ?_
    cases estimateBlackPoint (histogram (s.rowSamples y.toNat)) with
    | error c => exact .error c
    | ok bp => exact .outputBlackPt _ _ _ bp
  · refine ⟨_, _, rfl, rfl, ?_⟩
    rw [h.matrixWords, h.inadmissible, h.imgW, h.imgH]
    refine .guard _ _ ?_
    split
    · exact h.sameWrite_globalMatrix
    · exact h.sameWrite_hybridMatrix

end

/-! ### Commands issued again (R72) -/

/-- A binarizer command leaves the image, so it makes the same write again. -/
theorem exec_again_of_binarizer {i : Instr} (hi : i = .bingm ∨ (∃ y, i = .bingr y) ∨ i = .binhm) {s : State}
    (hs : s.memoriesOk) : ∃ t, exec i s = .next t ∧ exec i t = .next t := by
  have hreset : i ≠ .sreset := by rintro rfl; simp at hi
  obtain ⟨t, ht⟩ : ∃ t, exec i s = .next t := by
    rcases exec_cases i s with ⟨c, e⟩ | ⟨u, e, -⟩
    · exact ⟨_, e⟩
    · exact ⟨_, e⟩
  refine ⟨t, ht, ?_⟩
  obtain ⟨r, r', e, e', hw⟩ := (sameImage_of_exec hreset ht).sameWrite_exec hi
  rw [e] at ht
  rw [e']
  cases hw with
  | error c =>
    cases ht
    rw [finish_error, State.raise_raise]
  | output w h ws =>
    cases ht
    have again : (s.writeOutput w h ws).succeed.writeOutput w h ws = (s.writeOutput w h ws).succeed :=
      congrArg State.succeed (State.writeOutput_writeOutput hs w h ws)
    rw [again, finish_ok, State.succeed_succeed]
  | outputBlackPt w h ws bp =>
    cases ht
    have again : (((s.writeOutput w h ws).writeBlackPt bp).succeed.writeOutput w h ws).writeBlackPt bp =
        ((s.writeOutput w h ws).writeBlackPt bp).succeed :=
      congrArg (fun u => (u.writeBlackPt bp).succeed) (State.writeOutput_writeOutput hs w h ws)
    rw [again, finish_ok, State.succeed_succeed]

/-- Bytes written from `n` on are not among the first `n`. -/
theorem cwRange_writeCW_below (s : State) (n : Nat) (vs : List Byte) : (s.writeCW n vs).cwRange 0 n = s.cwRange 0 n := by
  refine List.map_congr_left fun k hk => ?_
  have hlt := List.mem_range.1 hk
  rw [readCW_writeCW, if_neg (by omega)]

/-- `RSENC` reads `CW[0..nd)` and writes from `nd` on (R195), so it writes the same bytes again. -/
theorem exec_again_of_rsenc (nd ec : Byte) {s : State} (hs : s.memoriesOk) :
    ∃ t, exec (.rsenc nd ec) s = .next t ∧ exec (.rsenc nd ec) t = .next t := by
  by_cases hlim : nd = 0 ∨ ec = 0 ∨ Config.nmax < nd.toNat + ec.toNat
  · have hfail : ∀ u, exec (.rsenc nd ec) u = .next (u.raise .illegalArgument (encode (.rsenc nd ec))) := fun u =>
      congrArg (finish _ u) (if_pos hlim)
    exact ⟨_, hfail s, by rw [hfail, State.raise_raise]⟩
  · have hok : ∀ u, exec (.rsenc nd ec) u =
        .next (u.writeCW nd.toNat (rsenc u.fld (u.cwRange 0 nd.toNat) ec.toNat)).succeed := fun u =>
      congrArg (finish _ u) (if_neg hlim)
    refine ⟨_, hok s, ?_⟩
    generalize hvs : rsenc s.fld (s.cwRange 0 nd.toNat) ec.toNat = vs
    have hdata : (s.writeCW nd.toNat vs).succeed.cwRange 0 nd.toNat = s.cwRange 0 nd.toNat :=
      cwRange_writeCW_below s nd.toNat vs
    have hfld : (s.writeCW nd.toNat vs).succeed.fld = s.fld := rfl
    have again : (s.writeCW nd.toNat vs).succeed.writeCW nd.toNat vs = (s.writeCW nd.toNat vs).succeed :=
      congrArg State.succeed (State.writeCW_writeCW hs nd.toNat vs)
    rw [hok, hdata, hfld, hvs, again, State.succeed_succeed]

/-- Settles O17: the binarizer commands leave the image they read, and `RSENC` leaves the data it reads. -/
theorem reissuedCommandsChangeNothing : Obligations.ReissuedCommandsChangeNothing := by
  unfold Obligations.ReissuedCommandsChangeNothing
  rintro i s hs (hi | hi | hi | ⟨nd, ec, rfl⟩)
  · exact exec_again_of_binarizer (.inl hi) hs
  · exact exec_again_of_binarizer (.inr (.inl hi)) hs
  · exact exec_again_of_binarizer (.inr (.inr hi)) hs
  · exact exec_again_of_rsenc nd ec hs

end Sys2Proof.Machine

/-! The family of spec/30_encoding.md: the command word, its decoder and encoder, the opcode map, pseudo-instructions. -/

namespace Sys2Proof

/-! ### Words by their masked bits (R98) -/

/-- A field inside the mask is that of the pattern. -/
theorem extractLsb'_of_and_eq {w m p : Word} (h : w &&& m = p) {s l : Nat} (hm : m.extractLsb' s l = BitVec.allOnes l) :
    w.extractLsb' s l = p.extractLsb' s l := by
  rw [← h, BitVec.extractLsb'_and, hm, BitVec.and_allOnes]

/-- Every row's mask covers the opcode, and its pattern has no bit outside the opcode (R99). -/
theorem opcodeRows_shape : ∀ row ∈ opcodeRows, row.mask.extractLsb' 24 8 = BitVec.allOnes 8 ∧ row.pattern &&& 0x00FFFFFF = 0 := by
  decide

section
variable {w : Word} {row : OpcodeRow} (hrow : row ∈ opcodeRows) (hw : w &&& row.mask = row.pattern)
include hrow hw

theorem opcodeOf_of_row : opcodeOf w = opcodeOf row.pattern :=
  extractLsb'_of_and_eq hw (opcodeRows_shape row hrow).1

theorem mustBeZero_of_row : w &&& (row.mask &&& 0x00FFFFFF) = 0 := by
  rw [← BitVec.and_assoc, hw, (opcodeRows_shape row hrow).2]

end

/-! ### The words built from their fields (R92) -/

section
variable {w : Word} {op a b : Byte} {rd re ra rb : Reg} {row : Half}

theorem eq_formatZ (hop : (opcodeOf w).toNat = op.toNat) (h0 : w.extractLsb' 0 24 = 0#24) : w = formatZ op := by
  simp only [formatZ, ← BitVec.eq_of_toNat_eq hop, ← h0, opcodeOf, BitVec.extractLsb'_append_extractLsb'_eq_extractLsb', extractLsb'_whole]

theorem eq_formatS (hop : (opcodeOf w).toNat = op.toNat) (h0 : w.extractLsb' 16 8 = 0#8) (ha : fieldHi w = a) (hb : fieldLo w = b) :
    w = formatS op a b := by
  simp only [formatS, ← BitVec.eq_of_toNat_eq hop, ← h0, ← ha, ← hb, opcodeOf, fieldHi, fieldLo,
    BitVec.extractLsb'_append_extractLsb'_eq_extractLsb', extractLsb'_whole]

theorem eq_formatR (hop : (opcodeOf w).toNat = op.toNat) (hrd : w.extractLsb' 21 3 = .ofFin rd) (hre : w.extractLsb' 18 3 = .ofFin re)
    (hra : w.extractLsb' 15 3 = .ofFin ra) (hrb : w.extractLsb' 12 3 = .ofFin rb) (h0 : w.extractLsb' 0 12 = 0#12) :
    w = formatR op rd re ra rb := by
  simp only [formatR, ← BitVec.eq_of_toNat_eq hop, ← hrd, ← hre, ← hra, ← hrb, ← h0, opcodeOf,
    BitVec.extractLsb'_append_extractLsb'_eq_extractLsb', extractLsb'_whole]

theorem eq_formatI (hop : (opcodeOf w).toNat = op.toNat) (hrd : w.extractLsb' 21 3 = .ofFin rd) (hra : w.extractLsb' 18 3 = .ofFin ra)
    (h0 : w.extractLsb' 16 2 = 0#2) (ha : fieldHi w = a) (hb : fieldLo w = b) : w = formatI op rd ra a b := by
  simp only [formatI, ← BitVec.eq_of_toNat_eq hop, ← hrd, ← hra, ← h0, ← ha, ← hb, opcodeOf, fieldHi, fieldLo,
    BitVec.extractLsb'_append_extractLsb'_eq_extractLsb', extractLsb'_whole]

theorem eq_formatB (hop : (opcodeOf w).toNat = op.toNat) (h0 : w.extractLsb' 16 8 = 0#8) (hrow : fieldRow w = row) :
    w = formatB op row := by
  simp only [formatB, ← BitVec.eq_of_toNat_eq hop, ← h0, ← hrow, opcodeOf, fieldRow,
    BitVec.extractLsb'_append_extractLsb'_eq_extractLsb', extractLsb'_whole]

end

/-! ### The rows of the opcode map and the decoder (R99, R101) -/

/-- The row of `PDIV` (R99). -/
def pdivRow : OpcodeRow := ⟨"PDIV", 0x2C000000, 0xFF000FFF⟩

theorem pdivRow_mem : pdivRow ∈ opcodeRows := by decide

/-- Condition (b) of R101: the `PDIV` row with equal destinations. -/
def SameDestinations (w : Word) : Prop :=
  w &&& pdivRow.mask = pdivRow.pattern ∧ w.extractLsb' 21 3 = w.extractLsb' 18 3

theorem fieldRd_eq_fieldRe_iff (w : Word) : fieldRd w = fieldRe w ↔ w.extractLsb' 21 3 = w.extractLsb' 18 3 :=
  BitVec.toFin_inj

theorem decode_of_sameDestinations {w : Word} (h : SameDestinations w) : decode w = .error .pdivSameDestination := by
  obtain ⟨hrow, hreg⟩ := h
  rw [decode, opcodeOf_of_row pdivRow_mem hrow]
  exact if_pos ⟨mustBeZero_of_row pdivRow_mem hrow, (fieldRd_eq_fieldRe_iff w).2 hreg⟩

/-- A word that matches a row decodes to a command, unless its destinations are the same. -/
theorem decode_of_row {w : Word} {row : OpcodeRow} (hrow : row ∈ opcodeRows) (hw : w &&& row.mask = row.pattern)
    (hd : ¬ SameDestinations w) : ∃ i, decode w = .ok i := by
  have hop := opcodeOf_of_row hrow hw
  have hz := mustBeZero_of_row hrow hw
  rw [decode, hop]
  by_cases hpdiv : row = pdivRow
  · subst hpdiv
    have hne : ¬ fieldRd w = fieldRe w := fun h => hd ⟨hw, (fieldRd_eq_fieldRe_iff w).1 h⟩
    exact ⟨_, (if_neg fun h => hne h.2).trans (if_pos hz)⟩
  · fin_cases hrow
    -- the 19th row is `PDIV`'s
    on_goal 19 => exact absurd rfl hpdiv
    all_goals exact ⟨_, if_pos hz⟩

/-! ### What the decoder gives (R92, R98, R99) -/

section
variable {w m : Word} {i j : Instr}

/-- A field of must-be-zero bits is zero. -/
theorem field_eq_zero (h : w &&& m = 0) {s l : Nat} (hm : m.extractLsb' s l = BitVec.allOnes l := by decide) :
    w.extractLsb' s l = 0#l := by
  rw [extractLsb'_of_and_eq h hm]
  exact BitVec.extractLsb'_zero

/-- A decoded command is well-formed and its encoding is the word. -/
theorem eq_encode_of_decode (h : decode w = .ok i) : i.wf = true ∧ w = encode i := by
  unfold decode at h
  split at h
  case h_19 hop =>
    split at h
    · cases h
    · next hne =>
      obtain ⟨h0, rfl⟩ := requireZero_ok h
      have hwf : fieldRd w ≠ fieldRe w := fun e => hne ⟨h0, e⟩
      exact ⟨by simpa [Instr.wf] using hwf, eq_formatR hop rfl rfl rfl rfl (field_eq_zero h0)⟩
  case h_27 => cases h
  -- the other rows, by format and by the fields that must be zero
  all_goals
    rename_i hop
    obtain ⟨h0, rfl⟩ := requireZero_ok h
    refine ⟨rfl, ?_⟩
  case h_1 | h_2 | h_24 | h_26 => exact eq_formatZ hop (field_eq_zero h0)
  case h_3 | h_4 | h_20 | h_21 => exact eq_formatS hop (field_eq_zero h0) rfl rfl
  case h_5 | h_6 | h_7 => exact eq_formatS hop (field_eq_zero h0) rfl (field_eq_zero h0)
  case h_8 | h_9 =>
    exact eq_formatR hop rfl (field_eq_zero h0) (field_eq_zero h0) (field_eq_zero h0) (field_eq_zero h0)
  case h_10 | h_23 => exact eq_formatI hop rfl (field_eq_zero h0) (field_eq_zero h0) rfl rfl
  case h_11 => exact eq_formatI hop (field_eq_zero h0) rfl (field_eq_zero h0) rfl (field_eq_zero h0)
  case h_12 =>
    exact eq_formatR hop (field_eq_zero h0) (field_eq_zero h0) rfl (field_eq_zero h0) (field_eq_zero h0)
  case h_13 | h_14 =>
    exact eq_formatI hop (field_eq_zero h0) rfl (field_eq_zero h0) (field_eq_zero h0) rfl
  case h_15 | h_16 => exact eq_formatR hop rfl (field_eq_zero h0) rfl rfl (field_eq_zero h0)
  case h_17 => exact eq_formatI hop rfl rfl (field_eq_zero h0) (field_eq_zero h0) rfl
  case h_18 => exact eq_formatI hop rfl rfl (field_eq_zero h0) rfl rfl
  case h_22 => exact eq_formatI hop rfl (field_eq_zero h0) (field_eq_zero h0) (field_eq_zero h0) rfl
  case h_25 => exact eq_formatB hop (field_eq_zero h0) rfl

/-- The opcode and the fields of a command's word read back: the decoder gives no other command for it. -/
theorem eq_of_decode_encode (h : decode (encode i) = .ok j) : i = j := by
  cases i
  case pdiv =>
    simp only [decode, encode, opcodeOf_formatR, fieldRd_formatR, fieldRe_formatR, fieldRaR_formatR, fieldRb_formatR,
      BitVec.ofNat_eq_ofNat, BitVec.toNat_ofNat, Nat.reducePow, Nat.reduceMod] at h
    split at h
    · cases h
    · exact (requireZero_ok h).2
  all_goals exact (requireZero_ok (by simpa [decode, encode] using h)).2

open Laws.EncodesInRow in
/-- The word of every command matches a row (R99). -/
theorem encodesInRow : ∀ i, Statement i
  | .nop => nop
  | .sreset => sreset
  | .gfadd _ _ => gfadd _ _
  | .gfmul _ _ => gfmul _ _
  | .gfinv _ => gfinv _
  | .gfexp _ => gfexp _
  | .gflog _ => gflog _
  | .pzero _ => pzero _
  | .pone _ => pone _
  | .pld _ _ _ => pld _ _ _
  | .pst _ _ => pst _ _
  | .pdeg _ => pdeg _
  | .pcoef _ _ => pcoef _ _
  | .peval _ _ => peval _ _
  | .padd _ _ _ => padd _ _ _
  | .pmul _ _ _ => pmul _ _ _
  | .pscl _ _ _ => pscl _ _ _
  | .pmulm _ _ _ _ => pmulm _ _ _ _
  | .pdiv _ _ _ _ => pdiv _ _ _ _
  | .rsenc _ _ => rsenc _ _
  | .rsdec _ _ => rsdec _ _
  | .rsgen _ _ => rsgen _ _
  | .rssyn _ _ _ => rssyn _ _ _
  | .bingm => bingm
  | .bingr _ => bingr _
  | .binhm => binhm

/-- Only the word of a `PDIV` that is not well-formed has the same destinations. -/
theorem not_sameDestinations_encode (h : i.wf = true) : ¬ SameDestinations (encode i) := by
  rintro ⟨hrow, hreg⟩
  have hop : opcodeOf (encode i) = 0x2C := opcodeOf_of_row pdivRow_mem hrow
  cases i
  case pdiv rd re ra rb =>
    have heq : rd = re := by simpa [encode] using (fieldRd_eq_fieldRe_iff _).2 hreg
    simp [Instr.wf, heq] at h
  all_goals simp [encode] at hop

theorem decode_encode (h : i.wf = true) : decode (encode i) = .ok i := by
  obtain ⟨row, hmem, -, hrow⟩ := encodesInRow i
  obtain ⟨j, hj⟩ := decode_of_row hmem hrow (not_sameDestinations_encode h)
  obtain rfl := eq_of_decode_encode hj
  exact hj

end

theorem decode_ne_ok_iff (w : Word) :
    (∀ i, decode w ≠ .ok i) ↔ (∀ row ∈ opcodeRows, w &&& row.mask ≠ row.pattern) ∨ SameDestinations w := by
  constructor
  · intro h
    by_cases hd : SameDestinations w
    · exact .inr hd
    · refine .inl fun row hmem hrow => ?_
      obtain ⟨i, hi⟩ := decode_of_row hmem hrow hd
      exact h i hi
  · rintro (h | h) i hi
    · obtain ⟨-, rfl⟩ := eq_encode_of_decode hi
      obtain ⟨row, hmem, -, hrow⟩ := encodesInRow i
      exact h row hmem hrow
    · rw [decode_of_sameDestinations h] at hi
      cases hi

end Sys2Proof

namespace Sys2Proof.Machine

/-! ### The statements about the command word (R98 to R103, R105) -/

/-- Settles O8: decoding a word rebuilds it from its fields, and the word of a command matches the command's row. -/
theorem decodeInvertsEncode : Obligations.DecodeInvertsEncode := by
  unfold Obligations.DecodeInvertsEncode
  refine fun w i => ⟨eq_encode_of_decode, ?_⟩
  rintro ⟨hwf, rfl⟩
  exact decode_encode hwf

/-- Settles O2: the illegal words by rows, and what `runCommand` does with one. -/
theorem illegalWordsRecordIllegalCommand : Obligations.IllegalWordsRecordIllegalCommand := by
  unfold Obligations.IllegalWordsRecordIllegalCommand
  exact ⟨decode_ne_ok_iff, fun s w h => ⟨_, runCommand_of_illegal h s, recordsError_raise .illegalCommand w s⟩⟩

/-- Settles O7: the decoder is evaluated on each of the nine words. -/
theorem specWordsDecode : Obligations.SpecWordsDecode := by
  unfold Obligations.SpecWordsDecode
  decide

/-- Settles O9: the 26 opcodes differ (R103). -/
theorem opcodeRowsNeverOverlap : Obligations.OpcodeRowsNeverOverlap := by
  unfold Obligations.OpcodeRowsNeverOverlap
  have hne : opcodeRows.Pairwise fun r q => opcodeOf r.pattern ≠ opcodeOf q.pattern := by decide
  refine hne.imp_of_mem fun hr hq h w ⟨hwr, hwq⟩ => h ?_
  rw [← opcodeOf_of_row hr hwr, opcodeOf_of_row hq hwq]

/-! ### What the pseudo-instructions compute (R106, R155, R156, R167, R169, R170) -/

@[simp] theorem glog_one (f : Field) : glog f 1#8 = 0 := by
  rw [show 1#8 = gexp f 0 from (gexp_zero f).symm, glog_gexp f (by omega)]

theorem gmul_comm (f : Field) (a b : Byte) : gmul f a b = gmul f b a := by
  simp only [gmul, or_comm, Nat.add_comm]

/-- One is neutral (R125). -/
@[simp] theorem gmul_one (f : Field) (a : Byte) : gmul f a 1#8 = a := by
  by_cases ha : a = 0#8
  · rw [ha, zero_gmul]
  · rw [gmul_of_ne_zero f ha (by decide), glog_one, Nat.add_zero, Nat.mod_eq_of_lt (glog_lt f ha), gexp_glog f ha]

@[simp] theorem one_gmul (f : Field) (a : Byte) : gmul f 1#8 a = a := by
  rw [gmul_comm, gmul_one]

theorem pscl_one (f : Field) {p : Poly} (hp : PolyOk p) : pscl f p 1 = p := by
  have hmap : (p.map fun x => gmul f x 1) = p := List.map_id'' (gmul_one f) p
  rw [pscl, hmap, norm_of_polyOk hp]

theorem polyOk_padd {p q : Poly} (hp : PolyOk p) (hq : PolyOk q) : PolyOk (padd p q) :=
  polyOk_norm (by rw [length_xorAligned]; exact max_le hp.2.1 hq.2.1)

theorem norm_zeros (n : Nat) : norm (List.replicate n 0) = [0] := by
  induction n with
  | zero => rfl
  | succ n ih =>
    cases n with
    | zero => rfl
    | succ n => exact ih

/-- A multiple of the zero polynomial is zero (R156). -/
theorem zero_pmulm (f : Field) (d : Nat) (c : Byte) : pmulm f [0] d c = [0] := by
  unfold pmulm
  split
  · rfl
  · rw [List.map_singleton, show gmul f 0 c = 0 from zero_gmul f c]
    exact norm_zeros (d + 1)

/-- The monomial `c·x^d` (R106). -/
theorem one_pmulm (f : Field) (d : Nat) (c : Byte) : pmulm f [1] d c = if c = 0 then [0] else c :: List.replicate d 0 := by
  unfold pmulm
  split
  · rfl
  · next hc =>
    rw [List.map_singleton, show gmul f 1 c = c from one_gmul f c]
    exact norm_eq_self (by simp) (.inr hc)

theorem polyOk_pmulm (f : Field) {p : Poly} {d : Nat} (c : Byte) (h : p = [0] ∨ p.length + d ≤ 256) :
    PolyOk (pmulm f p d c) := by
  have h0 : PolyOk [0] := polyOk_norm (l := [0]) (by decide)
  rcases h with rfl | h
  · rwa [zero_pmulm]
  · unfold pmulm
    split
    · exact h0
    · exact polyOk_norm (by simpa using h)

/-- A command that writes a normal polynomial to a register, and nothing else. -/
theorem succeedsWith_writeP {i : Instr} {s : State} {rd : Reg} {r : Poly} (h : exec i s = finish i s (.ok (s.writeP rd r)))
    (hr : PolyOk r) : SucceedsWith i s { s with p := s.p.set rd r } := by
  have hs := succeedsWith_of_finish h (State.writeP_status s rd r)
  rwa [State.writeP, norm_of_polyOk hr] at hs

/-- `PMULM` whose result fits (R170). -/
theorem succeedsWith_pmulm (rd ra : Reg) (d c : Byte) {s : State} (h : s.readP ra = [0] ∨ (s.readP ra).length + d.toNat ≤ 256) :
    SucceedsWith (.pmulm rd ra d c) s { s with p := s.p.set rd (pmulm s.fld (s.readP ra) d.toNat c) } := by
  have hok := polyOk_pmulm s.fld c h
  refine succeedsWith_writeP ?_ hok
  exact congrArg (finish _ s) (if_neg (Nat.not_lt.2 hok.2.1))

/-- Settles O36: `PSCL` by 1, `PADD` onto the destination, `PMULM` by 1, and `PMULM` of the constant one that `PONE` left. -/
theorem pseudoInstructionsMeanWhatTheySay : Obligations.PseudoInstructionsMeanWhatTheySay := by
  unfold Obligations.PseudoInstructionsMeanWhatTheySay
  intro rd ra d c s hs
  refine ⟨?_, ⟨_, succeedsWith_writeP rfl (polyOk_padd (hs rd) (hs ra)), polyOk_padd (hs rd) (hs ra), coeff_padd _ _⟩,
    fun hfit => ⟨_, succeedsWith_pmulm rd ra d 1 hfit, polyOk_pmulm s.fld 1 hfit, fun k => ?_⟩, ?_⟩
  · have hr := pscl_one s.fld (hs ra)
    have h := succeedsWith_writeP (i := .pscl rd ra 1) (s := s) rfl (hr.symm ▸ hs ra)
    rwa [hr] at h
  · rw [coeff_pmulm]
    simp
  · refine ⟨(s.writeP rd [1]).succeed, rfl, ?_⟩
    have hone : (s.writeP rd [1]).succeed.readP rd = [1] := readP_writeP_self s rd [1]
    have hfit : ((s.writeP rd [1]).succeed.readP rd).length + d.toNat ≤ 256 := by
      have := d.isLt
      rw [hone, List.length_singleton]
      omega
    have h := succeedsWith_pmulm rd rd d c (.inr hfit)
    rwa [hone, one_pmulm] at h

end Sys2Proof.Machine

/-! The family of spec/40_gf_scalar.md: the two fields and the scalar commands. -/

namespace Sys2Proof.Machine

/-! ### The reduction of R128 and the loop of R122 -/

/-- One pass of R128's reduction, at bit `i`. -/
def reduceBit (prim i r : Nat) : Nat := if r.testBit i then r ^^^ (prim <<< (i - 8)) else r

theorem reduceModulo_eq (prim r : Nat) :
    reduceModulo prim r = [14, 13, 12, 11, 10, 9, 8].foldl (fun r i => reduceBit prim i r) r := rfl

theorem reduceBit_of_lt (prim : Nat) {i r : Nat} (h : r < 2 ^ i) : reduceBit prim i r = r := by
  rw [reduceBit, Nat.testBit_lt_two_pow h, if_neg Bool.false_ne_true]

theorem reduceBit_xor (prim i x y : Nat) : reduceBit prim i (x ^^^ y) = reduceBit prim i x ^^^ reduceBit prim i y := by
  unfold reduceBit
  rw [Nat.testBit_xor]
  cases x.testBit i <;> cases y.testBit i <;> simp [Nat.xor_assoc, Nat.xor_comm, Nat.xor_left_comm]

/-- A pass commutes with a shift. -/
theorem reduceBit_shiftLeft (prim r : Nat) {i : Nat} (h : 8 ≤ i) :
    reduceBit prim (i + 1) (r <<< 1) = reduceBit prim i r <<< 1 := by
  have hp : prim <<< (i + 1 - 8) = (prim <<< (i - 8)) <<< 1 := by
    rw [← Nat.shiftLeft_add]
    congr 1
    omega
  unfold reduceBit
  rw [Nat.testBit_shiftLeft, hp, ← Nat.shiftLeft_xor_distrib]
  simp only [Nat.le_add_left, decide_true, Bool.true_and, Nat.add_sub_cancel]
  split <;> rfl

/-- A pass clears its bit: the polynomial has degree 8 (R120). -/
theorem reduceBit_lt (f : Field) {i r : Nat} (hi : 8 ≤ i) (hr : r < 2 ^ (i + 1)) : reduceBit f.prim i r < 2 ^ i := by
  have htop : f.prim.testBit 8 = true ∧ f.prim < 2 ^ 9 := by cases f <;> decide
  have hr' : ∀ j > i, r.testBit j = false := fun j hj =>
    Nat.testBit_lt_two_pow (hr.trans_le (Nat.pow_le_pow_right (by omega) hj))
  have hp : ∀ k > 8, f.prim.testBit k = false := fun k hk =>
    Nat.testBit_lt_two_pow (htop.2.trans_le (Nat.pow_le_pow_right (by omega) hk))
  refine Nat.lt_pow_two_of_testBit _ fun j hj => ?_
  unfold reduceBit
  split
  · next hbit =>
    rw [Nat.testBit_xor, Nat.testBit_shiftLeft, decide_eq_true (show j ≥ i - 8 by omega), Bool.true_and]
    rcases Nat.eq_or_lt_of_le hj with rfl | hlt
    · rw [hbit, Nat.sub_sub_self hi, htop.1, Bool.xor_self]
    · rw [hr' j hlt, hp _ (by omega), Bool.xor_self]
  · next hbit =>
    rcases Nat.eq_or_lt_of_le hj with rfl | hlt
    · exact Bool.eq_false_of_not_eq_true hbit
    · exact hr' j hlt

/-- A pass of the loop of R122 is a shift and the last pass of R128's reduction. -/
theorem timesAlpha_eq (f : Field) {x : Nat} (h : x < 256) : timesAlpha f.prim x = reduceBit f.prim 8 (x <<< 1) := by
  have hx : x <<< 1 < 2 ^ 9 := by rw [Nat.shiftLeft_eq]; omega
  unfold timesAlpha
  split
  · next hge =>
    have hbit : (x <<< 1).testBit 8 = true := by
      rw [Nat.testBit_eq_decide_div_mod_eq, decide_eq_true_eq]
      omega
    have hlt := reduceBit_lt f le_rfl hx
    rw [reduceBit, if_pos hbit, Nat.sub_self, Nat.shiftLeft_zero] at hlt ⊢
    exact Nat.and_two_pow_sub_one_of_lt_two_pow (n := 8) hlt
  · next hge => exact (reduceBit_of_lt _ (by omega)).symm

theorem timesAlpha_lt (f : Field) {x : Nat} (h : x < 256) : timesAlpha f.prim x < 256 := by
  rw [timesAlpha_eq f h]
  exact reduceBit_lt f le_rfl (by rw [Nat.shiftLeft_eq]; omega)

/-- Multiplication by α is linear over XOR. -/
theorem timesAlpha_xor (f : Field) {x y : Nat} (hx : x < 256) (hy : y < 256) :
    timesAlpha f.prim (x ^^^ y) = timesAlpha f.prim x ^^^ timesAlpha f.prim y := by
  rw [timesAlpha_eq f hx, timesAlpha_eq f hy, timesAlpha_eq f (Nat.xor_lt_two_pow (n := 8) hx hy),
    Nat.shiftLeft_xor_distrib, reduceBit_xor]

theorem iterate_timesAlpha_xor (f : Field) (n : Nat) {x y : Nat} (hx : x < 256) (hy : y < 256) :
    (timesAlpha f.prim)^[n] (x ^^^ y) = (timesAlpha f.prim)^[n] x ^^^ (timesAlpha f.prim)^[n] y := by
  induction n generalizing x y with
  | zero => rfl
  | succ n ih =>
    simp only [Function.iterate_succ_apply]
    rw [timesAlpha_xor f hx hy, ih (timesAlpha_lt f hx) (timesAlpha_lt f hy)]

/-! ### R128's reduction -/

/-- The reduction is linear over XOR. -/
theorem reduceModulo_xor (prim x y : Nat) : reduceModulo prim (x ^^^ y) = reduceModulo prim x ^^^ reduceModulo prim y := by
  simp only [reduceModulo_eq, List.foldl_cons, List.foldl_nil, reduceBit_xor]

theorem reduceModulo_of_lt (prim : Nat) {x : Nat} (h : x < 256) : reduceModulo prim x = x := by
  have hpass : ∀ i ≥ 8, reduceBit prim i x = x := fun i hi =>
    reduceBit_of_lt prim (h.trans_le (show 2 ^ 8 ≤ 2 ^ i from Nat.pow_le_pow_right (by omega) hi))
  simp [reduceModulo_eq, hpass]

/-- Reducing after a shift is reducing first and then multiplying by α. -/
theorem reduceModulo_shiftLeft (f : Field) {r : Nat} (h : r < 2 ^ 14) :
    reduceModulo f.prim (r <<< 1) = timesAlpha f.prim (reduceModulo f.prim r) := by
  have hlast := reduceBit_lt f (i := 8) le_rfl <| reduceBit_lt f (i := 9) (by omega) <|
    reduceBit_lt f (i := 10) (by omega) <| reduceBit_lt f (i := 11) (by omega) <|
    reduceBit_lt f (i := 12) (by omega) <| reduceBit_lt f (i := 13) (by omega) h
  simp only [reduceModulo_eq, List.foldl_cons, List.foldl_nil, reduceBit_of_lt f.prim h]
  rw [timesAlpha_eq f hlast]
  simp [reduceBit_shiftLeft]

theorem reduceModulo_byte_shiftLeft (f : Field) (a : Byte) {n : Nat} (hn : n < 8) :
    reduceModulo f.prim (a.toNat <<< n) = (timesAlpha f.prim)^[n] a.toNat := by
  induction n with
  | zero => exact reduceModulo_of_lt _ a.isLt
  | succ n ih =>
    have hlt : a.toNat <<< n < 2 ^ 14 := by
      rw [Nat.shiftLeft_eq]
      calc a.toNat * 2 ^ n ≤ a.toNat * 2 ^ 6 := Nat.mul_le_mul_left _ (Nat.pow_le_pow_right (by omega) (by omega))
        _ < 2 ^ 14 := by have := a.isLt; omega
    rw [Nat.shiftLeft_add, reduceModulo_shiftLeft f hlt, ih (by omega), Function.iterate_succ_apply']

/-! ### The powers of α (R122) -/

/-- Entry `i` of a table that the loop of R122 builds from `x`. -/
theorem expEntries_byte (f : Field) {n i x : Nat} (hi : i < n) (hx : x < 256) :
    expEntries f.prim n x >>> (8 * i) % 256 = (timesAlpha f.prim)^[i] x := by
  induction i generalizing n x with
  | zero =>
    obtain ⟨n, rfl⟩ := Nat.exists_eq_succ_of_ne_zero (Nat.ne_of_gt hi)
    rw [Nat.mul_zero, Nat.shiftRight_zero, expEntries, Nat.add_mul_mod_self_left, Nat.mod_eq_of_lt hx]
    rfl
  | succ i ih =>
    obtain ⟨n, rfl⟩ := Nat.exists_eq_succ_of_ne_zero (Nat.ne_of_gt (Nat.zero_lt_of_lt hi))
    have hdrop : (x + 256 * expEntries f.prim n (timesAlpha f.prim x)) >>> 8 = expEntries f.prim n (timesAlpha f.prim x) := by
      rw [Nat.shiftRight_eq_div_pow]
      omega
    rw [expEntries, Nat.mul_succ, Nat.add_comm (8 * i), Nat.shiftRight_add, hdrop, ih (by omega) (timesAlpha_lt f hx),
      Function.iterate_succ_apply]

theorem alphaPower_eq_iterate (f : Field) (n : Nat) : alphaPower f n = (timesAlpha f.prim)^[n] 1 := by
  induction n with
  | zero => rfl
  | succ n ih => rw [alphaPower, ih, Function.iterate_succ_apply']

/-- The table's entry is the loop's value (R122). -/
theorem toNat_gexp (f : Field) {i : Nat} (h : i < 256) : (gexp f i).toNat = alphaPower f i := by
  have htable : gexp f i = BitVec.ofNat 8 (expEntries f.prim 256 1 >>> (8 * i)) := by cases f <;> rfl
  rw [htable, BitVec.toNat_ofNat, alphaPower_eq_iterate]
  exact expEntries_byte f h (by omega)

/-- The order of α divides 255 (R122). -/
theorem alphaPower_mod (f : Field) (n : Nat) : alphaPower f (n % 255) = alphaPower f n := by
  have hperiod : Function.IsPeriodicPt (timesAlpha f.prim) 255 1 := by
    change (timesAlpha f.prim)^[255] 1 = 1
    rw [← alphaPower_eq_iterate, ← toNat_gexp f (by omega), gexp_255]
    rfl
  rw [alphaPower_eq_iterate, hperiod.iterate_mod_apply, alphaPower_eq_iterate]

/-- The product with α^i is `i` multiplications by α. -/
theorem toNat_gexp_gmul (f : Field) {i : Nat} (hi : i < 255) (b : Byte) :
    (gmul f (gexp f i) b).toNat = (timesAlpha f.prim)^[i] b.toNat := by
  by_cases hb : b = 0#8
  · rw [hb, gmul_zero]
    exact (Function.iterate_fixed (show timesAlpha f.prim 0 = 0 from rfl) i).symm
  · have hpow : b.toNat = alphaPower f (glog f b) := by
      rw [← toNat_gexp f (by have := glog_lt f hb; omega), gexp_glog f hb]
    rw [gmul_of_ne_zero f (gexp_ne_zero f (by omega)) hb, glog_gexp f hi, toNat_gexp f (by omega), alphaPower_mod, hpow,
      alphaPower_eq_iterate, alphaPower_eq_iterate, Function.iterate_add_apply]

/-! ### The laws of the field (R125, R126) -/

theorem gmul_assoc (f : Field) (a b c : Byte) : gmul f (gmul f a b) c = gmul f a (gmul f b c) := by
  by_cases ha : a = 0#8
  · simp [ha]
  by_cases hb : b = 0#8
  · simp [hb]
  by_cases hc : c = 0#8
  · simp [hc]
  rw [gmul_of_ne_zero f (gmul_ne_zero f ha hb) hc, gmul_of_ne_zero f ha (gmul_ne_zero f hb hc), glog_gmul f ha hb,
    glog_gmul f hb hc, Nat.mod_add_mod, Nat.add_mod_mod, Nat.add_assoc]

/-- Distributivity: a non-zero factor is a power of α, and multiplication by α is linear. -/
theorem gmul_xor (f : Field) (a b c : Byte) : gmul f a (b ^^^ c) = gmul f a b ^^^ gmul f a c := by
  by_cases ha : a = 0#8
  · simp [ha]
  rw [← gexp_glog f ha]
  apply BitVec.eq_of_toNat_eq
  simp only [BitVec.toNat_xor, toNat_gexp_gmul f (glog_lt f ha)]
  exact iterate_timesAlpha_xor f _ b.isLt c.isLt

theorem gmul_ginv (f : Field) {a : Byte} (ha : a ≠ 0) : gmul f a (ginv f a) = 1 := by
  simpa using gmul_gmul_ginv f (show (1 : Byte) ≠ 0 by decide) ha

/-- Settles O26: the four laws, each a lemma. -/
theorem fieldLaws : Obligations.FieldLaws := by
  unfold Obligations.FieldLaws
  exact fun f a b c => ⟨gmul_comm f a b, gmul_assoc f a b c, gmul_xor f a b c, gmul_one f a⟩

/-! ### Multiplication without tables (R128) -/

/-- The first eight powers of α are the powers of 2. -/
theorem gexp_of_lt (f : Field) {n : Nat} (hn : n < 8) : gexp f n = BitVec.ofNat 8 (2 ^ n) := by
  have hentries : ∀ k < 8, gexp .qr k = BitVec.ofNat 8 (2 ^ k) ∧ gexp .dataMatrix k = BitVec.ofNat 8 (2 ^ k) := by
    decide +kernel
  cases f
  · exact (hentries n hn).1
  · exact (hentries n hn).2

/-- The product of `a` with one bit of the other factor. -/
theorem reduceModulo_shiftLeft_bit (f : Field) (a : Byte) {n : Nat} (hn : n < 8) :
    reduceModulo f.prim (a.toNat <<< n) = (gmul f a (BitVec.ofNat 8 (2 ^ n))).toNat := by
  rw [reduceModulo_byte_shiftLeft f a hn, gmul_comm, ← gexp_of_lt f hn, toNat_gexp_gmul f (by omega)]

/-- The low `n + 1` bits are the low `n` bits and bit `n`. -/
theorem mod_two_pow_succ_eq_xor (b n : Nat) :
    b % 2 ^ (n + 1) = if b.testBit n then b % 2 ^ n ^^^ 2 ^ n else b % 2 ^ n := by
  have hsplit : ∀ j, (b % 2 ^ (n + 1)).testBit j = ((b % 2 ^ n).testBit j ^^ (b.testBit n && decide (n = j))) := by
    intro j
    simp only [Nat.testBit_mod_two_pow]
    rcases Nat.lt_trichotomy j n with h | rfl | h
    · simp [h, Nat.lt_succ_of_lt h, Nat.ne_of_gt h]
    · simp
    · simp [Nat.not_lt_of_gt h, Nat.not_lt_of_ge h, Nat.ne_of_lt h]
  refine Nat.eq_of_testBit_eq fun j => ?_
  rw [hsplit]
  split
  · next hb => rw [hb, Bool.true_and, Nat.testBit_xor, Nat.testBit_two_pow]
  · next hb => rw [Bool.eq_false_of_not_eq_true hb, Bool.false_and, Bool.xor_false]

/-- R128 with only the low `n` bits of `b`: both sides are linear in `b`, so they agree bit by bit. -/
theorem reduceModulo_lowBits (f : Field) (a : Byte) (b : Nat) {n : Nat} (hn : n ≤ 8) :
    reduceModulo f.prim ((List.range n).foldl (fun r i => if b.testBit i then r ^^^ (a.toNat <<< i) else r) 0) =
      (gmul f a (BitVec.ofNat 8 (b % 2 ^ n))).toNat := by
  induction n with
  | zero => simp [Nat.mod_one, reduceModulo_of_lt]
  | succ n ih =>
    rw [List.range_succ, List.foldl_append, List.foldl_cons, List.foldl_nil, mod_two_pow_succ_eq_xor]
    split
    · rw [reduceModulo_xor, ih (by omega), reduceModulo_shiftLeft_bit f a hn, BitVec.ofNat_xor, gmul_xor, BitVec.toNat_xor]
    · exact ih (by omega)

/-- The table product is R128's. -/
theorem toNat_gmul (f : Field) (a b : Byte) :
    (gmul f a b).toNat = reduceModulo f.prim (carrylessProduct a.toNat b.toNat) := by
  have h := reduceModulo_lowBits f a b.toNat le_rfl
  rw [Nat.mod_eq_of_lt b.isLt, BitVec.ofNat_toNat, BitVec.setWidth_eq] at h
  exact h.symm

/-! ### The scalar commands (R130 to R134) -/

/-- A byte written to `RES` is zero-extended (R29). -/
theorem writeRES_toNat (s : State) (b : Byte) : s.writeRES b.toNat = { s with res := b.setWidth 32 } := by
  rw [State.writeRES, BitVec.ofNat_toNat]

/-- Settles O21: the XOR of two bytes, zero-extended. -/
theorem gfaddXorsOperands : Obligations.GfaddXorsOperands := by
  unfold Obligations.GfaddXorsOperands
  intro a b s
  have h : exec (.gfadd a b) s = finish (.gfadd a b) s (.ok (s.writeRES (a ^^^ b).toNat)) := rfl
  rw [writeRES_toNat] at h
  exact succeedsWith_of_finish h rfl

/-- Settles O22: the table product is the reduced carry-less product. -/
theorem gfmulIsReducedCarrylessProduct : Obligations.GfmulIsReducedCarrylessProduct := by
  unfold Obligations.GfmulIsReducedCarrylessProduct
  intro a b s
  rw [← toNat_gmul]
  exact succeedsWith_of_finish (u := s.writeRES (gmul s.fld a b).toNat) rfl rfl

/-- Settles O23: the command splits on 0 as the statement does, and the product is `gmul_ginv`. -/
theorem gfinvGivesTheInverse : Obligations.GfinvGivesTheInverse := by
  unfold Obligations.GfinvGivesTheInverse
  refine fun a s => ⟨fun ha => ⟨ginv s.fld a, ?_, gmul_ginv s.fld ha⟩, fun ha => ?_⟩
  · rw [← writeRES_toNat]
    exact succeedsWith_of_finish (congrArg (finish _ s) (if_neg ha)) rfl
  · exact failsWith_of_finish (congrArg (finish _ s) (if_pos ha))

/-- Settles O24: the table's entry is the loop's value. -/
theorem gfexpIsPowerOfAlpha : Obligations.GfexpIsPowerOfAlpha := by
  unfold Obligations.GfexpIsPowerOfAlpha
  intro i s
  rw [← toNat_gexp s.fld i.isLt]
  exact succeedsWith_of_finish (u := s.writeRES (gexp s.fld i.toNat).toNat) rfl rfl

/-- Settles O25: the tables are inverse to each other, so the logarithm is one exponent, and the only one. -/
theorem gflogIsTheDiscreteLogarithm : Obligations.GflogIsTheDiscreteLogarithm := by
  unfold Obligations.GflogIsTheDiscreteLogarithm
  refine fun a s => ⟨fun ha => ?_, fun ha => failsWith_of_finish (congrArg (finish _ s) (if_pos ha))⟩
  have hlt := glog_lt s.fld ha
  refine ⟨glog s.fld a, succeedsWith_of_finish (u := s.writeRES (glog s.fld a)) (congrArg (finish _ s) (if_neg ha)) rfl,
    by omega, ?_, fun j hj hpow => ?_⟩
  · rw [← toNat_gexp s.fld (by omega), gexp_glog s.fld ha]
  · have hexp : gexp s.fld j = a := BitVec.eq_of_toNat_eq (by rw [toNat_gexp s.fld (by omega), hpow])
    rw [← hexp, glog_gexp s.fld (by omega)]

end Sys2Proof.Machine

/-! The family of spec/41_gf_poly.md: the polynomial functions by their coefficients, and the polynomial commands. -/

namespace Sys2Proof.Machine

/-! ### Sums over XOR -/

@[simp] theorem xorSum_zero (g : Nat → Byte) : xorSum 0 g = 0 := rfl

theorem xorSum_succ (n : Nat) (g : Nat → Byte) : xorSum (n + 1) g = xorSum n g ^^^ g n := by
  rw [xorSum, List.range_succ, List.foldl_append]
  rfl

/-- The first term in front. -/
theorem xorSum_succ' (n : Nat) (g : Nat → Byte) : xorSum (n + 1) g = g 0 ^^^ xorSum n fun i => g (i + 1) := by
  induction n with
  | zero => simp [xorSum_succ]
  | succ n ih => rw [xorSum_succ, ih, xorSum_succ n fun i => g (i + 1), BitVec.xor_assoc]

theorem xorSum_xor (n : Nat) (g h : Nat → Byte) : (xorSum n fun i => g i ^^^ h i) = xorSum n g ^^^ xorSum n h := by
  induction n with
  | zero => exact BitVec.xor_self.symm
  | succ n ih =>
    simp only [xorSum_succ, ih]
    ac_rfl

@[simp] theorem xorSum_const_zero (n : Nat) : (xorSum n fun _ => 0#8) = 0#8 := by
  induction n with
  | zero => rfl
  | succ n ih => rw [xorSum_succ, ih, BitVec.xor_self]

/-- A sum with one non-zero term at most. -/
theorem xorSum_single (n d : Nat) (g : Nat → Byte) : (xorSum n fun i => if i = d then g i else 0) = if d < n then g d else 0 := by
  induction n with
  | zero => simp
  | succ n ih =>
    rw [xorSum_succ, ih]
    rcases Nat.lt_trichotomy d n with h | rfl | h
    · simp [h, Nat.lt_succ_of_lt h, Nat.ne_of_gt h]
    · simp
    · simp [Nat.not_lt_of_gt h, Nat.not_lt_of_ge h, Nat.ne_of_lt h]

theorem xor_gmul (f : Field) (a b c : Byte) : gmul f (a ^^^ b) c = gmul f a c ^^^ gmul f b c := by
  rw [gmul_comm, gmul_xor, gmul_comm f c a, gmul_comm f c b]

theorem xorSum_gmul (f : Field) (n : Nat) (g : Nat → Byte) (c : Byte) :
    gmul f (xorSum n g) c = xorSum n fun i => gmul f (g i) c := by
  induction n with
  | zero => exact zero_gmul f c
  | succ n ih => rw [xorSum_succ, xorSum_succ, xor_gmul, ih]

/-! ### Stripped polynomials (R22, R150, R151) -/

theorem PolyOk.stripped {p : Poly} (h : PolyOk p) : Stripped p := ⟨h.1, h.2.2⟩

theorem Stripped.polyOk {p : Poly} (h : Stripped p) (hlen : p.length ≤ 256) : PolyOk p := ⟨h.1, hlen, h.2⟩

/-- The zero polynomial is one constant. -/
theorem Stripped.eq_zero_of_isZero {p : Poly} (h : Stripped p) (hz : isZero p = true) : p = [0] := by
  obtain ⟨a, rfl⟩ := List.length_eq_one_iff.1 (h.length_of_isZero hz)
  simpa [isZero] using hz

/-- Any other stripped polynomial has a non-zero leading coefficient. -/
theorem Stripped.headD_ne_zero {p : Poly} (h : Stripped p) (hp : p ≠ [0]) : p.headD 0 ≠ 0 := fun h0 =>
  hp (h.eq_zero_of_isZero (by simpa [isZero] using h0))

/-- The coefficients of the constant zero polynomial. -/
@[simp] theorem coeff_zero (k : Nat) : coeff [0] k = 0 := by simp [coeff_cons]

/-- `coef` below the length is `coeff` (R152). -/
theorem coef_eq_coeff {p : Poly} {k : Nat} (h : k < p.length) : coef p k = coeff p k := (if_pos h).symm

/-! ### Products by their coefficients (R154) -/

/-- Adding the monomial `c·x^d` to the first factor adds `c·x^d` times the second to the product. -/
theorem productCoeff_add_monomial (f : Field) {p p' : Poly} {c : Byte} {d : Nat} (q : Poly)
    (h : ∀ i, coeff p' i = coeff p i ^^^ if i = d then c else 0) (k : Nat) :
    productCoeff f p' q k = productCoeff f p q k ^^^ if k < d then 0 else gmul f c (coeff q (k - d)) := by
  have hterm : ∀ i, gmul f (coeff p' i) (coeff q (k - i)) =
      gmul f (coeff p i) (coeff q (k - i)) ^^^ if i = d then gmul f c (coeff q (k - i)) else 0 := fun i => by
    rw [h, xor_gmul]
    split
    · rfl
    · rw [show gmul f 0 _ = 0 from zero_gmul f _]
  have hk : (if d < k + 1 then gmul f c (coeff q (k - d)) else 0) = if k < d then 0 else gmul f c (coeff q (k - d)) := by
    rw [← ite_not]
    simp only [Nat.lt_succ_iff, not_le]
  simp only [productCoeff, hterm]
  rw [xorSum_xor, xorSum_single, hk]

theorem productCoeff_eq_zero_of_left (f : Field) {p : Poly} (q : Poly) (hp : ∀ i, coeff p i = 0) (k : Nat) :
    productCoeff f p q k = 0 := by
  simp [productCoeff, hp]

theorem productCoeff_eq_zero_of_right (f : Field) (p : Poly) {q : Poly} (hq : ∀ i, coeff q i = 0) (k : Nat) :
    productCoeff f p q k = 0 := by
  simp [productCoeff, hq]

@[simp] theorem coeff_zeros (n k : Nat) : coeff (List.replicate n 0#8) k = 0#8 := by
  simpa using coeff_zeros_append n [] k

/-- The XOR of two lists aligned at their fronts: both are padded with zeros at the end (R154). -/
theorem coeff_xorFront (p q : List Byte) (k : Nat) : coeff (xorFront p q) k =
    coeff (p ++ List.replicate (q.length - p.length) 0) k ^^^ coeff (q ++ List.replicate (p.length - q.length) 0) k := by
  induction p, q using xorFront.induct with
  | case1 ys => simp [xorFront]
  | case2 xs hxs => simp [xorFront]
  | case3 x xs y ys ih =>
    have hx : (xs ++ List.replicate (ys.length - xs.length) (0 : Byte)).length = max xs.length ys.length := by simp; omega
    have hy : (ys ++ List.replicate (xs.length - ys.length) (0 : Byte)).length = max xs.length ys.length := by simp; omega
    simp only [xorFront, List.length_cons, Nat.add_sub_add_right, List.cons_append, coeff_cons, hx, hy, length_xorFront, ih]
    split <;> rfl

theorem coeff_cons_eq_xor (a : Byte) (p : List Byte) (k : Nat) :
    coeff (a :: p) k = coeff p k ^^^ if k = p.length then a else 0 := by
  rw [coeff_cons]
  split
  · next h => simp [h, coeff]
  · exact BitVec.xor_zero.symm

/-- One pass of R154's outer loop adds a multiple of the second factor. -/
theorem coeff_convolve_cons (f : Field) (a : Byte) (p : List Byte) {q : List Byte} (hq : 1 ≤ q.length) (k : Nat) :
    coeff (convolve f (a :: p) q) k =
      coeff (convolve f p q) k ^^^ if k < p.length then 0 else gmul f a (coeff q (k - p.length)) := by
  have hmap : ∀ i, coeff (q.map (gmul f a)) i = gmul f a (coeff q i) := coeff_map (gmul f a) (gmul_zero f a) q
  have hcons : ∀ i, coeff (0 :: convolve f p q) i = coeff (convolve f p q) i := coeff_zeros_append 1 _
  rw [convolve, coeff_xorFront, BitVec.xor_comm]
  simp only [coeff_append_zeros, hmap, hcons, List.length_map, List.length_cons]
  cases p with
  | nil => simp [convolve, Nat.sub_eq_zero_of_le hq]
  | cons b p =>
    have hlen := length_convolve f (b :: p) q (by simp) hq
    rw [List.length_cons] at hlen ⊢
    rw [show q.length - ((convolve f (b :: p) q).length + 1) = 0 by omega,
      show (convolve f (b :: p) q).length + 1 - q.length = p.length + 1 by omega]
    rfl

/-- The loop of R154 computes the product's coefficients. -/
theorem coeff_convolve (f : Field) (p : List Byte) {q : List Byte} (hq : 1 ≤ q.length) (k : Nat) :
    coeff (convolve f p q) k = productCoeff f p q k := by
  induction p with
  | nil => rw [convolve, coeff_nil, productCoeff_eq_zero_of_left f q coeff_nil]
  | cons a p ih => rw [coeff_convolve_cons f a p hq, ih, productCoeff_add_monomial f q (coeff_cons_eq_xor a p)]

/-- The product of stripped polynomials (R154). -/
theorem coeff_pmul (f : Field) {p q : Poly} (hp : Stripped p) (hq : Stripped q) (k : Nat) :
    coeff (pmul f p q) k = productCoeff f p q k := by
  unfold pmul
  split
  · next hz =>
    rw [coeff_zero]
    rcases Bool.or_eq_true_iff.1 hz with hz | hz
    · rw [hp.eq_zero_of_isZero hz, productCoeff_eq_zero_of_left f q coeff_zero]
    · rw [hq.eq_zero_of_isZero hz, productCoeff_eq_zero_of_right f p coeff_zero]
  · rw [coeff_norm, coeff_convolve f p hq.1]

/-- A product whose factor is zero or whose degrees add up to at most 255 fits in a register (R168). -/
theorem polyOk_pmul (f : Field) {p q : Poly} (hp : PolyOk p) (hq : PolyOk q)
    (h : deg p + deg q ≤ 255 ∨ p = [0] ∨ q = [0]) : PolyOk (pmul f p q) := by
  unfold pmul
  split
  · exact polyOk_norm (l := [0]) (by decide)
  · next hz =>
    have hdeg : deg p + deg q ≤ 255 := h.resolve_right fun h0 => hz (by rcases h0 with rfl | rfl <;> simp [isZero])
    refine polyOk_norm ?_
    rw [length_convolve f p q hp.1 hq.1]
    simp only [deg, Config.pcap] at hdeg ⊢
    omega

/-! ### Division (R158) -/

/-- The monomial `c·x^d` has one coefficient (R156). -/
theorem coeff_monomial (f : Field) (d : Nat) (c : Byte) (k : Nat) :
    coeff (pmulm f [1] d c) k = if k = d then c else 0 := by
  rw [one_pmulm]
  split
  · next hc => rw [hc, ite_self, coeff_zero]
  · simp [coeff_cons]

/-- A pass of R158 moves a multiple of the divisor from the remainder to the quotient, so their combination stays. -/
theorem pdivLoop_identity (f : Field) (b : Poly) (inv : Byte) (fuel : Nat) (q r : Poly) (k : Nat) :
    productCoeff f (pdivLoop f b inv fuel q r).1 b k ^^^ coeff (pdivLoop f b inv fuel q r).2 k =
      productCoeff f q b k ^^^ coeff r k := by
  induction fuel generalizing q r with
  | zero => rfl
  | succ fuel ih =>
    unfold pdivLoop
    split
    · generalize deg r - deg b = d
      generalize gmul f (r.headD 0) inv = c
      have hq : ∀ i, coeff (padd q (pmulm f [1] d c)) i = coeff q i ^^^ if i = d then c else 0 := fun i => by
        rw [coeff_padd, coeff_monomial]
      dsimp only
      rw [ih, productCoeff_add_monomial f b hq, coeff_padd, coeff_pmulm, gmul_comm f c, BitVec.xor_comm (coeff r k),
        BitVec.xor_assoc, ← BitVec.xor_assoc _ _ (coeff r k), BitVec.xor_self, BitVec.zero_xor]
    · rfl

/-- The dividend is quotient times divisor plus remainder (R158). -/
theorem pdiv_identity (f : Field) (a b : Poly) (k : Nat) :
    coeff a k = productCoeff f (pdiv f a b).1 b k ^^^ coeff (pdiv f a b).2 k := by
  rw [pdiv, pdivLoop_identity, productCoeff_eq_zero_of_left f b coeff_zero]
  exact BitVec.zero_xor.symm

theorem stripped_pdivLoop_quotient (f : Field) (b : Poly) (inv : Byte) (fuel : Nat) {q : Poly} (r : Poly) (hq : Stripped q) :
    Stripped (pdivLoop f b inv fuel q r).1 := by
  induction fuel generalizing q r with
  | zero => exact hq
  | succ fuel ih =>
    unfold pdivLoop
    split
    · exact ih _ (stripped_norm _)
    · exact hq

theorem stripped_pdiv_quotient (f : Field) (a b : Poly) : Stripped (pdiv f a b).1 :=
  stripped_pdivLoop_quotient f b _ _ a ⟨le_rfl, .inl rfl⟩

/-- Quotient and remainder of registers fit in registers (R171). -/
theorem polyOk_pdiv (f : Field) {a b : Poly} (ha : PolyOk a) (hb : PolyOk b) (h0 : b ≠ [0]) :
    PolyOk (pdiv f a b).1 ∧ PolyOk (pdiv f a b).2 := by
  obtain ⟨hq, hr⟩ := length_pdiv_le f ha hb
  obtain ⟨hs, -⟩ := pdiv_remainder f ha.stripped (hb.stripped.headD_ne_zero h0)
  exact ⟨(stripped_pdiv_quotient f a b).polyOk hq, hs.polyOk hr⟩

/-- The remainder is zero or of lower degree than the divisor (R158). -/
theorem pdiv_remainder_eq_zero_or_deg_lt (f : Field) {a b : Poly} (ha : Stripped a) (hb : Stripped b) (h0 : b ≠ [0]) :
    (pdiv f a b).2 = [0] ∨ deg (pdiv f a b).2 < deg b := by
  obtain ⟨hs, hz | hlt⟩ := pdiv_remainder f ha (hb.headD_ne_zero h0)
  · exact .inl (hs.eq_zero_of_isZero hz)
  · have := hs.1
    simp only [deg]
    exact .inr (by omega)

/-! ### Evaluation (R157) -/

/-- A coefficient appended at the end is the constant term. -/
theorem coeff_append_singleton (p : List Byte) (c : Byte) (k : Nat) :
    coeff (p ++ [c]) k = if k = 0 then c else coeff p (k - 1) := by
  cases k <;> simp [coeff_eq_reverse]

/-- One pass of Horner's loop, on the value instead of the accumulator: `(p·x + c)(a)` = `p(a)·a + c`. -/
theorem polyValue_append_singleton (f : Field) (p : List Byte) (c a : Byte) :
    polyValue f (p ++ [c]) a = gmul f (polyValue f p a) a ^^^ c := by
  have hterm : ∀ i, gmul f (coeff (p ++ [c]) (i + 1)) (fieldPower f a (i + 1)) =
      gmul f (gmul f (coeff p i) (fieldPower f a i)) a := fun i => by
    rw [coeff_append_singleton, fieldPower, gmul_assoc]
    rfl
  have hconst : gmul f (coeff (p ++ [c]) 0) (fieldPower f a 0) = c := by
    rw [coeff_append_singleton, fieldPower]
    exact gmul_one f c
  simp only [polyValue, List.length_append, List.length_singleton]
  rw [xorSum_succ', hconst, xorSum_gmul, BitVec.xor_comm]
  simp only [hterm]

/-- Horner's loop gives the value at the point (R157). -/
theorem peval_eq_polyValue (f : Field) (p : Poly) (a : Byte) : peval f p a = polyValue f p a := by
  induction p using List.reverseRecOn with
  | nil => rfl
  | append_singleton p c ih =>
    rw [polyValue_append_singleton, ← ih, peval, List.foldl_append]
    rfl

/-! ### How the polynomial commands end -/

/-- A result that fits is written (R159). -/
theorem succeedsWith_writeCapped {i : Instr} {s : State} {rd : Reg} {r : Poly} (h : exec i s = finish i s (s.writeCapped rd r))
    (hr : PolyOk r) : SucceedsWith i s { s with p := s.p.set rd r } := by
  refine succeedsWith_writeP (h.trans (congrArg (finish i s) ?_)) hr
  exact if_neg (Nat.not_lt.2 hr.2.1)

/-- A result that does not fit is an error (R159). -/
theorem failsWith_writeCapped {i : Instr} {s : State} {rd : Reg} {r : Poly} (h : exec i s = finish i s (s.writeCapped rd r))
    (hr : 256 < r.length) : FailsWith i s .illegalArgument :=
  failsWith_of_finish (h.trans (congrArg (finish i s) (if_pos hr)))

/-- Settles O35: the pass invariant `pdivLoop_identity` gives the division identity, and the loop's end the lower degree. -/
theorem pdivIsDivisionWithRemainder : Obligations.PdivIsDivisionWithRemainder := by
  unfold Obligations.PdivIsDivisionWithRemainder
  intro rd re ra rb s hs
  have hz := isZero_iff (hs rb)
  refine ⟨fun hne hb => ?_, fun hne hb => ?_, fun heq => failsWith_of_finish (congrArg (finish _ s) (if_pos heq))⟩
  · obtain ⟨hq, hr⟩ := polyOk_pdiv s.fld (hs ra) (hs rb) hb
    refine ⟨_, _, ?_, hq, hr, pdiv_remainder_eq_zero_or_deg_lt s.fld (hs ra).stripped (hs rb).stripped hb,
      pdiv_identity s.fld _ _⟩
    have h : exec (.pdiv rd re ra rb) s = _ := congrArg (finish _ s) ((if_neg hne).trans (if_neg (mt hz.1 hb)))
    have hsucceeds := succeedsWith_of_finish h rfl
    rwa [State.writeP, State.writeP, norm_of_polyOk hq, norm_of_polyOk hr] at hsucceeds
  · exact failsWith_of_finish (congrArg (finish _ s) ((if_neg hne).trans (if_pos (hz.2 hb))))

/-- Settles O33: the coefficients are `coeff_pmul`'s, and the product of two non-zero polynomials has the degrees' sum. -/
theorem pmulConvolvesCoefficients : Obligations.PmulConvolvesCoefficients := by
  unfold Obligations.PmulConvolvesCoefficients
  intro rd ra rb s hs
  refine ⟨fun h => ?_, fun hdeg ha hb => ?_⟩
  · have hok := polyOk_pmul s.fld (hs ra) (hs rb) h
    exact ⟨_, succeedsWith_writeCapped rfl hok, hok, coeff_pmul s.fld (hs ra).stripped (hs rb).stripped⟩
  · obtain ⟨hlen, -⟩ := pmul_length_head s.fld ((hs ra).stripped.headD_ne_zero ha) ((hs rb).stripped.headD_ne_zero hb)
    have hlong : 256 < (pmul s.fld (s.readP ra) (s.readP rb)).length := by
      have hposa := (hs ra).1
      have hposb := (hs rb).1
      simp only [deg] at hdeg
      omega
    exact failsWith_writeCapped rfl hlong

/-- Settles O34: `coeff_pscl` and `coeff_pmulm`, and a non-zero multiple is longer by the power. -/
theorem psclPmulmScaleCoefficients : Obligations.PsclPmulmScaleCoefficients := by
  unfold Obligations.PsclPmulmScaleCoefficients
  intro rd ra d c s hs
  obtain ⟨-, hcap, -⟩ := hs ra
  refine ⟨?_, fun h => ?_, fun hc ha hlen => ?_⟩
  · have hok : PolyOk (pscl s.fld (s.readP ra) c) := polyOk_norm (by simpa using hcap)
    exact ⟨_, succeedsWith_writeP rfl hok, hok, coeff_pscl s.fld _ c⟩
  · have hok : PolyOk (pmulm s.fld (s.readP ra) d.toNat c) := by
      rcases h with rfl | h
      · rw [pmulm, if_pos rfl]
        exact polyOk_norm (l := [0]) (by decide)
      · exact polyOk_pmulm s.fld c h
    exact ⟨_, succeedsWith_writeCapped rfl hok, hok, coeff_pmulm s.fld _ _ c⟩
  · obtain ⟨hl, -⟩ := pmulm_length_head s.fld d.toNat ((hs ra).stripped.headD_ne_zero ha) hc
    exact failsWith_writeCapped rfl (by rwa [hl])

/-- Settles O32: the sum is stripped when it is made, so writing it strips nothing. -/
theorem paddXorsCoefficients : Obligations.PaddXorsCoefficients := by
  unfold Obligations.PaddXorsCoefficients
  intro rd ra rb s
  refine ⟨padd (s.readP ra) (s.readP rb), ?_, norm_normal _, coeff_padd _ _⟩
  have h := succeedsWith_of_finish (i := .padd rd ra rb) (s := s) rfl (State.writeP_status _ _ _)
  rwa [State.writeP, padd, norm_norm] at h

/-- Settles O31: Horner's loop gives the value. -/
theorem pevalIsTheValueAtThePoint : Obligations.PevalIsTheValueAtThePoint := by
  unfold Obligations.PevalIsTheValueAtThePoint
  intro ra a s
  rw [← peval_eq_polyValue, ← writeRES_toNat]
  exact succeedsWith_of_finish rfl rfl

/-- The range read as a polynomial: its last byte is the constant term (R162). -/
theorem coeff_cwRange (s : State) (off len k : Nat) :
    coeff (s.cwRange off len) k = if k < len then s.readCW (off + len - 1 - k) else 0 := by
  unfold coeff
  rw [length_cwRange]
  split
  · next hk =>
    rw [getD_cwRange s off (by omega)]
    congr 1
    omega
  · rfl

/-- Settles O28: stripping keeps the coefficients of the range. -/
theorem pldLoadsStrippedRange : Obligations.PldLoadsStrippedRange := by
  unfold Obligations.PldLoadsStrippedRange
  refine fun rd off len s => ⟨fun hlen hfit => ?_, fun h => failsWith_of_finish (congrArg (finish _ s) (if_pos h))⟩
  have hlim : ¬ (len = 0 ∨ Config.cwSize < off.toNat + len.toNat) := by
    rintro (rfl | h)
    · exact absurd hlen (by decide)
    · exact absurd hfit (Nat.not_le.2 h)
  refine ⟨_, succeedsWith_of_finish (congrArg (finish _ s) (if_neg hlim)) rfl, polyOk_norm ?_, fun k => ?_⟩
  · rw [length_cwRange]
    exact byte_le_256 len
  · rw [coeff_norm, coeff_cwRange]

/-- Settles O29: the bytes are those `readCW_writeCW` gives. -/
theorem pstStoresCoefficients : Obligations.PstStoresCoefficients := by
  unfold Obligations.PstStoresCoefficients
  refine fun ra off s => ⟨fun hfit => ?_, fun h => failsWith_of_finish (congrArg (finish _ s) (if_pos h))⟩
  exact ⟨_, succeedsWith_of_finish (congrArg (finish _ s) (if_neg (Nat.not_lt.2 hfit))) rfl, readCW_writeCW s off.toNat _⟩

/-- Settles O27. -/
theorem pzeroPoneWriteConstants : Obligations.PzeroPoneWriteConstants := by
  unfold Obligations.PzeroPoneWriteConstants
  exact fun rd s => ⟨succeedsWith_of_finish (u := s.writeP rd [0]) rfl rfl, succeedsWith_of_finish (u := s.writeP rd [1]) rfl rfl⟩

/-- Settles O30: for a register that is not empty, `PCOEF` splits at the degree as the statement does. -/
theorem pdegPcoefReadThePolynomial : Obligations.PdegPcoefReadThePolynomial := by
  unfold Obligations.PdegPcoefReadThePolynomial
  intro ra k s hpos
  have hlim : deg (s.readP ra) < k.toNat ↔ (s.readP ra).length ≤ k.toNat := by
    simp only [deg]
    omega
  refine ⟨succeedsWith_of_finish (u := s.writeRES (deg (s.readP ra))) rfl rfl, fun hk => ?_, fun hk => ?_⟩
  · rw [← coef_eq_coeff hk, ← writeRES_toNat]
    exact succeedsWith_of_finish (congrArg (finish _ s) (if_neg (mt hlim.1 (Nat.not_le.2 hk)))) rfl
  · exact failsWith_of_finish (congrArg (finish _ s) (if_pos (hlim.2 hk)))

/-! ### Commands that do not read `FIELD` (R130, R173) -/

/-- `s` with another field selected. -/
def State.withFsel (s : State) (x : BitVec 1) : State := { s with fsel := x }

/-- How a command ends does not depend on the field. -/
theorem finish_withFsel (i : Instr) (s : State) (x : BitVec 1) (r : Except ErrorCode State) :
    ∃ t, finish i s r = .next t ∧ finish i (s.withFsel x) (r.map (·.withFsel x)) = .next (t.withFsel x) := by
  cases r with
  | ok u => exact ⟨u.succeed, rfl, rfl⟩
  | error c => exact ⟨s.raise c (encode i), rfl, rfl⟩

/-- Settles O18: each of the eight computes from the other state what it computes from this one. -/
theorem fieldIndependentCommands : Obligations.FieldIndependentCommands := by
  unfold Obligations.FieldIndependentCommands
  intro s x i hi
  suffices h : ∃ r, exec i s = finish i s r ∧ exec i (s.withFsel x) = finish i (s.withFsel x) (r.map (·.withFsel x)) by
    obtain ⟨r, hs, hx⟩ := h
    obtain ⟨t, ht, htx⟩ := finish_withFsel i s x r
    exact ⟨t, hs.trans ht, hx.trans htx⟩
  rcases hi with ⟨a, b, rfl⟩ | ⟨rd, rfl⟩ | ⟨rd, rfl⟩ | ⟨rd, off, len, rfl⟩ | ⟨ra, off, rfl⟩ | ⟨ra, rfl⟩ | ⟨ra, k, rfl⟩ |
    ⟨rd, ra, rb, rfl⟩
  -- `PLD`, `PST` and `PCOEF` check their operands first
  case inr.inr.inr.inl | inr.inr.inr.inr.inl | inr.inr.inr.inr.inr.inr.inl =>
    refine ⟨_, rfl, congrArg (finish _ _) ?_⟩
    rw [map_guard]
    rfl
  all_goals exact ⟨.ok _, rfl, rfl⟩

end Sys2Proof.Machine

/-! The family of spec/42_reed_solomon.md: the codec. Bytes are read as elements of a field of Mathlib's and lists of bytes as
polynomials over it, so that the algebra of R190 to R208 is done with Mathlib's polynomials. -/

namespace Sys2Proof.ReedSolomon

open Machine hiding Field
open Polynomial hiding coeff

/-! ### The bytes as a field of Mathlib's (R124 to R126) -/

/-- The bytes, with the arithmetic of the field `f`. -/
def GF (_ : Machine.Field) : Type := Byte

/-- The inverse of R126, and 0 for 0 as Mathlib has it. -/
def GF.inv (f : Machine.Field) (a : Byte) : Byte := if a = 0 then 0 else ginv f a

/-- The laws are those of R125 and R126. -/
@[reducible] def GF.field (f : Machine.Field) : Field (GF f) :=
  letI : Add (GF f) := ⟨fun (a b : Byte) => a ^^^ b⟩
  letI : Mul (GF f) := ⟨fun (a b : Byte) => gmul f a b⟩
  letI : Neg (GF f) := ⟨id⟩
  letI : Inv (GF f) := ⟨GF.inv f⟩
  letI : Zero (GF f) := ⟨(0 : Byte)⟩
  letI : One (GF f) := ⟨(1 : Byte)⟩
  Field.ofMinimalAxioms (GF f) BitVec.xor_assoc (fun _ => BitVec.zero_xor) (fun _ => BitVec.xor_self) (gmul_assoc f) (gmul_comm f)
    (one_gmul f) (fun (a : Byte) ha => (congrArg (gmul f a) (if_neg ha)).trans (gmul_ginv f ha)) rfl (gmul_xor f)
    ⟨(0 : Byte), (1 : Byte), show (0 : Byte) ≠ 1 by decide⟩

/-- A reading of the bytes in a field `K` in which the block's operations are those of `K`. -/
structure Reading (f : Machine.Field) (K : Type) [Field K] where
  val : Byte → K
  val_one : val 1 = 1
  val_xor (a b : Byte) : val (a ^^^ b) = val a + val b
  val_gmul (a b : Byte) : val (gmul f a b) = val a * val b

/-- Both fields have a reading: the bytes themselves. -/
theorem exists_reading (f : Machine.Field) : ∃ (K : Type) (_ : Field K) (_ : CharP K 2), Nonempty (Reading f K) := by
  let := GF.field f
  have htwo : CharP (GF f) 2 := CharTwo.of_one_ne_zero_of_two_eq_zero one_ne_zero
    (one_add_one_eq_two.symm.trans (BitVec.xor_self (x := (1 : Byte))))
  exact ⟨GF f, GF.field f, htwo, ⟨⟨id, rfl, fun _ _ => rfl, fun _ _ => rfl⟩⟩⟩

/-! ### Coefficients of lists of bytes (R22, R69) -/

/-- The coefficient of the highest power is the first byte. -/
theorem coeff_deg {p : Poly} (hp : 1 ≤ p.length) : coeff p (deg p) = p.headD 0 := by
  obtain ⟨a, p, rfl⟩ := List.exists_cons_of_length_pos hp
  simp [coeff_cons, deg]

theorem coeff_append (p q : List Byte) (k : Nat) :
    coeff (p ++ q) k = if k < q.length then coeff q k else coeff p (k - q.length) := by
  simp only [coeff_eq_reverse, List.reverse_append, List.getD_eq_getElem?_getD]
  split
  · next h => rw [List.getElem?_append_left (by simpa using h)]
  · next h => rw [List.getElem?_append_right (by simpa using h), List.length_reverse]

/-! ### What a reading keeps -/

namespace Reading

variable {f : Machine.Field} {K : Type} [Field K] (φ : Reading f K)

@[simp] theorem val_zero : φ.val 0#8 = 0 := by
  have h := φ.val_xor 0 0
  rw [BitVec.xor_self] at h
  exact left_eq_add.1 h

/-- `val_one` in the form `simp` gives the byte. -/
@[simp] theorem val_one' : φ.val 1#8 = 1 := φ.val_one

theorem val_mul_val_ginv {a : Byte} (ha : a ≠ 0) : φ.val a * φ.val (ginv f a) = 1 := by
  rw [← φ.val_gmul, gmul_ginv f ha, φ.val_one]

theorem val_ginv {a : Byte} (ha : a ≠ 0) : φ.val (ginv f a) = (φ.val a)⁻¹ :=
  eq_inv_of_mul_eq_one_right (φ.val_mul_val_ginv ha)

theorem val_ne_zero {a : Byte} (ha : a ≠ 0) : φ.val a ≠ 0 := left_ne_zero_of_mul_eq_one (φ.val_mul_val_ginv ha)

theorem val_eq_zero {a : Byte} : φ.val a = 0 ↔ a = 0 :=
  ⟨fun h => by_contra fun ha => φ.val_ne_zero ha h, fun h => h ▸ φ.val_zero⟩

theorem val_injective : Function.Injective φ.val := fun a b h => by
  have hdiff : φ.val (a ^^^ b) = φ.val (b ^^^ b) := by rw [φ.val_xor, h, ← φ.val_xor]
  rw [BitVec.xor_self, φ.val_zero, φ.val_eq_zero] at hdiff
  exact BitVec.xor_eq_zero_iff.1 hdiff

theorem val_xorSum (n : Nat) (g : Nat → Byte) : φ.val (xorSum n g) = ∑ i ∈ Finset.range n, φ.val (g i) := by
  induction n with
  | zero => exact φ.val_zero
  | succ n ih => rw [xorSum_succ, φ.val_xor, ih, Finset.sum_range_succ]

theorem val_fieldPower (a : Byte) (k : Nat) : φ.val (fieldPower f a k) = φ.val a ^ k := by
  induction k with
  | zero => rw [fieldPower, φ.val_one, pow_zero]
  | succ k ih => rw [fieldPower, φ.val_gmul, ih, pow_succ]

/-- α, the generator of R122. -/
def alpha : K := φ.val (gexp f 1)

/-- The table's entries are the powers of α (R122). -/
theorem val_gexp {i : Nat} (hi : i < 255) : φ.val (gexp f i) = φ.alpha ^ i := by
  induction i with
  | zero => rw [gexp_zero, φ.val_one, pow_zero]
  | succ i ih =>
    have hmul : gmul f (gexp f i) (gexp f 1) = gexp f (i + 1) := by
      rw [gmul_of_ne_zero f (gexp_ne_zero f (by omega)) (gexp_ne_zero f (by omega)), glog_gexp f (by omega),
        glog_gexp f (by omega), Nat.mod_eq_of_lt hi]
    rw [← hmul, φ.val_gmul, ih (by omega), pow_succ, alpha]

theorem alpha_pow_255 : φ.alpha ^ 255 = 1 := by
  have hmul : gmul f (gexp f 254) (gexp f 1) = 1 := by
    rw [gmul_of_ne_zero f (gexp_ne_zero f (by omega)) (gexp_ne_zero f (by omega)), glog_gexp f (by omega),
      glog_gexp f (by omega), gexp_zero]
  rw [pow_succ, ← φ.val_gexp (by omega), alpha, ← φ.val_gmul, hmul, φ.val_one]

theorem val_gexp_mod (i : Nat) : φ.val (gexp f (i % 255)) = φ.alpha ^ i := by
  rw [φ.val_gexp (Nat.mod_lt _ (by omega)), ← pow_eq_pow_mod i φ.alpha_pow_255]

/-- The syndrome points are α^(i+b) (R196). -/
theorem val_syndromePoint (i : Nat) : φ.val (syndromePoint f i) = φ.alpha ^ (i + f.base) := φ.val_gexp_mod _

theorem alpha_ne_zero : φ.alpha ≠ 0 := φ.val_ne_zero (gexp_ne_zero f (by omega))

theorem val_inversePower {k : Nat} (hk : k ≤ 255) : φ.val (inversePower f k) = (φ.alpha ^ k)⁻¹ := by
  refine eq_inv_of_mul_eq_one_left ?_
  rw [inversePower, φ.val_gexp_mod, ← pow_add, Nat.sub_add_cancel hk, φ.alpha_pow_255]

theorem alpha_pow_injOn : Set.InjOn (fun k : Nat => φ.alpha ^ k) {k | k < 255} := fun i hi j hj h => by
  simp only [← φ.val_gexp hi, ← φ.val_gexp hj] at h
  rw [← glog_gexp f hi, φ.val_injective h, glog_gexp f hj]

/-! ### Lists of bytes as polynomials (R22, R69, R150 to R158) -/

/-- The polynomial whose coefficients are the bytes of `p`, highest power first. -/
noncomputable def poly (p : List Byte) : K[X] := ∑ k ∈ Finset.range p.length, C (φ.val (coeff p k)) * X ^ k

@[simp] theorem coeff_poly (p : List Byte) (k : Nat) : (φ.poly p).coeff k = φ.val (coeff p k) := by
  rw [poly, finsetSum_coeff]
  simp only [coeff_C_mul_X_pow, Finset.sum_ite_eq, Finset.mem_range]
  split
  · rfl
  · next h => rw [Machine.coeff, if_neg h, show (0 : Byte) = 0#8 from rfl, φ.val_zero]

theorem poly_eq_iff {p : List Byte} {P : K[X]} : φ.poly p = P ↔ ∀ k, φ.val (coeff p k) = P.coeff k := by
  rw [Polynomial.ext_iff]
  simp only [coeff_poly]

theorem eval_poly (p : List Byte) (a : Byte) : (φ.poly p).eval (φ.val a) = φ.val (polyValue f p a) := by
  simp only [poly, polyValue, eval_finsetSum, eval_C_mul, eval_pow, eval_X, φ.val_xorSum, φ.val_gmul, φ.val_fieldPower]

theorem polyValue_eq_zero_iff (p : List Byte) (a : Byte) : polyValue f p a = 0 ↔ (φ.poly p).eval (φ.val a) = 0 := by
  rw [eval_poly, val_eq_zero]

@[simp] theorem poly_zero : φ.poly [0] = 0 := φ.poly_eq_iff.2 fun k => by rw [coeff_zero, Polynomial.coeff_zero]; exact φ.val_zero

@[simp] theorem poly_one : φ.poly [1] = 1 := φ.poly_eq_iff.2 fun k => by
  rw [coeff_one, coeff_cons]
  split <;> simp_all

/-- The product of R154 is the product. -/
theorem val_productCoeff (p q : List Byte) (k : Nat) : φ.val (productCoeff f p q k) = (φ.poly p * φ.poly q).coeff k := by
  rw [coeff_mul, Finset.Nat.sum_antidiagonal_eq_sum_range_succ fun i j => (φ.poly p).coeff i * (φ.poly q).coeff j, productCoeff,
    φ.val_xorSum]
  simp only [φ.val_gmul, coeff_poly]

/-- `p` = `q·r` ⊕ `s` by coefficients, as R158 and R201 have it. -/
theorem poly_eq_mul_add {p q r s : List Byte} (h : ∀ k, coeff p k = productCoeff f q r k ^^^ coeff s k) :
    φ.poly p = φ.poly q * φ.poly r + φ.poly s :=
  φ.poly_eq_iff.2 fun k => by rw [h, φ.val_xor, val_productCoeff, coeff_add, coeff_poly]

theorem poly_norm (l : List Byte) : φ.poly (norm l) = φ.poly l :=
  φ.poly_eq_iff.2 fun k => by rw [coeff_norm, coeff_poly]

theorem poly_pmul {p q : Poly} (hp : Stripped p) (hq : Stripped q) : φ.poly (pmul f p q) = φ.poly p * φ.poly q :=
  φ.poly_eq_iff.2 fun k => by rw [coeff_pmul f hp hq, val_productCoeff]

theorem poly_pscl (p : Poly) (c : Byte) : φ.poly (pscl f p c) = φ.poly p * C (φ.val c) :=
  φ.poly_eq_iff.2 fun k => by rw [coeff_pscl, φ.val_gmul, coeff_mul_C, coeff_poly]

theorem poly_pmulm (p : Poly) (d : Nat) (c : Byte) : φ.poly (pmulm f p d c) = φ.poly p * C (φ.val c) * X ^ d :=
  φ.poly_eq_iff.2 fun k => by
    rw [coeff_pmulm, coeff_mul_X_pow']
    split
    · next h => rw [if_neg (by omega)]; exact φ.val_zero
    · next h => rw [if_pos (by omega), φ.val_gmul, coeff_mul_C, coeff_poly]

theorem poly_pdiv (a b : Poly) : φ.poly a = φ.poly (pdiv f a b).1 * φ.poly b + φ.poly (pdiv f a b).2 :=
  φ.poly_eq_mul_add (pdiv_identity f a b)

/-- A list followed by another of `q.length` bytes. -/
theorem poly_append (p q : List Byte) : φ.poly (p ++ q) = φ.poly p * X ^ q.length + φ.poly q :=
  φ.poly_eq_iff.2 fun k => by
    rw [coeff_append, coeff_add, coeff_mul_X_pow', coeff_poly, coeff_poly]
    split
    · next h => rw [if_neg (by omega), zero_add]
    · next h =>
      rw [if_pos (by omega), show coeff q k = 0#8 from if_neg h, φ.val_zero, add_zero]

/-- The degree of a stripped polynomial (R150). -/
theorem natDegree_poly {p : Poly} (hp : Stripped p) : (φ.poly p).natDegree = deg p := by
  have hle : (φ.poly p).natDegree ≤ deg p := natDegree_le_iff_coeff_eq_zero.2 fun k hk => by
    simp only [deg] at hk
    rw [coeff_poly, Machine.coeff, if_neg (by omega)]
    exact φ.val_zero
  refine le_antisymm hle ?_
  rcases hp.2 with h | h
  · simp [deg, h]
  · refine le_natDegree_of_ne_zero ?_
    rw [coeff_poly, coeff_deg hp.1]
    exact φ.val_ne_zero h

end Reading

/-! ### Generator polynomials and the encoder (R190 to R195) -/

theorem Reading.poly_singleton {f : Machine.Field} {K : Type} [Field K] (φ : Reading f K) (c : Byte) :
    φ.poly [c] = C (φ.val c) := by
  simp [Reading.poly, coeff_cons]

theorem gen_ne_zero (f : Machine.Field) (k : Nat) : (gen f k).headD 0 ≠ 0 := (gen_length_head f k).2

theorem stripped_gen (f : Machine.Field) (k : Nat) : Stripped (gen f k) := by
  obtain ⟨hlen, hhead⟩ := gen_length_head f k
  exact ⟨by omega, .inr hhead⟩

/-- `gen(k)` is monic (R193). -/
theorem headD_gen (f : Machine.Field) (k : Nat) : (gen f k).headD 0 = 1 := by
  induction k with
  | zero => rfl
  | succ k ih =>
    rw [gen, (pmul_length_head f (gen_ne_zero f k) (by simp)).2, ih]
    exact gmul_one f 1

/-- `gen(k)` has the factors x − α^(j+b) (R193). -/
theorem Reading.poly_gen {f : Machine.Field} {K : Type} [Field K] (φ : Reading f K) (k : Nat) :
    φ.poly (gen f k) = ∏ j ∈ Finset.range k, (X + C (φ.val (syndromePoint f j))) := by
  induction k with
  | zero => exact φ.poly_one
  | succ k ih =>
    have hfactor : φ.poly [1, syndromePoint f k] = X + C (φ.val (syndromePoint f k)) := by
      simpa [φ.poly_singleton] using φ.poly_append [1] [syndromePoint f k]
    rw [gen, φ.poly_pmul (stripped_gen f k) ⟨by simp, .inr (by simp)⟩, ih, Finset.prod_range_succ]
    exact congrArg _ hfactor

/-- The points α^b to α^(b+k−1) are roots of `gen(k)` (R190). -/
theorem Reading.eval_gen {f : Machine.Field} {K : Type} [Field K] [CharP K 2] (φ : Reading f K) {j k : Nat} (hj : j < k) :
    (φ.poly (gen f k)).eval (φ.val (syndromePoint f j)) = 0 := by
  rw [φ.poly_gen, eval_prod]
  refine Finset.prod_eq_zero (Finset.mem_range.2 hj) ?_
  rw [eval_add, eval_X, eval_C, CharTwo.add_self_eq_zero]

/-- Settles O37. -/
theorem rsgenHasItsRoots : Obligations.RsgenHasItsRoots := by
  unfold Obligations.RsgenHasItsRoots
  intro rd k s
  obtain ⟨K, _, _, ⟨φ⟩⟩ := exists_reading s.fld
  obtain ⟨hlen, -⟩ := gen_length_head s.fld k.toNat
  have hok : PolyOk (gen s.fld k.toNat) := (stripped_gen s.fld k.toNat).polyOk (by have := k.isLt; omega)
  refine ⟨_, succeedsWith_writeP rfl hok, hlen, headD_gen s.fld _, fun j hj => ?_⟩
  rw [φ.polyValue_eq_zero_iff, φ.eval_gen hj]

/-- Data followed by their check bytes is a multiple of the generator polynomial (R190, R192). -/
theorem Reading.gen_dvd_encoded {f : Machine.Field} {K : Type} [Field K] [CharP K 2] (φ : Reading f K) (data : List Byte)
    {ec : Nat} (hec : 1 ≤ ec) : φ.poly (gen f ec) ∣ φ.poly (data ++ rsenc f data ec) := by
  have hdiv := φ.poly_pdiv (pmulm f (norm data) ec 1) (gen f ec)
  rw [φ.poly_pmulm, φ.poly_norm, φ.val_one, C_1, mul_one] at hdiv
  have hrem : φ.poly (rsenc f data ec) = φ.poly (pdiv f (pmulm f (norm data) ec 1) (gen f ec)).2 :=
    φ.poly_eq_iff.2 fun k => by rw [rsenc, coeff_zeros_append, φ.coeff_poly]
  rw [φ.poly_append, length_rsenc f data hec, hdiv, hrem, add_assoc, CharTwo.add_self_eq_zero, add_zero]
  exact dvd_mul_left _ _

/-- Data followed by their check bytes is a codeword (R190). -/
theorem polyValue_encoded (f : Machine.Field) (data : List Byte) {ec j : Nat} (hj : j < ec) :
    polyValue f (data ++ rsenc f data ec) (syndromePoint f j) = 0 := by
  obtain ⟨K, _, _, ⟨φ⟩⟩ := exists_reading f
  obtain ⟨q, hq⟩ := φ.gen_dvd_encoded data (Nat.one_le_of_lt hj)
  rw [φ.polyValue_eq_zero_iff, hq, eval_mul, φ.eval_gen hj, zero_mul]

theorem cwRange_add (s : State) (a b : Nat) : s.cwRange 0 (a + b) = s.cwRange 0 a ++ s.cwRange a b := by
  simp [State.cwRange, List.range_add]

theorem cwRange_writeCW_self (s : State) (i : Nat) {vs : List Byte} {len : Nat} (h : vs.length = len) :
    (s.writeCW i vs).cwRange i len = vs := by
  refine List.ext_getElem ((length_cwRange _ _ _).trans h.symm) fun k _ hk => ?_
  simp only [State.cwRange, List.getElem_map, List.getElem_range, readCW_writeCW]
  rw [if_pos (by omega), Nat.add_sub_cancel_left, List.getD_eq_getElem]

/-- Settles O38. -/
theorem rsencCompletesACodeword : Obligations.RsencCompletesACodeword := by
  unfold Obligations.RsencCompletesACodeword
  refine fun nd ec s => ⟨fun hnd hec hfit => ?_, fun h => failsWith_of_finish (congrArg (finish _ s) (if_pos h))⟩
  have hec1 : 1 ≤ ec.toNat := Nat.one_le_iff_ne_zero.2 fun h => hec (BitVec.eq_of_toNat_eq h)
  have hlim : ¬ (nd = 0 ∨ ec = 0 ∨ Config.nmax < nd.toNat + ec.toNat) := by
    rintro (h | h | h)
    · exact hnd h
    · exact hec h
    · exact absurd hfit (Nat.not_le.2 h)
  have hlen := length_rsenc s.fld (s.cwRange 0 nd.toNat) hec1
  refine ⟨_, succeedsWith_of_finish (congrArg (finish _ s) (if_neg hlim)) rfl, fun a ha => ?_, fun j hj => ?_⟩
  · refine (readCW_writeCW s nd.toNat _ a).trans (if_neg ?_)
    rwa [hlen]
  · have hblock : (s.writeCW nd.toNat (rsenc s.fld (s.cwRange 0 nd.toNat) ec.toNat)).cwRange 0 (nd.toNat + ec.toNat) =
        s.cwRange 0 nd.toNat ++ rsenc s.fld (s.cwRange 0 nd.toNat) ec.toNat := by
      rw [cwRange_add, cwRange_writeCW_below, cwRange_writeCW_self s _ hlen]
    exact (congrArg (polyValue s.fld · _) hblock).trans (polyValue_encoded s.fld _ hj)

/-! ### Syndromes (R196, R197) -/

theorem polyValue_norm (f : Machine.Field) (l : List Byte) (a : Byte) : polyValue f (norm l) a = polyValue f l a := by
  obtain ⟨K, _, _, ⟨φ⟩⟩ := exists_reading f
  apply φ.val_injective
  rw [← φ.eval_poly, ← φ.eval_poly, φ.poly_norm]

theorem stripped_syndromePoly (syn : List Byte) : Stripped (syndromePoly syn) := stripped_norm _

theorem length_syndromePoly_le (f : Machine.Field) (c : List Byte) {twoS : Nat} (h : 1 ≤ twoS) :
    (syndromePoly (syndromes f c twoS)).length ≤ twoS := by
  have := length_norm_le (syndromes f c twoS).reverse
  rwa [List.length_reverse, length_syndromes, max_eq_right h] at this

/-- The syndrome polynomial's coefficients are the values of the block (R196). -/
theorem coeff_syndromePoly (f : Machine.Field) (c : List Byte) (twoS i : Nat) :
    coeff (syndromePoly (syndromes f c twoS)) i = if i < twoS then polyValue f c (syndromePoint f i) else 0 := by
  rw [syndromePoly, coeff_norm, coeff_eq_reverse, List.reverse_reverse, syndromes, List.getD_eq_getElem?_getD, List.getElem?_map]
  split
  · next h =>
    rw [List.getElem?_range h]
    exact (peval_eq_polyValue f _ _).trans (polyValue_norm f c _)
  · next h =>
    rw [List.getElem?_eq_none (by simpa using h)]
    rfl

/-- The limits of R199, which those of R197 are too: no block has more than 255 bytes. -/
theorem badBlockLimits_iff (n twoS : Byte) :
    badBlockLimits n.toNat twoS.toNat = true ↔ twoS = 0 ∨ n.toNat ≤ twoS.toNat := by
  have hn : ¬ Config.nmax < n.toNat := Nat.not_lt.2 (Nat.le_of_lt_succ n.isLt)
  have hzero : twoS.toNat = 0 ↔ twoS = 0 := ⟨fun h => BitVec.eq_of_toNat_eq h, fun h => h ▸ rfl⟩
  rw [badBlockLimits, decide_eq_true_eq, hzero, or_iff_left hn]

theorem not_badBlockLimits {n twoS : Byte} (h1 : 1 ≤ twoS.toNat) (h2 : twoS.toNat < n.toNat) :
    ¬ badBlockLimits n.toNat twoS.toNat = true := by
  rw [badBlockLimits_iff]
  rintro (rfl | h)
  · exact absurd h1 (by decide)
  · exact absurd h2 (Nat.not_lt.2 h)

/-- Settles O39. -/
theorem rssynWritesSyndromes : Obligations.RssynWritesSyndromes := by
  unfold Obligations.RssynWritesSyndromes
  refine fun rd n twoS s => ⟨fun h1 h2 => ?_, fun h =>
    failsWith_of_finish (congrArg (finish _ s) (if_pos ((badBlockLimits_iff n twoS).2 h)))⟩
  have hok : PolyOk (syndromePoly (syndromes s.fld (s.cwRange 0 n.toNat) twoS.toNat)) :=
    (stripped_syndromePoly _).polyOk ((length_syndromePoly_le s.fld _ h1).trans (byte_le_256 twoS))
  exact ⟨_, succeedsWith_writeP (congrArg (finish _ s) (if_neg (not_badBlockLimits h1 h2))) hok, hok,
    coeff_syndromePoly s.fld _ _⟩

/-! ### The Euclidean loop (R201) -/

theorem stripped_one : Stripped [1] := ⟨le_rfl, .inl rfl⟩

section
variable {f : Machine.Field} {twoS : Nat} {synd rLast r tLast t : Poly}

/-- All polynomials of the loop are stripped. -/
theorem stripped_of_euclidRun (hs : Stripped synd) (run : EuclidRun f twoS synd rLast r tLast t) :
    Stripped rLast ∧ Stripped r ∧ Stripped t := by
  induction run with
  | start => exact ⟨⟨by simp, .inr (by simp)⟩, hs, stripped_one⟩
  | pass q r' t' run _ _ hr ht _ _ _ ih =>
    obtain ⟨-, hr0, -⟩ := ih
    exact ⟨hr0, hr, ht⟩

/-- From anywhere in a run, the model's loop goes on with the run and ends it: while 2·deg(r) ≥ twoS, `r` is no constant, so a
division by it lowers the degree, which bounds the passes (R207 (1)). -/
theorem euclidLoop_ends (h1 : 1 ≤ twoS) (hs : Stripped synd) (fuel : Nat) (run : EuclidRun f twoS synd rLast r tLast t)
    (hfuel : deg r < fuel) :
    ∃ rLast' r' tLast' t', euclidLoop f twoS fuel rLast r tLast t = .ok (t', r') ∧
      EuclidRun f twoS synd rLast' r' tLast' t' ∧ 2 * deg r' < twoS := by
  induction fuel generalizing rLast r tLast t with
  | zero => omega
  | succ fuel ih =>
    by_cases hgo : twoS ≤ 2 * deg r
    · obtain ⟨hrLast, hr, ht⟩ := stripped_of_euclidRun hs run
      have hr0 : r ≠ [0] := by
        rintro rfl
        exact absurd (h1.trans hgo) (by decide)
      have hz : ¬ isZero r = true := mt hr.eq_zero_of_isZero hr0
      have hlower := pdiv_remainder_eq_zero_or_deg_lt f hrLast hr hr0
      have hdeg : deg (pdiv f rLast r).2 < deg r := hlower.elim (fun h => by rw [h]; change 0 < deg r; omega) id
      have hq := stripped_pdiv_quotient f rLast r
      have hrun := run.pass (pdiv f rLast r).1 (pdiv f rLast r).2 (padd (pmul f (pdiv f rLast r).1 t) tLast) hgo hq
        (pdiv_remainder f hrLast (hr.headD_ne_zero hr0)).1 (stripped_norm _) (pdiv_identity f rLast r) hlower
        fun k => by rw [coeff_padd, coeff_pmul f hq ht]
      have hstep : euclidLoop f twoS (fuel + 1) rLast r tLast t =
          euclidLoop f twoS fuel r (pdiv f rLast r).2 t (padd (pmul f (pdiv f rLast r).1 t) tLast) := by
        rw [euclidLoop, if_pos hgo, if_neg hz, if_neg (Nat.not_le.2 hdeg)]
      rw [hstep]
      exact ih hrun (by omega)
    · exact ⟨_, _, _, _, if_neg hgo, run, Nat.not_le.1 hgo⟩

/-- The model's loop, from its start. -/
theorem euclidLoop_start (f : Machine.Field) (h1 : 1 ≤ twoS) (hs : Stripped synd) (hlen : synd.length ≤ twoS) :
    ∃ rLast r tLast t, euclidLoop f twoS (twoS + 1) (pmulm f [1] twoS 1) synd [0] [1] = .ok (t, r) ∧
      EuclidRun f twoS synd rLast r tLast t ∧ 2 * deg r < twoS := by
  rw [one_pmulm, if_neg (by decide)]
  exact euclidLoop_ends h1 hs _ .start (by simp only [deg]; omega)

end

/-- Settles O42. -/
theorem euclidLoopStopsWithoutFailure : Obligations.EuclidLoopStopsWithoutFailure := by
  unfold Obligations.EuclidLoopStopsWithoutFailure
  intro f twoS synd h1 hok hlen
  obtain ⟨-, r, -, t, hloop, -, hr⟩ := euclidLoop_start f h1 hok.stripped hlen
  exact ⟨t, r, hloop, hr⟩

/-! ### Roots and error powers (R203, R205) -/

theorem inversePower_ne_zero (f : Machine.Field) (k : Nat) : inversePower f k ≠ 0 := gexp_ne_zero f (by omega)

/-- The location number of the root α^(−k) is α^k. -/
theorem ginv_inversePower (f : Machine.Field) {k : Nat} (hk : k < 255) : ginv f (inversePower f k) = gexp f k := by
  obtain ⟨K, _, _, ⟨φ⟩⟩ := exists_reading f
  apply φ.val_injective
  rw [φ.val_ginv (inversePower_ne_zero f k), φ.val_inversePower hk.le, inv_inv, φ.val_gexp hk]

/-- The power of x that belongs to the root `rho` (R205). -/
def powerOf (f : Machine.Field) (rho : Byte) : Nat := glog f (ginv f rho)

@[simp] theorem powerOf_inversePower (f : Machine.Field) {k : Nat} (hk : k < 255) : powerOf f (inversePower f k) = k := by
  rw [powerOf, ginv_inversePower f hk, glog_gexp f hk]

theorem powerOf_lt (f : Machine.Field) (rho : Byte) : powerOf f rho < 255 := glog_lt f (ginv_ne_zero f rho)

theorem inversePower_powerOf (f : Machine.Field) {rho : Byte} (h : rho ≠ 0) : inversePower f (powerOf f rho) = rho := by
  obtain ⟨K, _, _, ⟨φ⟩⟩ := exists_reading f
  apply φ.val_injective
  rw [φ.val_inversePower (powerOf_lt f rho).le, ← φ.val_gexp (powerOf_lt f rho), powerOf, gexp_glog f (ginv_ne_zero f rho),
    φ.val_ginv h, inv_inv]

theorem inversePower_inj {f : Machine.Field} {j k : Nat} (hj : j < 255) (hk : k < 255) :
    inversePower f j = inversePower f k ↔ j = k :=
  ⟨fun h => by rw [← powerOf_inversePower f hj, h, powerOf_inversePower f hk], fun h => h ▸ rfl⟩

theorem mem_nonZeroElements {a : Byte} : a ∈ nonZeroElements ↔ a ≠ 0 := by
  rw [nonZeroElements, List.mem_map]
  constructor
  · rintro ⟨k, hk, rfl⟩ h
    have hlt := List.mem_range.1 hk
    have hval : (k + 1) % 256 = 0 := congrArg BitVec.toNat h
    omega
  · intro h
    obtain ⟨k, hk, rfl⟩ := byte_eq_succ h
    exact ⟨k, List.mem_range.2 hk, rfl⟩

theorem nodup_nonZeroElements : nonZeroElements.Nodup := by
  refine List.Nodup.map_on (fun i hi j hj h => ?_) List.nodup_range
  have hi := List.mem_range.1 hi
  have hj := List.mem_range.1 hj
  have hval : (i + 1) % 256 = (j + 1) % 256 := congrArg BitVec.toNat h
  omega

/-- The roots that the search of R203 lists. -/
def searchedRoots (f : Machine.Field) (t : Poly) : List Byte := nonZeroElements.filter fun e => peval f t e == 0

theorem chien_eq (f : Machine.Field) (sigma : Poly) :
    chien f sigma = if (searchedRoots f sigma).length = deg sigma then .ok (searchedRoots f sigma) else .error .checksum := rfl

theorem mem_errorPowers {f : Machine.Field} {t : Poly} {k : Nat} :
    k ∈ errorPowers f t ↔ k < 255 ∧ polyValue f t (inversePower f k) = 0 := by
  simp [errorPowers]

theorem nodup_errorPowers (f : Machine.Field) (t : Poly) : (errorPowers f t).Nodup := List.nodup_range.filter _

theorem lt_of_mem_errorPowers {f : Machine.Field} {t : Poly} {k : Nat} (h : k ∈ errorPowers f t) : k < 255 :=
  (mem_errorPowers.1 h).1

/-- The roots found belong, in another order, to the error powers. -/
theorem searchedRoots_eq (f : Machine.Field) (t : Poly) :
    ∃ powers : List Nat, powers.Perm (errorPowers f t) ∧ searchedRoots f t = powers.map (inversePower f) := by
  have hmem : ∀ e ∈ searchedRoots f t, e ≠ 0 ∧ polyValue f t e = 0 := fun e he => by
    obtain ⟨h, hroot⟩ := List.mem_filter.1 he
    exact ⟨mem_nonZeroElements.1 h, by simpa [peval_eq_polyValue] using hroot⟩
  have hback : (searchedRoots f t).map (inversePower f ∘ powerOf f) = searchedRoots f t :=
    (List.map_congr_left fun e he => inversePower_powerOf f (hmem e he).1).trans (List.map_id _)
  refine ⟨(searchedRoots f t).map (powerOf f), ?_, by rw [List.map_map, hback]⟩
  have hnodup : ((searchedRoots f t).map (powerOf f)).Nodup := by
    refine List.Nodup.of_map (inversePower f) ?_
    rw [List.map_map, hback]
    exact nodup_nonZeroElements.filter _
  refine (List.perm_ext_iff_of_nodup hnodup (nodup_errorPowers f t)).2 fun k => ?_
  rw [List.mem_map, mem_errorPowers]
  constructor
  · rintro ⟨e, he, rfl⟩
    obtain ⟨h0, hroot⟩ := hmem e he
    exact ⟨powerOf_lt f e, by rwa [inversePower_powerOf f h0]⟩
  · rintro ⟨hk, hroot⟩
    refine ⟨inversePower f k, List.mem_filter.2 ⟨mem_nonZeroElements.2 (inversePower_ne_zero f k), ?_⟩, powerOf_inversePower f hk⟩
    simpa [peval_eq_polyValue] using hroot

/-! ### Forney's denominator (R204) -/

theorem Reading.val_foldl_gmul {f : Machine.Field} {K : Type} [Field K] (φ : Reading f K) {α : Type} (l : List α) (g : α → Byte)
    (a : Byte) : φ.val (l.foldl (fun d x => gmul f d (g x)) a) = φ.val a * (l.map fun x => φ.val (g x)).prod := by
  induction l generalizing a with
  | nil => simp
  | cons x l ih => rw [List.foldl_cons, ih, φ.val_gmul, List.map_cons, List.prod_cons, mul_assoc]

theorem Reading.val_forneyDen {f : Machine.Field} {K : Type} [Field K] (φ : Reading f K) (roots : List Byte) (rho : Byte) :
    φ.val (forneyDen f roots rho) =
      ((roots.filter (· != rho)).map fun r => φ.val (ginv f r) * φ.val rho + 1).prod := by
  rw [forneyDen, φ.val_foldl_gmul, φ.val_one, one_mul]
  simp only [gadd, φ.val_xor, φ.val_gmul, φ.val_one]

theorem Reading.val_denominator {f : Machine.Field} {K : Type} [Field K] (φ : Reading f K) (powers : List Nat) (k : Nat) :
    φ.val (denominator f powers k) =
      ((powers.filter (· != k)).map fun j => φ.val (gexp f j) * φ.val (inversePower f k) + 1).prod := by
  rw [denominator, φ.val_foldl_gmul, φ.val_one, one_mul]
  simp only [φ.val_xor, φ.val_gmul, φ.val_one]

/-- A factor 1 ⊕ X_j·ρ is zero only if ρ is the root of X_j. -/
theorem forneyDen_ne_zero (f : Machine.Field) {roots : List Byte} {rho : Byte} (hroots : ∀ r ∈ roots, r ≠ 0) :
    forneyDen f roots rho ≠ 0 := by
  obtain ⟨K, _, _, ⟨φ⟩⟩ := exists_reading f
  refine fun h => absurd (φ.val_eq_zero.2 h) ?_
  rw [φ.val_forneyDen]
  refine List.prod_ne_zero fun hzero => ?_
  obtain ⟨r, hr, hfactor⟩ := List.mem_map.1 hzero
  obtain ⟨hmem, hne⟩ := List.mem_filter.1 hr
  have hr0 := hroots r hmem
  rw [CharTwo.add_eq_zero, φ.val_ginv hr0, inv_mul_eq_one₀ (φ.val_ne_zero hr0)] at hfactor
  exact absurd (φ.val_injective hfactor) (by simpa using hne)

/-- Settles O43. -/
theorem forneyDenominatorNeverZero : Obligations.ForneyDenominatorNeverZero := by
  unfold Obligations.ForneyDenominatorNeverZero
  exact fun f roots rho _ hroots => forneyDen_ne_zero f hroots

/-- Forney's product over the other roots is the one over the other error powers. -/
theorem forneyDen_eq_denominator {f : Machine.Field} {ps powers : List Nat} (hperm : ps.Perm powers) (hlt : ∀ j ∈ ps, j < 255)
    {k : Nat} (hk : k < 255) : forneyDen f (ps.map (inversePower f)) (inversePower f k) = denominator f powers k := by
  obtain ⟨K, _, _, ⟨φ⟩⟩ := exists_reading f
  apply φ.val_injective
  rw [φ.val_forneyDen, φ.val_denominator, List.filter_map, List.map_map]
  have hother : ps.filter ((· != inversePower f k) ∘ inversePower f) = ps.filter (· != k) :=
    List.filter_congr fun j hj => by
      rw [Function.comp, bne, bne, Bool.not_inj_iff, Bool.eq_iff_iff, beq_iff_eq, beq_iff_eq, inversePower_inj (hlt j hj) hk]
  rw [hother, ← ((hperm.filter _).map _).prod_eq]
  refine congrArg List.prod (List.map_congr_left fun j hj => ?_)
  rw [Function.comp, ginv_inversePower f (hlt j (List.mem_of_mem_filter hj))]

/-! ### The corrections (R198, R205) -/

/-- An error power that is `n` or more stops the corrections (R205). -/
theorem correctAll_of_outside (f : Machine.Field) (omega : Poly) (roots : List Byte) {n : Nat} {ps : List Nat} (c : List Byte)
    (hlt : ∀ k ∈ ps, k < 255) (hbad : ∃ k ∈ ps, n ≤ k) :
    correctAll f omega roots n (ps.map (inversePower f)) c = .error .checksum := by
  induction ps generalizing c with
  | nil => simp at hbad
  | cons k ps ih =>
    rw [List.forall_mem_cons] at hlt
    rw [List.map_cons, correctAll, show glog f (ginv f (inversePower f k)) = k from powerOf_inversePower f hlt.1]
    by_cases hk : n ≤ k
    · exact if_pos hk
    · rw [List.exists_mem_cons_iff, or_iff_right hk] at hbad
      exact (if_neg hk).trans (ih _ hlt.2 hbad)

/-- Else each of the bytes at the error powers is changed once, by its magnitude. -/
theorem correctAll_of_inside (f : Machine.Field) (omega : Poly) (roots : List Byte) {n : Nat} {ps : List Nat} {c : List Byte}
    (hc : c.length = n) (hlt : ∀ k ∈ ps, k < 255) (hin : ∀ k ∈ ps, k < n) (hnodup : ps.Nodup) :
    ∃ c', correctAll f omega roots n (ps.map (inversePower f)) c = .ok c' ∧ ∀ a, c'.getD a 0 =
      if a < n ∧ n - 1 - a ∈ ps then c.getD a 0 ^^^ forney f omega roots (inversePower f (n - 1 - a)) else c.getD a 0 := by
  induction ps generalizing c with
  | nil => exact ⟨c, rfl, fun a => by simp⟩
  | cons k ps ih =>
    rw [List.forall_mem_cons] at hlt hin
    obtain ⟨hk, hnodup⟩ := List.nodup_cons.1 hnodup
    obtain ⟨c', hok, hget⟩ := ih (c := c.set (n - 1 - k)
      (gadd (c.getD (n - 1 - k) 0) (forney f omega roots (inversePower f k)))) (by simpa using hc) hlt.2 hin.2 hnodup
    have hkn := hin.1
    refine ⟨c', ?_, fun a => ?_⟩
    · rw [List.map_cons, correctAll, show glog f (ginv f (inversePower f k)) = k from powerOf_inversePower f hlt.1]
      exact (if_neg (Nat.not_le.2 hkn)).trans hok
    · rw [hget, List.getD_eq_getElem?_getD, List.getElem?_set]
      by_cases ha : a = n - 1 - k
      · subst ha
        have hpos : n - 1 - (n - 1 - k) = k := by omega
        have hlen : n - 1 - k < c.length := by omega
        simp [hpos, hk, hlen, gadd, show n - 1 - k < n by omega]
      · have hpower : a < n → n - 1 - a ≠ k := by omega
        by_cases han : a < n
        · simp [han, hpower han, Ne.symm ha]
        · simp [han, Ne.symm ha]

/-! ### The correction of a block from the end of the Euclidean loop (R202 to R206) -/

/-- The failures (3) to (5) of R206, by the locator polynomial `t` before it is normalised. -/
def Uncorrectable (f : Machine.Field) (n : Nat) (t : Poly) : Prop :=
  coeff t 0 = 0 ∨ (errorPowers f t).length ≠ deg t ∨ ∃ k ∈ errorPowers f t, n ≤ k

theorem polyValue_pscl (f : Machine.Field) (p : Poly) (c a : Byte) :
    polyValue f (pscl f p c) a = gmul f (polyValue f p a) c := by
  obtain ⟨K, _, _, ⟨φ⟩⟩ := exists_reading f
  apply φ.val_injective
  rw [← φ.eval_poly, φ.poly_pscl, eval_mul, eval_C, φ.eval_poly, φ.val_gmul]

section
variable {f : Machine.Field} {t r : Poly} {c : Byte}

/-- Normalising keeps the degree (R202). -/
theorem deg_pscl (ht : Stripped t) (hc : c ≠ 0) : deg (pscl f t c) = deg t := by
  obtain ⟨K, _, _, ⟨φ⟩⟩ := exists_reading f
  have hstripped : Stripped (pscl f t c) := stripped_norm _
  rw [← φ.natDegree_poly hstripped, ← φ.natDegree_poly ht, φ.poly_pscl, natDegree_mul_C (φ.val_ne_zero hc)]

/-- Normalising keeps the roots (R202). -/
theorem errorPowers_pscl (f : Machine.Field) (t : Poly) (hc : c ≠ 0) : errorPowers f (pscl f t c) = errorPowers f t := by
  refine List.filter_congr fun k _ => ?_
  rw [polyValue_pscl, Bool.eq_iff_iff, beq_iff_eq, beq_iff_eq]
  refine ⟨fun h => by_contra fun h0 => gmul_ne_zero f h0 hc h, fun h => ?_⟩
  rw [h]
  exact zero_gmul f c

/-- Forney's magnitude, multiplied by its denominators (R204). -/
theorem gmul_forney {roots : List Byte} {rho : Byte} (hroots : ∀ e ∈ roots, e ≠ 0) (hc : c ≠ 0) :
    gmul f (forney f (pscl f r (ginv f c)) roots rho) (gmul f c (forneyDen f roots rho)) =
      gmul f (polyValue f r rho) (if f.base = 0 then 1 else rho) := by
  obtain ⟨K, _, _, ⟨φ⟩⟩ := exists_reading f
  apply φ.val_injective
  have hden := forneyDen_ne_zero f (rho := rho) hroots
  have hc' := φ.val_ne_zero hc
  have hden' := φ.val_ne_zero hden
  simp only [forney, peval_eq_polyValue, polyValue_pscl]
  split
  · simp only [φ.val_gmul, φ.val_ginv hc, φ.val_ginv hden, φ.val_one]
    field_simp
  · simp only [φ.val_gmul, φ.val_ginv hc, φ.val_ginv hden]
    field_simp

end

section
variable {f : Machine.Field} {c syn : List Byte} {n twoS : Nat} {t r : Poly}
  (hloop : euclidLoop f twoS (twoS + 1) (pmulm f [1] twoS 1) (syndromePoly syn) [0] [1] = .ok (t, r)) (ht : Stripped t)
include hloop ht

theorem euclid_eq : euclid f (syndromePoly syn) twoS = if coeff t 0 = 0 then .error .checksum
    else .ok (pscl f t (ginv f (coeff t 0)), pscl f r (ginv f (coeff t 0))) := by
  rw [← coef_eq_coeff (Nat.lt_of_lt_of_le Nat.zero_lt_one ht.1), euclid, hloop]

/-- The correction once the constant term of `t` is not zero: the roots are searched and, if there are enough, used. -/
theorem correctBlock_eq (h0 : coeff t 0 ≠ 0) :
    ∃ ps : List Nat, ps.Perm (errorPowers f t) ∧ correctBlock f c syn n twoS = if (errorPowers f t).length = deg t then
      correctAll f (pscl f r (ginv f (coeff t 0))) (ps.map (inversePower f)) n (ps.map (inversePower f)) c
    else .error .checksum := by
  have hz := ginv_ne_zero f (coeff t 0)
  obtain ⟨ps, hperm, hroots⟩ := searchedRoots_eq f (pscl f t (ginv f (coeff t 0)))
  rw [errorPowers_pscl f t hz] at hperm
  refine ⟨ps, hperm, ?_⟩
  rw [correctBlock, euclid_eq hloop ht, if_neg h0]
  simp only [chien_eq, hroots, List.length_map, hperm.length_eq, deg_pscl ht hz]
  by_cases hlen : (errorPowers f t).length = deg t
  · rw [if_pos hlen, if_pos hlen]
  · rw [if_neg hlen, if_neg hlen]

theorem correctBlock_of_uncorrectable (hbad : Uncorrectable f n t) : correctBlock f c syn n twoS = .error .checksum := by
  by_cases h0 : coeff t 0 = 0
  · rw [correctBlock, euclid_eq hloop ht, if_pos h0]
  · obtain ⟨ps, hperm, heq⟩ := correctBlock_eq hloop ht (c := c) (n := n) h0
    rw [heq]
    rcases (or_iff_right h0).1 hbad with hlen | ⟨k, hk, hn⟩
    · exact if_neg hlen
    · have hlt : ∀ j ∈ ps, j < 255 := fun j hj => lt_of_mem_errorPowers (hperm.mem_iff.1 hj)
      rw [correctAll_of_outside f _ _ c hlt ⟨k, hperm.mem_iff.2 hk, hn⟩, ite_self]

/-- Else the bytes at the error powers are changed by magnitudes for which R204's equation holds. -/
theorem correctBlock_of_correctable (hc : c.length = n) (hgood : ¬ Uncorrectable f n t) :
    ∃ (c' : List Byte) (magnitude : Nat → Byte), correctBlock f c syn n twoS = .ok c' ∧
      (∀ k ∈ errorPowers f t, gmul f (magnitude k) (gmul f (coeff t 0) (denominator f (errorPowers f t) k)) =
        gmul f (polyValue f r (inversePower f k)) (if f.base = 0 then 1 else inversePower f k)) ∧
      ∀ a, c'.getD a 0 =
        if a < n ∧ n - 1 - a ∈ errorPowers f t then c.getD a 0 ^^^ magnitude (n - 1 - a) else c.getD a 0 := by
  simp only [Uncorrectable, not_or, not_not, not_exists, not_and, Nat.not_le] at hgood
  obtain ⟨h0, hlen, hin⟩ := hgood
  obtain ⟨ps, hperm, heq⟩ := correctBlock_eq hloop ht (c := c) (n := n) h0
  have hlt : ∀ k ∈ ps, k < 255 := fun k hk => lt_of_mem_errorPowers (hperm.mem_iff.1 hk)
  obtain ⟨c', hok, hget⟩ := correctAll_of_inside f (pscl f r (ginv f (coeff t 0))) (ps.map (inversePower f)) hc hlt
    (fun k hk => hin k (hperm.mem_iff.1 hk)) (hperm.nodup_iff.2 (nodup_errorPowers f t))
  refine ⟨c', fun k => forney f (pscl f r (ginv f (coeff t 0))) (ps.map (inversePower f)) (inversePower f k),
    by rw [heq, if_pos hlen, hok], fun k hk => ?_, fun a => by simp only [hget, hperm.mem_iff]⟩
  rw [← forneyDen_eq_denominator hperm hlt (lt_of_mem_errorPowers hk)]
  exact gmul_forney (List.forall_mem_map.2 fun j _ => inversePower_ne_zero f j) h0

end

/-- A syndrome polynomial of low degree ends the loop at once, with no root to find (R207 (2)). -/
theorem correctBlock_of_low {f : Machine.Field} {c syn : List Byte} {n twoS : Nat} (hc : c.length = n)
    (hlow : 2 * deg (syndromePoly syn) < twoS) : correctBlock f c syn n twoS = .ok c := by
  have hloop : euclidLoop f twoS (twoS + 1) (pmulm f [1] twoS 1) (syndromePoly syn) [0] [1] = .ok ([1], syndromePoly syn) :=
    if_neg (Nat.not_le.2 hlow)
  have hpowers : errorPowers f [1] = [] := List.filter_eq_nil_iff.2 fun k _ => by
    have hvalue : polyValue f [1] (inversePower f k) = 1 := by
      rw [← peval_eq_polyValue]
      simp [peval, gadd]
    rw [hvalue]
    decide
  have hgood : ¬ Uncorrectable f n [1] := by
    rw [Uncorrectable, hpowers]
    simp [coeff_cons, deg]
  obtain ⟨c', magnitude, hok, -, hget⟩ := correctBlock_of_correctable hloop stripped_one hc hgood
  have hsame : c' = c := List.ext_getElem (length_of_correctBlock hok) fun a h h' => by
    have := hget a
    rwa [hpowers, if_neg (by simp), List.getD_eq_getElem _ _ h, List.getD_eq_getElem _ _ h'] at this
  rw [hok, hsame]

/-- The degree of the syndrome polynomial is below twoS/2 when the syndromes from twoS/2 on are zero. -/
theorem deg_syndromePoly_of_low {f : Machine.Field} {c : List Byte} {twoS : Nat} (h1 : 1 ≤ twoS)
    (hlow : ∀ i < twoS, twoS ≤ 2 * i → polyValue f c (syndromePoint f i) = 0) :
    2 * deg (syndromePoly (syndromes f c twoS)) < twoS := by
  obtain ⟨hpos, hlen | hhead⟩ := stripped_syndromePoly (syndromes f c twoS)
  · simp only [deg, hlen]
    omega
  · rw [← coeff_deg hpos, coeff_syndromePoly] at hhead
    by_contra hge
    split at hhead
    · next hlt => exact hhead (hlow _ hlt (Nat.not_lt.1 hge))
    · exact hhead rfl

theorem correctBlock_of_zero_syndromes {f : Machine.Field} {c : List Byte} {n twoS : Nat} (h1 : 1 ≤ twoS) (hc : c.length = n)
    (hz : (syndromes f c twoS).all (fun x => x == 0) = true) : correctBlock f c (syndromes f c twoS) n twoS = .ok c := by
  refine correctBlock_of_low hc (deg_syndromePoly_of_low h1 fun i hi _ => ?_)
  rw [← polyValue_norm, ← peval_eq_polyValue]
  exact eq_of_beq (List.all_eq_true.1 hz _ (List.mem_map_of_mem (List.mem_range.2 hi)))

/-! ### RSDEC (R198 to R207) -/

section
variable {n twoS : Byte} {s : State} (h1 : 1 ≤ twoS.toNat) (h2 : twoS.toNat < n.toNat)
include h1 h2

/-- What `RSDEC` does with the corrected block. All-zero syndromes are no exception: the correction then leaves the block as
it is (R200). -/
theorem rsdec_of_ok {c' : List Byte} (h : correctBlock s.fld (s.cwRange 0 n.toNat)
      (syndromes s.fld (s.cwRange 0 n.toNat) twoS.toNat) n.toNat twoS.toNat = .ok c') :
    ∃ m, SucceedsWith (.rsdec n twoS) s { s with cw := m } ∧
      ∀ a, State.readCW { s with cw := m } a = if a < n.toNat then c'.getD a 0 else s.readCW a := by
  have hexec : exec (.rsdec n twoS) s = _ := congrArg (finish _ s) (if_neg (not_badBlockLimits h1 h2))
  by_cases hz : (syndromes s.fld (s.cwRange 0 n.toNat) twoS.toNat).all (fun x => x == 0) = true
  · rw [correctBlock_of_zero_syndromes h1 (length_cwRange _ _ _) hz] at h
    cases h
    refine ⟨s.cw, succeedsWith_of_finish (hexec.trans (congrArg (finish _ s) (if_pos hz))) rfl, fun a => ?_⟩
    split
    · next ha =>
      rw [getD_cwRange s 0 ha, Nat.zero_add]
    · rfl
  · refine ⟨(s.writeCW 0 c').cw, succeedsWith_of_finish (u := s.writeCW 0 c') ?_ rfl, fun a => ?_⟩
    · refine hexec.trans (congrArg (finish _ s) ((if_neg hz).trans ?_))
      rw [h]
    · have hlen : c'.length = n.toNat := (length_of_correctBlock h).trans (length_cwRange _ _ _)
      have hread := readCW_writeCW s 0 c' a
      rw [hlen, Nat.zero_add, Nat.sub_zero] at hread
      simp only [Nat.zero_le, true_and] at hread
      exact hread

theorem rsdec_of_error (h : correctBlock s.fld (s.cwRange 0 n.toNat)
      (syndromes s.fld (s.cwRange 0 n.toNat) twoS.toNat) n.toNat twoS.toNat = .error .checksum) :
    FailsWith (.rsdec n twoS) s .checksum := by
  have hexec : exec (.rsdec n twoS) s = _ := congrArg (finish _ s) (if_neg (not_badBlockLimits h1 h2))
  have hz : ¬ (syndromes s.fld (s.cwRange 0 n.toNat) twoS.toNat).all (fun x => x == 0) = true := fun hz => by
    rw [correctBlock_of_zero_syndromes h1 (length_cwRange _ _ _) hz] at h
    cases h
  refine failsWith_of_finish (hexec.trans (congrArg (finish _ s) ((if_neg hz).trans ?_)))
  rw [h]

end

/-- Settles O57: the loop's end decides by `Uncorrectable`, and the corrections are those of `correctBlock`. -/
theorem rsdecDecidesEveryBlock : Obligations.RsdecDecidesEveryBlock := by
  unfold Obligations.RsdecDecidesEveryBlock
  intro n twoS s h1 h2
  have hs := stripped_syndromePoly (syndromes s.fld (s.cwRange 0 n.toNat) twoS.toNat)
  obtain ⟨rLast, r, tLast, t, hloop, run, hr⟩ := euclidLoop_start s.fld h1 hs (length_syndromePoly_le s.fld _ h1)
  obtain ⟨-, -, ht⟩ := stripped_of_euclidRun hs run
  refine ⟨_, rLast, r, tLast, t, hs, coeff_syndromePoly s.fld _ _, run, hr,
    fun hbad => rsdec_of_error h1 h2 (correctBlock_of_uncorrectable hloop ht hbad), fun hgood => ?_⟩
  obtain ⟨c', magnitude, hok, hmagnitude, hget⟩ := correctBlock_of_correctable hloop ht (length_cwRange _ _ _) hgood
  obtain ⟨m, hsucceeds, hread⟩ := rsdec_of_ok h1 h2 hok
  refine ⟨m, magnitude, hsucceeds, hmagnitude, fun a => ?_⟩
  rw [hread, hget]
  by_cases ha : a < n.toNat
  · rw [getD_cwRange s 0 ha, Nat.zero_add, if_pos ha]
  · simp only [ha, false_and, if_false]

/-- Settles O40: the two ends of `rsdecDecidesEveryBlock`. -/
theorem rsdecTouchesOnlyItsBlock : Obligations.RsdecTouchesOnlyItsBlock := by
  unfold Obligations.RsdecTouchesOnlyItsBlock
  refine fun n twoS s => ⟨fun h1 h2 => ?_, fun h =>
    failsWith_of_finish (congrArg (finish _ s) (if_pos ((badBlockLimits_iff n twoS).2 h)))⟩
  obtain ⟨_, _, _, _, t, -, -, -, -, hbad, hgood⟩ := rsdecDecidesEveryBlock n twoS s h1 h2
  by_cases hu : Uncorrectable s.fld n.toNat t
  · exact .inr (hbad hu)
  · obtain ⟨m, _, hsucceeds, -, hread⟩ := hgood hu
    exact .inl ⟨m, hsucceeds, fun a ha => (hread a).trans (if_neg fun h => Nat.not_lt.2 ha h.1)⟩

/-- Settles O41: `correctBlock_of_low`. -/
theorem rsdecLeavesBlocksWithLowSyndromes : Obligations.RsdecLeavesBlocksWithLowSyndromes := by
  unfold Obligations.RsdecLeavesBlocksWithLowSyndromes
  intro n twoS s h1 h2 hlow
  obtain ⟨m, hsucceeds, hread⟩ := rsdec_of_ok h1 h2 (correctBlock_of_low (length_cwRange _ _ _) (deg_syndromePoly_of_low h1 hlow))
  refine ⟨m, hsucceeds, fun a => ?_⟩
  rw [hread]
  split
  · next ha => rw [getD_cwRange s 0 ha, Nat.zero_add]
  · rfl

/-! ### The key equation (R201 to R204) in Mathlib's polynomials

`E` is the set of the powers of x at which the errors are, `x k` the location number of the error at `k`, `w k` its weight in
the syndromes. -/

section
variable {K : Type} [Field K]

/-- σ, the locator polynomial, with σ(0) = 1 (R202). -/
noncomputable def locator (E : Finset ℕ) (x : ℕ → K) : K[X] := ∏ j ∈ E, (C (x j) * X + 1)

/-- ω, the evaluator polynomial (R202). -/
noncomputable def evaluator (E : Finset ℕ) (x w : ℕ → K) : K[X] := ∑ k ∈ E, C (w k) * locator (E.erase k) x

/-- What the product of σ and the syndrome polynomial has from x^N on. -/
noncomputable def overflow (N : ℕ) (E : Finset ℕ) (x w : ℕ → K) : K[X] := evaluator E x fun k => w k * x k ^ N

/-- The coefficients below `N` of `S` are the sums of the weights times the powers of the location numbers (R196). -/
def IsSyndrome (N : ℕ) (E : Finset ℕ) (x w : ℕ → K) (S : K[X]) : Prop :=
  ∀ i, S.coeff i = if i < N then ∑ k ∈ E, w k * x k ^ i else 0

variable {N : ℕ} {E : Finset ℕ} {x w : ℕ → K} {S : K[X]}

theorem eval_locator (E : Finset ℕ) (x : ℕ → K) (a : K) : (locator E x).eval a = ∏ j ∈ E, (x j * a + 1) := by
  simp [locator, eval_prod]

@[simp] theorem coeff_zero_locator (E : Finset ℕ) (x : ℕ → K) : (locator E x).coeff 0 = 1 := by
  rw [coeff_zero_eq_eval_zero, eval_locator]
  simp

theorem natDegree_locator (hx : ∀ k ∈ E, x k ≠ 0) : (locator E x).natDegree = E.card := by
  have hfactor : ∀ k ∈ E, (C (x k) * X + 1 : K[X]).natDegree = 1 := fun k hk => by
    rw [← C_1, natDegree_linear (hx k hk)]
  have hne : ∀ k ∈ E, (C (x k) * X + 1 : K[X]) ≠ 0 := fun k hk => ne_zero_of_natDegree_gt (n := 0) (by rw [hfactor k hk]; omega)
  rw [locator, natDegree_prod _ _ hne, Finset.sum_congr rfl hfactor, Finset.card_eq_sum_ones]

theorem natDegree_evaluator_le (hx : ∀ k ∈ E, x k ≠ 0) : (evaluator E x w).natDegree ≤ E.card - 1 :=
  natDegree_sum_le_of_forall_le E _ fun k hk => by
    refine (natDegree_C_mul_le _ _).trans ?_
    rw [natDegree_locator fun j hj => hx j (Finset.mem_of_mem_erase hj), Finset.card_erase_of_mem hk]

theorem locator_eq_mul (x : ℕ → K) {k : ℕ} (hk : k ∈ E) : locator E x = (C (x k) * X + 1) * locator (E.erase k) x :=
  (Finset.mul_prod_erase E _ hk).symm

variable [CharP K 2]

/-- σ is zero at the inverse of a location number. -/
theorem eval_locator_inv {k : ℕ} (hk : k ∈ E) (hx : x k ≠ 0) : (locator E x).eval (x k)⁻¹ = 0 := by
  rw [eval_locator]
  exact Finset.prod_eq_zero hk (by rw [mul_inv_cancel₀ hx, CharTwo.add_self_eq_zero])

/-- ω at the inverse of a location number is the weight times the product over the other errors. -/
theorem eval_evaluator_inv {k : ℕ} (hk : k ∈ E) (hx : x k ≠ 0) :
    (evaluator E x w).eval (x k)⁻¹ = w k * (locator (E.erase k) x).eval (x k)⁻¹ := by
  rw [evaluator, eval_finsetSum, Finset.sum_eq_single_of_mem k hk fun j _ hj => ?_]
  · rw [eval_C_mul]
  · rw [eval_C_mul, eval_locator_inv (Finset.mem_erase.2 ⟨hj.symm, hk⟩) hx, mul_zero]

theorem eval_locator_erase_ne_zero (hinj : Set.InjOn x E) {k : ℕ} (hk : k ∈ E) (hx : x k ≠ 0) :
    (locator (E.erase k) x).eval (x k)⁻¹ ≠ 0 := by
  rw [eval_locator, Finset.prod_ne_zero_iff]
  intro j hj h
  obtain ⟨hne, hjE⟩ := Finset.mem_erase.1 hj
  rw [CharTwo.add_eq_zero, mul_inv_eq_one₀ hx] at h
  exact hne (hinj hjE hk h)

/-- The key equation σ·S = ω + x^N·(…): each error's geometric series times its own factor of σ is 1 + (X_k·x)^N. -/
theorem IsSyndrome.key (hS : IsSyndrome N E x w S) : locator E x * S = evaluator E x w + X ^ N * overflow N E x w := by
  have hseries : S = ∑ k ∈ E, C (w k) * ∑ i ∈ Finset.range N, (C (x k) * X) ^ i := by
    ext i
    rw [hS, finsetSum_coeff]
    simp only [coeff_C_mul, finsetSum_coeff, mul_pow, ← C_pow, coeff_X_pow, mul_ite, mul_one, mul_zero, Finset.sum_ite_eq,
      Finset.mem_range]
    split
    · rfl
    · exact Finset.sum_const_zero.symm
  rw [hseries, evaluator, overflow, evaluator, Finset.mul_sum, Finset.mul_sum, ← Finset.sum_add_distrib]
  refine Finset.sum_congr rfl fun k hk => ?_
  have hgeom : (C (x k) * X + 1) * ∑ i ∈ Finset.range N, (C (x k) * X) ^ i = (C (x k) * X) ^ N + 1 := by
    rw [← CharTwo.sub_eq_add, ← CharTwo.sub_eq_add, mul_comm, geom_sum_mul]
  calc locator E x * (C (w k) * ∑ i ∈ Finset.range N, (C (x k) * X) ^ i)
      = C (w k) * locator (E.erase k) x * ((C (x k) * X + 1) * ∑ i ∈ Finset.range N, (C (x k) * X) ^ i) := by
        rw [locator_eq_mul x hk]
        ring
    _ = C (w k) * locator (E.erase k) x + X ^ N * (C (w k * x k ^ N) * locator (E.erase k) x) := by
        rw [hgeom, mul_pow, C_mul, C_pow]
        ring

/-- The factors of different location numbers have no common factor. -/
theorem isCoprime_factors {a b : K} (h : a ≠ b) : IsCoprime (C a * X + 1 : K[X]) (C b * X + 1) := by
  have hsum : a + b ≠ 0 := fun h0 => h (CharTwo.add_eq_zero.1 h0)
  have hinv : C (a + b)⁻¹ * (C a + C b) = 1 := by rw [← C_add, ← C_mul, inv_mul_cancel₀ hsum, C_1]
  refine ⟨C (a + b)⁻¹ * C b, C (a + b)⁻¹ * C a, ?_⟩
  linear_combination hinv + C (a + b)⁻¹ * C a * C b * X * CharTwo.two_eq_zero (R := K[X])

/-- σ divides what is zero at the inverses of all location numbers. -/
theorem locator_dvd (hinj : Set.InjOn x E) (hx : ∀ k ∈ E, x k ≠ 0) {p : K[X]} (hp : ∀ k ∈ E, p.eval (x k)⁻¹ = 0) :
    locator E x ∣ p := by
  refine Finset.prod_dvd_of_coprime (fun j hj k hk hne => isCoprime_factors fun h => hne (hinj hj hk h)) fun k hk => ?_
  have hfactor : C (x k)⁻¹ * (C (x k) * X + 1) = X - C (x k)⁻¹ := by
    rw [mul_add, ← mul_assoc, ← C_mul, inv_mul_cancel₀ (hx k hk), C_1, one_mul, mul_one, CharTwo.sub_eq_add]
  exact (Dvd.intro_left _ hfactor).trans (dvd_iff_isRoot.2 (hp k hk))

/-! ### The run of the Euclidean algorithm -/

/-- What holds along the run of R201 on x^N and `S`: both remainders are combinations of x^N and `S` whose coefficients have
determinant 1, the remainders' degrees fall, and the degree of `t` grows as that of the remainder before falls. -/
structure EuclidInv (N : ℕ) (S rLast r tLast t : K[X]) : Prop where
  combination : ∃ uLast u : K[X], rLast = uLast * X ^ N + tLast * S ∧ r = u * X ^ N + t * S ∧ u * tLast + uLast * t = 1
  lower : r.natDegree < rLast.natDegree
  nonzero : t ≠ 0
  higher : tLast.natDegree ≤ t.natDegree
  degrees : rLast.natDegree + t.natDegree = N
  goesOn : N ≤ 2 * rLast.natDegree

omit [CharP K 2] in
theorem EuclidInv.start (hS : S.natDegree < N) : EuclidInv N S (X ^ N) S 0 1 where
  combination := ⟨1, 0, by ring, by ring, by ring⟩
  lower := by rwa [natDegree_X_pow]
  nonzero := one_ne_zero
  higher := by simp
  degrees := by simp
  goesOn := by rw [natDegree_X_pow]; omega

theorem EuclidInv.pass {rLast r tLast t q r' t' : K[X]} (h : EuclidInv N S rLast r tLast t) (hgo : N ≤ 2 * r.natDegree)
    (hdiv : rLast = q * r + r') (hlower : r'.natDegree < r.natDegree) (hnext : t' = q * t + tLast) :
    EuclidInv N S r r' t t' := by
  obtain ⟨⟨uLast, u, hrLast, hr, hdet⟩, hdeg, ht0, hhigher, hsum, -⟩ := h
  have hqr : q * r = rLast + r' := by rw [hdiv, add_assoc, CharTwo.add_self_eq_zero, add_zero]
  have hqrdeg : (q * r).natDegree = rLast.natDegree := by
    rw [hqr, natDegree_add_eq_left_of_natDegree_lt (by omega)]
  have hq0 : q ≠ 0 := by
    rintro rfl
    rw [zero_mul, natDegree_zero] at hqrdeg
    omega
  have hr0 : r ≠ 0 := ne_zero_of_natDegree_gt hlower
  rw [natDegree_mul hq0 hr0] at hqrdeg
  have ht' : t'.natDegree = q.natDegree + t.natDegree := by
    rw [hnext, natDegree_add_eq_left_of_natDegree_lt, natDegree_mul hq0 ht0]
    rw [natDegree_mul hq0 ht0]
    omega
  have htwo : (2 : K[X]) = 0 := CharTwo.two_eq_zero
  refine ⟨⟨u, uLast + q * u, hr, ?_, ?_⟩, hlower, ne_zero_of_natDegree_gt (n := 0) (by omega), by omega, by omega, hgo⟩
  · rw [hnext]
    linear_combination hrLast - hdiv - q * hr - q * (u * X ^ N + t * S) * htwo
  · rw [hnext]
    linear_combination hdet + q * u * t * htwo

/-- The run of R201 read in `K`. -/
theorem EuclidInv.of_run {f : Machine.Field} (φ : Reading f K) {twoS : ℕ} {synd rLast r tLast t : Poly}
    (hs : Stripped synd) (hlen : deg synd < twoS) (run : EuclidRun f twoS synd rLast r tLast t) :
    EuclidInv twoS (φ.poly synd) (φ.poly rLast) (φ.poly r) (φ.poly tLast) (φ.poly t) := by
  induction run with
  | start =>
    have hmonomial : φ.poly (1 :: List.replicate twoS 0) = X ^ twoS := φ.poly_eq_iff.2 fun k => by
      rw [coeff_X_pow, coeff_cons, List.length_replicate]
      split
      · exact φ.val_one
      · exact (congrArg φ.val (coeff_zeros _ _)).trans φ.val_zero
    rw [hmonomial, φ.poly_zero, φ.poly_one]
    exact .start (by rwa [φ.natDegree_poly hs])
  | pass q r' t' run goesOn _ hr' _ division lower next ih =>
    obtain ⟨-, hr, -⟩ := stripped_of_euclidRun hs run
    refine ih.pass (by rwa [φ.natDegree_poly hr]) (φ.poly_eq_mul_add division) ?_ (φ.poly_eq_mul_add next)
    rw [φ.natDegree_poly hr', φ.natDegree_poly hr]
    exact lower.elim (fun h => by rw [h]; change 0 < deg _; omega) id

/-- At the end of the run `t` and `r` are σ and ω up to a constant, when there are at most N/2 errors: t·ω and σ·r agree modulo
x^N and are of lower degree, so σ divides `t`; and the determinant leaves no common factor but a constant. -/
theorem EuclidInv.eq_locator {rLast r tLast t : K[X]} (h : EuclidInv N S rLast r tLast t) (hS : IsSyndrome N E x w S)
    (hend : 2 * r.natDegree < N) (hcard : 2 * E.card ≤ N) (hinj : Set.InjOn x E) (hx : ∀ k ∈ E, x k ≠ 0) (hw : ∀ k ∈ E, w k ≠ 0) :
    ∃ c : K, c ≠ 0 ∧ t = C c * locator E x ∧ r = C c * evaluator E x w := by
  obtain ⟨⟨uLast, u, -, hr, hdet⟩, -, ht0, -, hsum, hgo⟩ := h
  have htwo : (2 : K[X]) = 0 := CharTwo.two_eq_zero
  have hkey := hS.key
  have hdegσ : (locator E x).natDegree = E.card := natDegree_locator hx
  have hdegω : (evaluator E x w).natDegree ≤ E.card - 1 := natDegree_evaluator_le hx
  have hdvd : X ^ N ∣ t * evaluator E x w + locator E x * r :=
    ⟨t * overflow N E x w + locator E x * u, by
      linear_combination locator E x * hr + t * hkey + t * evaluator E x w * htwo⟩
  have hdeg : (t * evaluator E x w + locator E x * r).natDegree < N := by
    have h1 := natDegree_mul_le (p := t) (q := evaluator E x w)
    have h2 := natDegree_mul_le (p := locator E x) (q := r)
    have h3 := natDegree_add_le (t * evaluator E x w) (locator E x * r)
    omega
  have heq : t * evaluator E x w = locator E x * r :=
    CharTwo.add_eq_zero.1 (eq_zero_of_dvd_of_natDegree_lt hdvd (by rwa [natDegree_X_pow]))
  obtain ⟨g, rfl⟩ := locator_dvd hinj hx (p := t) fun k hk => by
    have hval := congrArg (eval (x k)⁻¹) heq
    rw [eval_mul, eval_mul, eval_locator_inv hk (hx k hk), zero_mul, eval_evaluator_inv hk (hx k hk)] at hval
    exact (mul_eq_zero.1 hval).resolve_right (mul_ne_zero (hw k hk) (eval_locator_erase_ne_zero hinj hk (hx k hk)))
  have hrg : r = g * evaluator E x w :=
    (mul_left_cancel₀ (left_ne_zero_of_mul ht0) (by rw [← heq, mul_assoc])).symm
  have hu : u = g * overflow N E x w := by
    refine mul_right_cancel₀ (pow_ne_zero N X_ne_zero) ?_
    linear_combination hr.symm + hrg - g * hkey - g * overflow N E x w * X ^ N * htwo
  obtain ⟨c, hc, rfl⟩ := isUnit_iff.1 (IsUnit.of_mul_eq_one (overflow N E x w * tLast + uLast * locator E x) (by
    rw [← hdet, hu]
    ring : g * _ = 1))
  exact ⟨c, hc.ne_zero, mul_comm _ _, hrg⟩

end

/-! ### Blocks with at most ec/2 wrong bytes (R208) -/

/-- The powers of x, below `n`, at which two blocks differ. -/
def wrongPowers (n : ℕ) (c d : List Byte) : Finset ℕ := (Finset.range n).filter fun k => coeff c k ≠ coeff d k

/-- In a block of `n` bytes the byte at `a` is the coefficient of x^(n−1−a) (R69). -/
theorem coeff_eq_getD {c : List Byte} {n a : ℕ} (hc : c.length = n) (ha : a < n) : coeff c (n - 1 - a) = c.getD a 0 := by
  rw [coeff, hc, if_pos (by omega)]
  congr 1
  omega

theorem mem_wrongPowers {n k : ℕ} {c d : List Byte} : k ∈ wrongPowers n c d ↔ k < n ∧ coeff c k ≠ coeff d k := by
  rw [wrongPowers, Finset.mem_filter, Finset.mem_range]

/-- The wrong powers are as many as the wrong bytes. -/
theorem card_wrongPowers_le {n : ℕ} {c d : List Byte} (hc : c.length = n) (hd : d.length = n) :
    (wrongPowers n c d).card ≤ (List.range n).countP fun a => c.getD a 0 != d.getD a 0 := by
  rw [List.countP_eq_length_filter, ← List.toFinset_card_of_nodup (List.nodup_range.filter _)]
  refine (Finset.card_le_card fun k hk => ?_).trans (Finset.card_image_le (f := fun a => n - 1 - a))
  obtain ⟨hkn, hne⟩ := mem_wrongPowers.1 hk
  have hback : n - 1 - (n - 1 - k) = k := by omega
  rw [← hback, coeff_eq_getD hc (by omega), coeff_eq_getD hd (by omega)] at hne
  have hwrong : n - 1 - k ∈ (List.range n).filter fun a => c.getD a 0 != d.getD a 0 :=
    List.mem_filter.2 ⟨List.mem_range.2 (by omega), bne_iff_ne.2 hne⟩
  exact Finset.mem_image.2 ⟨n - 1 - k, List.mem_toFinset.2 hwrong, hback⟩

section
variable {f : Machine.Field} {K : Type} [Field K] (φ : Reading f K) {n ec : ℕ} {c d : List Byte}

/-- The location number α^k of an error at x^k (R203). -/
def Reading.location (k : ℕ) : K := φ.alpha ^ k

/-- The weight in the syndromes of an error at x^k: its magnitude times the location number to the power `b` (R196, R204). -/
def Reading.weight (c d : List Byte) (k : ℕ) : K := φ.val (coeff c k ^^^ coeff d k) * φ.location k ^ f.base

theorem Reading.location_ne_zero (k : ℕ) : φ.location k ≠ 0 := pow_ne_zero k φ.alpha_ne_zero

theorem Reading.location_injOn (hn : n ≤ 255) : Set.InjOn φ.location (wrongPowers n c d) :=
  φ.alpha_pow_injOn.mono fun _ hk => (mem_wrongPowers.1 hk).1.trans_le hn

theorem Reading.weight_ne_zero {k : ℕ} (hk : k ∈ wrongPowers n c d) : φ.weight c d k ≠ 0 := by
  refine mul_ne_zero (φ.val_ne_zero fun h => ?_) (pow_ne_zero _ (φ.location_ne_zero k))
  exact (mem_wrongPowers.1 hk).2 (BitVec.xor_eq_zero_iff.1 h)

/-- The product of R204 is that of the other factors of σ. -/
theorem Reading.val_denominator_eq {E : Finset ℕ} {powers : List ℕ} (hnodup : powers.Nodup) (hmem : ∀ k, k ∈ powers ↔ k ∈ E)
    (hlt : ∀ k ∈ E, k < 255) {k : ℕ} (hk : k < 255) :
    φ.val (denominator f powers k) = (locator (E.erase k) φ.location).eval (φ.location k)⁻¹ := by
  have hother : (powers.filter (· != k)).toFinset = E.erase k := by
    ext j
    simp [hmem, and_comm]
  rw [φ.val_denominator, eval_locator, ← hother, List.prod_toFinset _ (hnodup.filter _)]
  refine congrArg List.prod (List.map_congr_left fun j hj => ?_)
  rw [φ.val_gexp (hlt j ((hmem j).1 (List.mem_of_mem_filter hj))), φ.val_inversePower hk.le, Reading.location, Reading.location]

/-- The factor of R204 for a generator base that is not 0 takes the location number out of the weight. -/
theorem Reading.location_pow_base_mul {k : ℕ} (hk : k < 255) :
    φ.location k ^ f.base * φ.val (if f.base = 0 then 1 else inversePower f k) = 1 := by
  have hinv : φ.location k * φ.val (inversePower f k) = 1 := by
    rw [φ.val_inversePower hk.le]
    exact mul_inv_cancel₀ (φ.location_ne_zero k)
  cases f
  · simp [Field.base]
  · simpa [Field.base] using hinv

/-- At a root of the codeword `d`, the value of `c` is that of the errors. -/
theorem Reading.val_polyValue_eq_sum (hc : c.length = n) (hd : d.length = n) {p : Byte} (hp : polyValue f d p = 0) :
    φ.val (polyValue f c p) = ∑ k ∈ wrongPowers n c d, φ.val (coeff c k ^^^ coeff d k) * φ.val p ^ k := by
  have hvalue : ∀ l : List Byte, l.length = n → φ.val (polyValue f l p) = ∑ k ∈ Finset.range n, φ.val (coeff l k) * φ.val p ^ k :=
    fun l hl => by simp only [polyValue, φ.val_xorSum, φ.val_gmul, φ.val_fieldPower, hl]
  have hsum : φ.val (polyValue f c p) = ∑ k ∈ Finset.range n, φ.val (coeff c k ^^^ coeff d k) * φ.val p ^ k := by
    rw [← add_zero (φ.val (polyValue f c p)), ← φ.val_zero, ← show polyValue f d p = 0#8 from hp, hvalue c hc, hvalue d hd,
      ← Finset.sum_add_distrib]
    simp only [φ.val_xor, add_mul]
  refine hsum.trans (Finset.sum_filter_of_ne (p := fun k => coeff c k ≠ coeff d k) fun k _ hne h => hne ?_).symm
  rw [h, BitVec.xor_self, φ.val_zero, zero_mul]

/-- The syndrome polynomial of a block is that of its errors (R196). -/
theorem Reading.isSyndrome (hc : c.length = n) (hd : d.length = n) (hcode : ∀ i < ec, polyValue f d (syndromePoint f i) = 0)
    {synd : Poly} (hsynd : ∀ i, coeff synd i = if i < ec then polyValue f c (syndromePoint f i) else 0) :
    IsSyndrome ec (wrongPowers n c d) φ.location (φ.weight c d) (φ.poly synd) := by
  intro i
  rw [φ.coeff_poly, hsynd]
  split
  · next hi =>
    rw [φ.val_polyValue_eq_sum hc hd (hcode i hi)]
    refine Finset.sum_congr rfl fun k _ => ?_
    rw [φ.val_syndromePoint, Reading.weight, Reading.location]
    ring
  · exact φ.val_zero

end

/-- The decoder's run on a block `c` of `n` bytes of which at most ec/2 differ from those of a codeword `d`. -/
structure CorrectableRun (f : Machine.Field) (n ec : ℕ) (c d : List Byte) (synd rLast r tLast t : Poly) : Prop where
  short : n ≤ 255
  length_c : c.length = n
  length_d : d.length = n
  codeword : ∀ i < ec, polyValue f d (syndromePoint f i) = 0
  fewWrong : 2 * (wrongPowers n c d).card ≤ ec
  stripped : Stripped synd
  syndromes : ∀ i, coeff synd i = if i < ec then polyValue f c (syndromePoint f i) else 0
  run : EuclidRun f ec synd rLast r tLast t
  ended : 2 * deg r < ec

namespace CorrectableRun

variable {f : Machine.Field} {n ec : ℕ} {c d : List Byte} {synd rLast r tLast t : Poly}
  (h : CorrectableRun f n ec c d synd rLast r tLast t)
include h

theorem deg_synd_lt : deg synd < ec := by
  by_contra hge
  rcases h.stripped.2 with hlen | hhead
  · have := h.ended
    simp only [deg, hlen] at hge
    omega
  · rw [← coeff_deg h.stripped.1, h.syndromes, if_neg hge] at hhead
    exact hhead rfl

/-- The run ends with σ and ω of the errors, both times the constant term of `t`. -/
theorem poly_eq {K : Type} [Field K] [CharP K 2] (φ : Reading f K) : φ.val (coeff t 0) ≠ 0 ∧
    φ.poly t = C (φ.val (coeff t 0)) * locator (wrongPowers n c d) φ.location ∧
    φ.poly r = C (φ.val (coeff t 0)) * evaluator (wrongPowers n c d) φ.location (φ.weight c d) := by
  obtain ⟨-, hr, -⟩ := stripped_of_euclidRun h.stripped h.run
  obtain ⟨a, ha, ht, hr⟩ := (EuclidInv.of_run φ h.stripped h.deg_synd_lt h.run).eq_locator
    (φ.isSyndrome h.length_c h.length_d h.codeword h.syndromes) (by rw [φ.natDegree_poly hr]; exact h.ended) h.fewWrong
    (φ.location_injOn h.short) (fun k _ => φ.location_ne_zero k) (fun k hk => φ.weight_ne_zero hk)
  have hconst : φ.val (coeff t 0) = a := by rw [← φ.coeff_poly, ht, coeff_C_mul, coeff_zero_locator, mul_one]
  rw [hconst]
  exact ⟨ha, ht, hr⟩

/-- The error powers are those at which the blocks differ. -/
theorem mem_errorPowers_iff {k : ℕ} : k ∈ errorPowers f t ↔ k ∈ wrongPowers n c d := by
  obtain ⟨K, _, _, ⟨φ⟩⟩ := exists_reading f
  obtain ⟨ha, ht, -⟩ := h.poly_eq φ
  have hlt : ∀ j ∈ wrongPowers n c d, j < 255 := fun j hj => (mem_wrongPowers.1 hj).1.trans_le h.short
  have hvalue : ∀ k < 255, polyValue f t (inversePower f k) = 0 ↔
      (locator (wrongPowers n c d) φ.location).eval (φ.location k)⁻¹ = 0 := fun k hk => by
    rw [φ.polyValue_eq_zero_iff, ht, φ.val_inversePower hk.le, eval_C_mul, mul_eq_zero, or_iff_right ha]
    rfl
  rw [mem_errorPowers]
  constructor
  · rintro ⟨hk, hroot⟩
    rw [hvalue k hk, eval_locator, Finset.prod_eq_zero_iff] at hroot
    obtain ⟨j, hj, hfactor⟩ := hroot
    rw [CharTwo.add_eq_zero, mul_inv_eq_one₀ (φ.location_ne_zero k)] at hfactor
    rwa [← φ.alpha_pow_injOn (hlt j hj) hk hfactor]
  · exact fun hk => ⟨hlt k hk, (hvalue k (hlt k hk)).2 (eval_locator_inv hk (φ.location_ne_zero k))⟩

/-- None of the failures of R206 occurs. -/
theorem correctable : ¬ Uncorrectable f n t := by
  obtain ⟨K, _, _, ⟨φ⟩⟩ := exists_reading f
  obtain ⟨ha, ht, -⟩ := h.poly_eq φ
  obtain ⟨-, -, hts⟩ := stripped_of_euclidRun h.stripped h.run
  rintro (h0 | hlen | ⟨k, hk, hge⟩)
  · exact ha (φ.val_eq_zero.2 h0)
  · have hset : (errorPowers f t).toFinset = wrongPowers n c d := by
      ext k
      rw [List.mem_toFinset, h.mem_errorPowers_iff]
    refine hlen ?_
    rw [← φ.natDegree_poly hts, ht, natDegree_C_mul ha, natDegree_locator fun k _ => φ.location_ne_zero k, ← hset,
      List.toFinset_card_of_nodup (nodup_errorPowers f t)]
  · exact absurd (mem_wrongPowers.1 (h.mem_errorPowers_iff.1 hk)).1 (Nat.not_lt.2 hge)

/-- The magnitude that R204's equation gives is the difference of the two blocks. -/
theorem magnitude_eq {k : ℕ} {m : Byte} (hk : k ∈ errorPowers f t)
    (hm : gmul f m (gmul f (coeff t 0) (denominator f (errorPowers f t) k)) =
      gmul f (polyValue f r (inversePower f k)) (if f.base = 0 then 1 else inversePower f k)) :
    m = coeff c k ^^^ coeff d k := by
  obtain ⟨K, _, _, ⟨φ⟩⟩ := exists_reading f
  obtain ⟨ha, -, hr⟩ := h.poly_eq φ
  have hkE := h.mem_errorPowers_iff.1 hk
  have hk255 := lt_of_mem_errorPowers hk
  have hden := φ.val_denominator_eq (nodup_errorPowers f t) (fun _ => h.mem_errorPowers_iff)
    (fun j hj => lt_of_mem_errorPowers (h.mem_errorPowers_iff.2 hj)) hk255
  have hden0 := eval_locator_erase_ne_zero (φ.location_injOn h.short) hkE (φ.location_ne_zero k)
  have hvalue : φ.val (polyValue f r (inversePower f k)) = φ.val (coeff t 0) *
      (φ.weight c d k * (locator ((wrongPowers n c d).erase k) φ.location).eval (φ.location k)⁻¹) := by
    rw [← φ.eval_poly, hr, φ.val_inversePower hk255.le, eval_C_mul]
    exact congrArg (φ.val (coeff t 0) * ·) (eval_evaluator_inv hkE (φ.location_ne_zero k))
  have heq := congrArg φ.val hm
  rw [φ.val_gmul, φ.val_gmul, φ.val_gmul, hden, hvalue, Reading.weight] at heq
  apply φ.val_injective
  refine mul_right_cancel₀ (mul_ne_zero ha hden0) (heq.trans ?_)
  linear_combination φ.val (coeff c k ^^^ coeff d k) * (φ.val (coeff t 0) *
    (locator ((wrongPowers n c d).erase k) φ.location).eval (φ.location k)⁻¹) * φ.location_pow_base_mul hk255

end CorrectableRun

/-- Settles O44: `RSDEC` decides the block as O57 says, and there the locator, the powers and the magnitudes are those of the
errors. -/
theorem rsdecRestoresCorrectableBlocks : Obligations.RsdecRestoresCorrectableBlocks := by
  unfold Obligations.RsdecRestoresCorrectableBlocks
  intro n ec s data hdata hec hlen hcount
  have hd : (data ++ rsenc s.fld data ec.toNat).length = n.toNat := by rw [List.length_append, length_rsenc s.fld data hec, hlen]
  have hc : (s.cwRange 0 n.toNat).length = n.toNat := length_cwRange _ _ _
  have hcode : ∀ i < ec.toNat, polyValue s.fld (data ++ rsenc s.fld data ec.toNat) (syndromePoint s.fld i) = 0 :=
    fun i => polyValue_encoded s.fld data
  generalize data ++ rsenc s.fld data ec.toNat = d at *
  have hwrong : 2 * (wrongPowers n.toNat (s.cwRange 0 n.toNat) d).card ≤ ec.toNat := by
    have hcard := card_wrongPowers_le hc hd
    rw [List.countP_congr (q := fun a => s.readCW a != d.getD a 0) fun a ha => by
      rw [getD_cwRange s 0 (List.mem_range.1 ha), Nat.zero_add]] at hcard
    omega
  obtain ⟨synd, rLast, r, tLast, t, hs, hsynd, run, hr, -, hgood⟩ := rsdecDecidesEveryBlock n ec s hec (by omega)
  have h : CorrectableRun s.fld n.toNat ec.toNat (s.cwRange 0 n.toNat) d synd rLast r tLast t :=
    ⟨Nat.le_of_lt_succ n.isLt, hc, hd, hcode, hwrong, hs, hsynd, run, hr⟩
  obtain ⟨m, magnitude, hsucceeds, hmagnitude, hread⟩ := hgood h.correctable
  refine ⟨m, hsucceeds, List.ext_getElem (by rw [length_cwRange, hd]) fun a hlt hlt' => ?_,
    fun a ha => (hread a).trans (if_neg fun hin => Nat.not_lt.2 ha hin.1)⟩
  have ha : a < n.toNat := by rwa [hd] at hlt'
  have hcoeff : coeff (s.cwRange 0 n.toNat) (n.toNat - 1 - a) = s.readCW a := by
    rw [coeff_eq_getD hc ha, getD_cwRange s 0 ha, Nat.zero_add]
  rw [← List.getD_eq_getElem _ 0 hlt, ← List.getD_eq_getElem _ 0 hlt', getD_cwRange _ 0 ha, Nat.zero_add, hread,
    ← coeff_eq_getD hd ha]
  by_cases hk : n.toNat - 1 - a ∈ errorPowers s.fld t
  · rw [if_pos ⟨ha, hk⟩, h.magnitude_eq hk (hmagnitude _ hk), hcoeff, ← BitVec.xor_assoc, BitVec.xor_self, BitVec.zero_xor]
  · rw [if_neg fun hin => hk hin.2, ← hcoeff]
    rw [h.mem_errorPowers_iff, mem_wrongPowers] at hk
    exact by_contra fun hne => hk ⟨by omega, hne⟩

end Sys2Proof.ReedSolomon

/-! The family of spec/43_binarizer.md: the histograms and the black point, then the commands `BINGM`, `BINGR`, `BINHM`. -/

namespace Sys2Proof.Machine

/-! ### The histograms (R233 to R235) -/

theorem bucket_histogram (samples : List Nat) {k : Nat} (hk : k < 32) :
    bucket (histogram samples) k = samples.countP fun v => decide (v >>> 3 = k) := by
  have hget : bucket (histogram samples) k = samples.countP fun v => v / 8 == k := by simp [bucket, histogram, hk]
  exact hget.trans (List.countP_congr fun v _ => by simp [Nat.shiftRight_eq_div_pow])

/-- Counting the positions of a window inside `0 … n−1`, or those of `0 … n−1` that are in the window. -/
theorem countP_window (p : Nat → Bool) {a b n : Nat} (hab : a ≤ b) (hbn : b ≤ n) :
    (List.range (b - a)).countP (fun d => p (a + d)) =
      (List.range n).countP fun x => decide (a ≤ x ∧ x < b) && p x := by
  obtain ⟨m, rfl⟩ := Nat.exists_eq_add_of_le hab
  obtain ⟨r, rfl⟩ := Nat.exists_eq_add_of_le hbn
  have hbefore : (List.range a).countP (fun x => decide (a ≤ x ∧ x < a + m) && p x) = 0 :=
    List.countP_eq_zero.2 fun x hx => by simp [Nat.not_le.2 (List.mem_range.1 hx)]
  have hafter : (List.range r).countP ((fun x => decide (a ≤ x ∧ x < a + m) && p x) ∘ (a + m + ·)) = 0 :=
    List.countP_eq_zero.2 fun x _ => by simp
  rw [List.range_add, List.countP_append, List.countP_map, hafter, List.range_add, List.countP_append, List.countP_map,
    hbefore, Nat.add_sub_cancel_left, Nat.zero_add, Nat.add_zero]
  exact List.countP_congr fun d hd => by simp [List.mem_range.1 hd]

/-- Settles O45: the samples of a row are a window of it. -/
theorem histogramsCountTheSampledPixels : Obligations.HistogramsCountTheSampledPixels := by
  unfold Obligations.HistogramsCountTheSampledPixels
  intro s y k hk
  rw [bucket_histogram _ hk, bucket_histogram _ hk]
  refine ⟨?_, List.countP_map ..⟩
  rw [State.matrixSamples, List.countP_flatMap]
  refine congrArg List.sum (List.map_congr_left fun j _ => ?_)
  have hwindow := countP_window (fun x => decide (s.pixel x (s.imgH.toNat * j / 5) >>> 3 = k))
    (a := s.imgW.toNat / 5) (b := 4 * s.imgW.toNat / 5) (n := s.imgW.toNat) (by omega) (by omega)
  simpa [List.countP_map, Function.comp_def, and_assoc, Bool.and_assoc] using hwindow

/-! ### The peaks and the valley (R236 to R239) -/

theorem firstPeak_isFirstPeak (count : List Nat) :
    IsFirstPeak count (firstPeak count).1 ∧ (firstPeak count).2 = bucket count (firstPeak count).1 := by
  rcases foldl_greatest id (bucket count) (0, 0) 32 with ⟨h, hall⟩ | ⟨d, hd, h, -, hall⟩
  · rw [show firstPeak count = (0, 0) from h]
    refine ⟨⟨by decide, fun z hz => ⟨(hall z hz).trans (Nat.zero_le _), fun h0 => absurd h0 (Nat.not_lt_zero z)⟩⟩, ?_⟩
    exact (Nat.le_zero.1 (hall 0 (by decide))).symm
  · rw [show firstPeak count = (d, bucket count d) from h]
    exact ⟨⟨hd, hall⟩, rfl⟩

theorem secondPeak_isSecondPeak (count : List Nat) (first : Nat) : IsSecondPeak count first (secondPeak count first) := by
  rcases foldl_greatest id (peakScore count first) (first, 0) 32 with ⟨h, hall⟩ | ⟨d, hd, h, hpos, hall⟩
  · rw [show secondPeak count first = first from congrArg Prod.fst h]
    exact .inl ⟨rfl, fun z hz => Nat.le_zero.1 (hall z hz)⟩
  · rw [show secondPeak count first = d from congrArg Prod.fst h]
    exact .inr ⟨hd, hpos, hall⟩

/-- The scan of R238 starts below every score, since no bucket is taller than the first peak. -/
theorem valleyScore_nonneg {count : List Nat} {maxCount lo hi x : Nat} (hx : x ≤ hi) (hmax : bucket count x ≤ maxCount) :
    0 ≤ valleyScore count maxCount lo hi x := by
  have h1 : (0 : Int) ≤ (hi : Int) - x := by omega
  have h2 : (0 : Int) ≤ (maxCount : Int) - bucket count x := by omega
  unfold valleyScore
  positivity

theorem valley_isValley {count : List Nat} {maxCount lo hi : Nat} (h : 2 < hi - lo)
    (hmax : ∀ x < hi, bucket count x ≤ maxCount) : IsValley count maxCount lo hi (valley count maxCount lo hi) := by
  rcases foldl_greatest (fun d => hi - 1 - d) (fun d => valleyScore count maxCount lo hi (hi - 1 - d)) (hi - 1, -1)
    (hi - lo - 1) with ⟨-, hall⟩ | ⟨d, hd, hv, -, hall⟩
  · have hle := hall 0 (by omega)
    have hnonneg := valleyScore_nonneg (lo := lo) (x := hi - 1 - 0) (hi := hi) (by omega) (hmax _ (by omega))
    exact absurd (hnonneg.trans hle) (show ¬ (0 : Int) ≤ -1 by decide)
  · rw [show valley count maxCount lo hi = hi - 1 - d from congrArg Prod.fst hv]
    refine ⟨by omega, by omega, fun z hlo hhi => ?_⟩
    obtain ⟨hle, hlt⟩ := hall (hi - 1 - z) (by omega)
    rw [show hi - 1 - (hi - 1 - z) = z by omega] at hle hlt
    exact ⟨hle, fun hz => hlt (by omega)⟩

/-- Settles O46: the three scans find the peaks and the valley. -/
theorem blackPointIsTheValley : Obligations.BlackPointIsTheValley := by
  unfold Obligations.BlackPointIsTheValley
  intro count _
  obtain ⟨hfirst, hmax⟩ := firstPeak_isFirstPeak count
  have hf := firstPeak_lt count
  have hg := secondPeak_lt count hf
  refine ⟨_, _, hfirst, secondPeak_isSecondPeak count _, fun h => if_pos h, fun h => ⟨_, if_neg (Nat.not_le.2 h), ?_⟩⟩
  rw [hmax]
  obtain ⟨hlo, hhi⟩ := valley_between count (bucket count (firstPeak count).1) h
  exact ⟨valley_isValley h fun x hx => (hfirst.2 x (by omega)).1, by omega, by omega⟩

/-! ### How a binarizer command ends (R231, R241, R243, R251, R284) -/

theorem ErrorCode.code_ne_zero (c : ErrorCode) : c.code ≠ 0 := by cases c <;> decide

theorem ErrorCode.code_injective {c d : ErrorCode} (h : c.code = d.code) : c = d := by
  cases c <;> cases d <;> simp [ErrorCode.code] at h ⊢

/-- A command succeeds exactly when its pseudocode leaves a state. -/
theorem succeedsWith_iff_of_finish {i : Instr} {s u : State} {r : Except ErrorCode State} (h : exec i s = finish i s r) :
    SucceedsWith i s u ↔ ∃ v, r = .ok v ∧ v.succeed = { u with status := v.succeed.status } ∧ LastCleared s v.succeed := by
  cases r with
  | ok v => simp [SucceedsWith, h]
  | error c =>
    refine iff_of_false ?_ (by rintro ⟨v, hv, -⟩; cases hv)
    rintro ⟨t, ht, -, hlast, -⟩
    rw [h] at ht
    cases ht
    exact c.code_ne_zero ((lastOf_statusAfterError c s.status).symm.trans hlast)

/-- A command fails exactly when its pseudocode raises the error. -/
theorem failsWith_iff_of_finish {i : Instr} {s : State} {r : Except ErrorCode State} (h : exec i s = finish i s r)
    (c : ErrorCode) : FailsWith i s c ↔ r = .error c := by
  refine ⟨?_, fun hr => failsWith_of_finish (hr ▸ h)⟩
  rintro ⟨t, ht, -, hlast, -⟩
  rw [h] at ht
  cases r with
  | ok v =>
    cases ht
    exact absurd (hlast.symm.trans (lastOf_statusAfterSuccess v.status)) c.code_ne_zero
  | error d =>
    cases ht
    exact congrArg _ (ErrorCode.code_injective ((lastOf_statusAfterError d s.status).symm.trans hlast))

/-- Settles O49: the two commands run the same pseudocode. -/
theorem binhmFallsBackToBingm : Obligations.BinhmFallsBackToBingm := by
  unfold Obligations.BinhmFallsBackToBingm
  intro s hsmall
  have hm : exec .bingm s = finish .bingm s
      (if s.inadmissible s.matrixWords then .error .illegalArgument else s.globalMatrix) := rfl
  have hh : exec .binhm s = finish .binhm s
      (if s.inadmissible s.matrixWords then .error .illegalArgument else s.globalMatrix) :=
    congrArg (fun r => finish .binhm s (if s.inadmissible s.matrixWords then _ else r)) (if_pos hsmall)
  exact ⟨fun u => (succeedsWith_iff_of_finish hm).trans (succeedsWith_iff_of_finish hh).symm,
    fun c => (failsWith_iff_of_finish hm c).trans (failsWith_iff_of_finish hh c).symm⟩

/-- The output registers of an image of `w` by `h` pixels (R33 to R35). -/
theorem writeOutput_eq (s : State) (w h : Half) (words : List Word) :
    s.writeOutput w.toNat h.toNat words = { s with
      bmem := s.bmem.writeRange 0 words, outW := w, outH := h, outRs := BitVec.ofNat 12 ((w.toNat + 31) / 32) } := by
  simp [State.writeOutput, State.writeBMEM, rowWords]

theorem HoldsMatrix.congr {s t : State} {w h : Nat} {black black' : Nat → Nat → Bool} (hm : HoldsMatrix s t w h black)
    (heq : ∀ x < w, ∀ y < h, black x y = black' x y) : HoldsMatrix s t w h black' := by
  refine ⟨fun y hy x hx => (hm.1 y hy x hx).trans ?_, hm.2⟩
  by_cases hxw : x < w
  · rw [heq x hxw y hy]
  · simp [hxw]

section
variable {s : State}

theorem bingm_of_not_admits (h : ¬ s.Admits ((s.imgW.toNat + 31) / 32 * s.imgH.toNat)) :
    FailsWith .bingm s .illegalArgument :=
  failsWith_of_finish (congrArg (finish .bingm s) (if_pos ((inadmissible_iff s _).2 h)))

variable (h : s.Admits ((s.imgW.toNat + 31) / 32 * s.imgH.toNat))
include h

theorem not_inadmissible_matrixWords : ¬ s.inadmissible s.matrixWords = true :=
  Bool.eq_false_iff.1 (inadmissible_eq_false h)

theorem bingm_of_ok {bp : Nat} (hbp : estimateBlackPoint (histogram s.matrixSamples) = .ok bp) :
    exec .bingm s = finish .bingm s (.ok ((s.writeOutput s.imgW.toNat s.imgH.toNat
      (packMatrix s.imgW.toNat s.imgH.toNat fun x y => decide (s.pixel x y < bp))).writeBlackPt bp)) := by
  refine congrArg (finish .bingm s) ((if_neg (not_inadmissible_matrixWords h)).trans ?_)
  rw [State.globalMatrix, hbp]

theorem bingm_of_error {e : ErrorCode} (he : estimateBlackPoint (histogram s.matrixSamples) = .error e) :
    FailsWith .bingm s .notFound := by
  obtain rfl := eq_notFound_of_estimate he
  refine failsWith_of_finish (congrArg (finish .bingm s) ((if_neg (not_inadmissible_matrixWords h)).trans ?_))
  rw [State.globalMatrix, he]

end

/-- Settles O47: the matrix is `packMatrix`'s, and the estimate has one error. -/
theorem bingmThresholdsTheImage : Obligations.BingmThresholdsTheImage := by
  unfold Obligations.BingmThresholdsTheImage
  refine fun s => ⟨fun h => ⟨fun bp hbp => ⟨_, ?_, holdsMatrix_writeRange s _ _ _⟩, fun e he => bingm_of_error h he⟩,
    bingm_of_not_admits⟩
  have hs := succeedsWith_of_finish (bingm_of_ok h hbp) rfl
  rwa [writeOutput_eq] at hs

/-! ### `BINGR` (R242, R243) -/

/-- Rounding down does not matter in the comparison of R243. -/
theorem sharp_lt_iff (s : State) (y x bp : Nat) : s.sharp y x < bp ↔
    4 * (s.pixel x y : Int) - s.pixel (x - 1) y - s.pixel (x + 1) y < 2 * bp := by
  unfold State.sharp
  omega

theorem rowBlack_eq (s : State) (y bp x : Nat) : s.rowBlack y bp x =
    if s.imgW.toNat < 3 then decide (s.pixel x y < bp)
    else decide (1 ≤ x ∧ x + 1 < s.imgW.toNat ∧
      4 * (s.pixel x y : Int) - s.pixel (x - 1) y - s.pixel (x + 1) y < 2 * bp) := by
  simp only [State.rowBlack, sharp_lt_iff]
  rfl

/-- What one written row leaves in `BMEM`: a matrix of one row (R243). -/
theorem holdsMatrix_writeRange_packRow (s : State) (w : Nat) (black : Nat → Bool) :
    HoldsMatrix s { s with bmem := s.bmem.writeRange 0 (packRow w black) } w 1 fun x _ => black x := by
  have hm := holdsMatrix_writeRange s w 1 fun x _ => black x
  rwa [show packMatrix w 1 (fun x _ => black x) = packRow w black by simp [packMatrix]] at hm

/-- The admission check of `BINGR` (R231, R243). -/
theorem badRow_iff (s : State) (row : Half) :
    (s.inadmissible (rowWords s.imgW.toNat) || decide (s.imgH.toNat ≤ row.toNat)) = true ↔
      ¬ s.Admits ((s.imgW.toNat + 31) / 32) ∨ s.imgH.toNat ≤ row.toNat := by
  rw [Bool.or_eq_true, decide_eq_true_iff, inadmissible_iff, rowWords]

/-- Settles O48: the row is `packRow`'s, and the estimate has one error. -/
theorem bingrThresholdsTheSharpenedRow : Obligations.BingrThresholdsTheSharpenedRow := by
  unfold Obligations.BingrThresholdsTheSharpenedRow
  refine fun s row => ⟨fun hadm hrow => ?_, fun h =>
    failsWith_of_finish (congrArg (finish _ s) (if_pos ((badRow_iff s row).2 h)))⟩
  have hgood := mt (badRow_iff s row).1 (not_or.2 ⟨not_not.2 hadm, Nat.not_le.2 hrow⟩)
  have hexec : exec (.bingr row) s = _ := congrArg (finish _ s) (if_neg hgood)
  refine ⟨fun bp hbp => ?_, fun e he => ?_⟩
  · rw [show estimateBlackPoint (histogram (s.rowSamples row.toNat)) = _ from hbp] at hexec
    have hs := succeedsWith_of_finish hexec rfl
    rw [show s.writeOutput s.imgW.toNat 1 _ = _ from writeOutput_eq s s.imgW 1 _] at hs
    exact ⟨_, hs, (holdsMatrix_writeRange_packRow s _ _).congr fun x _ y _ => rowBlack_eq s _ bp x⟩
  · obtain rfl := eq_notFound_of_estimate he
    rw [show estimateBlackPoint (histogram (s.rowSamples row.toNat)) = _ from he] at hexec
    exact failsWith_of_finish hexec

/-! ### The hybrid method (R244 to R249, R251) -/

/-- The black point of a block, `inner` being off the first row and column of blocks (R245, R246). -/
theorem blockPoint_eq (px : List Nat) (inner : Prop) [Decidable inner] (n w nw : Nat) :
    blockPoint px (if inner then some (n, w, nw) else none) =
      if 24 < px.foldl max 0 - px.foldl min 255 then px.sum / 64
      else if inner ∧ px.foldl min 255 < (n + 2 * w + nw) / 4 then (n + 2 * w + nw) / 4
      else px.foldl min 255 / 2 := by
  by_cases h : inner <;> simp [blockPoint, h, Nat.shiftRight_eq_div_pow]

/-- Settles O51: `blockBlackPoint_eq`, with the minimum, the maximum and the sum of the block's pixels. -/
theorem blockBlackPoints : Obligations.BlockBlackPoints := by
  unfold Obligations.BlockBlackPoints
  intro s bx bY hx hY xo yo lo hi hlo hhi hbounds avg
  have hmem : ∀ v ∈ s.blockPixels bx bY, lo ≤ v ∧ v ≤ hi := fun v hv => by
    obtain ⟨x, y, h1, h2, h3, h4, rfl⟩ := mem_blockPixels.1 hv
    exact hbounds x y h1 h2 h3 h4
  have hmin : (s.blockPixels bx bY).foldl min 255 = lo := by
    refine foldl_min_eq (mem_blockPixels.2 hlo) (fun v hv => (hmem v hv).1) ?_
    obtain ⟨x, y, -, -, -, -, rfl⟩ := hlo
    exact pixel_le s x y
  have hmax : (s.blockPixels bx bY).foldl max 0 = hi :=
    foldl_max_eq (mem_blockPixels.2 hhi) (fun v hv => (hmem v hv).2) (Nat.zero_le _)
  rw [blockBlackPoint_eq s hY hx, blockPoint_eq, hmin, hmax, sum_blockPixels]
  simp only [and_assoc]
  rfl

/-- The centre of the 5×5 blocks that block `b` of `sub` takes its threshold from (R247). -/
def blockCentre (sub b : Nat) : Nat := min (max b 2) (sub - 3)

/-- The threshold of block (bx, by) in R247's own words: the mean of the 5×5 black points around its centre. -/
def State.blockMean (s : State) (bx bY : Nat) : Nat :=
  let cx := blockCentre (blockCount s.imgW.toNat) bx
  let cy := blockCentre (blockCount s.imgH.toNat) bY
  (∑ r ∈ Finset.Icc (cy - 2) (cy + 2), ∑ c ∈ Finset.Icc (cx - 2) (cx + 2), s.blockBlackPoint r c) / 25

theorem two_le_blockCentre {n : Nat} (hn : 40 ≤ n) (b : Nat) : 2 ≤ blockCentre (blockCount n) b := by
  unfold blockCentre blockCount
  omega

theorem blockCentre_add_two_lt {n : Nat} (hn : 40 ≤ n) (b : Nat) : blockCentre (blockCount n) b + 2 < blockCount n := by
  unfold blockCentre blockCount
  omega

theorem sum_Icc_eq_sum_range (g : Nat → Nat) {c : Nat} (hc : 2 ≤ c) :
    ∑ k ∈ Finset.Icc (c - 2) (c + 2), g k = ∑ d ∈ Finset.range 5, g (c + d - 2) := by
  obtain ⟨a, rfl⟩ := Nat.exists_eq_add_of_le' hc
  have hico : Finset.Icc (a + 2 - 2) (a + 2 + 2) = Finset.Ico a (a + 5) := by
    ext k
    simp only [Finset.mem_Icc, Finset.mem_Ico]
    omega
  rw [hico, Finset.sum_Ico_eq_sum_range, Nat.add_sub_cancel_left]
  exact Finset.sum_congr rfl fun d _ => congrArg g (by omega)

theorem blockMean_eq_sum_range {s : State} (hw : 40 ≤ s.imgW.toNat) (hh : 40 ≤ s.imgH.toNat) (bx bY : Nat) :
    s.blockMean bx bY = (∑ dy ∈ Finset.range 5, ∑ dx ∈ Finset.range 5, s.blockBlackPoint
      (blockCentre (blockCount s.imgH.toNat) bY + dy - 2) (blockCentre (blockCount s.imgW.toNat) bx + dx - 2)) / 25 := by
  rw [State.blockMean, sum_Icc_eq_sum_range _ (two_le_blockCentre hh bY)]
  simp only [sum_Icc_eq_sum_range _ (two_le_blockCentre hw bx)]

/-- An entry of the computed thresholds (R247). -/
theorem getD_thresholds {s : State} (hw : 40 ≤ s.imgW.toNat) (hh : 40 ≤ s.imgH.toNat) {bx bY : Nat}
    (hx : bx < blockCount s.imgW.toNat) (hY : bY < blockCount s.imgH.toNat) :
    (s.thresholds.getD bY []).getD bx 0 = s.blockMean bx bY := by
  have hget : (s.thresholds.getD bY []).getD bx 0 = blockThreshold (s.blockGrid (blockCount s.imgH.toNat))
      (blockCount s.imgW.toNat) (blockCount s.imgH.toNat) bx bY := by
    simp [State.thresholds, hx, hY]
  rw [hget, blockThreshold_eq, blockMean_eq_sum_range hw hh]
  rfl

theorem blockCovers_iff {n b x : Nat} : blockCovers n b x = true ↔ min (8 * b) (n - 8) ≤ x ∧ x < min (8 * b) (n - 8) + 8 :=
  decide_eq_true_iff

/-- Position `x` lies in block `x div 8`, and that block covers it (R244). -/
theorem blockCovers_div {n x : Nat} (hn : 40 ≤ n) (hx : x < n) : x / 8 < blockCount n ∧ blockCovers n (x / 8) x = true := by
  rw [blockCovers_iff, blockCount]
  omega

/-- Another block that covers `x` is the last one, shifted back, and has the same centre (R249). -/
theorem blockCentre_of_covers {n b x : Nat} (hn : 40 ≤ n) (hx : x < n) (hb : b < blockCount n)
    (hcovers : blockCovers n b x = true) : blockCentre (blockCount n) b = blockCentre (blockCount n) (x / 8) := by
  rw [blockCovers_iff] at hcovers
  unfold blockCount at *
  unfold blockCentre
  omega

theorem blockMean_of_covers {s : State} (hw : 40 ≤ s.imgW.toNat) (hh : 40 ≤ s.imgH.toNat) {x y bx bY : Nat}
    (hx : x < s.imgW.toNat) (hy : y < s.imgH.toNat) (hbx : bx < blockCount s.imgW.toNat) (hbY : bY < blockCount s.imgH.toNat)
    (hcx : blockCovers s.imgW.toNat bx x = true) (hcy : blockCovers s.imgH.toNat bY y = true) :
    s.blockMean bx bY = s.blockMean (x / 8) (y / 8) := by
  simp only [State.blockMean, blockCentre_of_covers hw hx hbx hcx, blockCentre_of_covers hh hy hbY hcy]

/-- All the blocks that cover a pixel agree on it, so the block it lies in decides (R249). -/
theorem hybridBlack_thresholds {s : State} (hw : 40 ≤ s.imgW.toNat) (hh : 40 ≤ s.imgH.toNat) {x y : Nat}
    (hx : x < s.imgW.toNat) (hy : y < s.imgH.toNat) :
    s.hybridBlack s.thresholds x y = decide (s.pixel x y ≤ s.blockMean (x / 8) (y / 8)) := by
  rw [Bool.eq_iff_iff, decide_eq_true_iff]
  simp only [State.hybridBlack, List.any_eq_true, List.mem_range, Bool.and_eq_true, decide_eq_true_iff]
  constructor
  · rintro ⟨bY, hbY, hcy, bx, hbx, hcx, hle⟩
    rwa [getD_thresholds hw hh hbx hbY, blockMean_of_covers hw hh hx hy hbx hbY hcx hcy] at hle
  · intro hle
    obtain ⟨hbx, hcx⟩ := blockCovers_div hw hx
    obtain ⟨hbY, hcy⟩ := blockCovers_div hh hy
    exact ⟨y / 8, hbY, hcy, x / 8, hbx, hcx, by rwa [getD_thresholds hw hh hbx hbY]⟩

/-- `BINHM` on an admissible image from 40×40 on (R251). -/
theorem binhm_of_admits {s : State} (hw : 40 ≤ s.imgW.toNat) (hh : 40 ≤ s.imgH.toNat)
    (h : s.Admits ((s.imgW.toNat + 31) / 32 * s.imgH.toNat)) : ∃ m, SucceedsWith .binhm s { s with
      bmem := m, outW := s.imgW, outH := s.imgH, outRs := BitVec.ofNat 12 ((s.imgW.toNat + 31) / 32) } ∧
    HoldsMatrix s { s with bmem := m } s.imgW.toNat s.imgH.toNat
      fun x y => decide (s.pixel x y ≤ s.blockMean (x / 8) (y / 8)) := by
  have hbig : ¬ (s.imgW.toNat < 40 ∨ s.imgH.toNat < 40) := by omega
  have hexec : exec .binhm s = finish .binhm s (.ok s.hybridMatrix) :=
    congrArg (finish .binhm s) ((if_neg (not_inadmissible_matrixWords h)).trans (if_neg hbig))
  have hs := succeedsWith_of_finish hexec rfl
  rw [State.hybridMatrix, writeOutput_eq] at hs
  exact ⟨_, hs, (holdsMatrix_writeRange s _ _ _).congr fun x hx y hy => hybridBlack_thresholds hw hh hx hy⟩

/-- Settles O50: `binhm_of_admits` and `blockMean_of_covers`. -/
theorem binhmThresholdsByBlock : Obligations.BinhmThresholdsByBlock := by
  unfold Obligations.BinhmThresholdsByBlock
  intro s hw hh h subW subH thr
  refine ⟨binhm_of_admits hw hh h, fun x hx y hy bx hbx bY hbY hx1 hx2 hy1 hy2 => ?_⟩
  exact blockMean_of_covers hw hh hx hy hbx hbY (blockCovers_iff.2 ⟨hx1, hx2⟩) (blockCovers_iff.2 ⟨hy1, hy2⟩)

/-! ### Images of one luminance (the corner case of R251) -/

/-- The sampled pixels are pixels of the image (R234). -/
theorem mem_matrixSamples {s : State} (hh : s.imgH ≠ 0) {v : Nat} (hv : v ∈ s.matrixSamples) :
    ∃ x < s.imgW.toNat, ∃ y < s.imgH.toNat, s.pixel x y = v := by
  have hpos : 0 < s.imgH.toNat := Nat.pos_of_ne_zero fun h0 => hh (BitVec.eq_of_toNat_eq h0)
  simp only [State.matrixSamples, List.mem_flatMap, List.mem_map, List.mem_range] at hv
  obtain ⟨k, hk, d, hd, rfl⟩ := hv
  have hk4 : k ≤ 4 := by
    simp only [List.mem_cons, List.not_mem_nil, or_false] at hk
    omega
  refine ⟨_, by omega, _, ?_, rfl⟩
  rw [Nat.div_lt_iff_lt_mul (by omega)]
  exact Nat.mul_lt_mul_of_pos_left (by omega) hpos

/-- Equal samples fill one bucket, so both peaks are there and the estimate fails (R236 to R238). -/
theorem estimateBlackPoint_of_uniform {samples : List Nat} {v : Nat} (h : ∀ u ∈ samples, u = v) :
    estimateBlackPoint (histogram samples) = .error .notFound := by
  have hbucket : ∀ k < 32, 0 < bucket (histogram samples) k → k = v >>> 3 := fun k hk hpos => by
    rw [bucket_histogram _ hk, List.countP_pos_iff] at hpos
    obtain ⟨u, hu, hk⟩ := hpos
    rw [← of_decide_eq_true hk, h u hu]
  obtain ⟨f, g, ⟨hf, hmax⟩, hg, hnear, -⟩ := blackPointIsTheValley (histogram samples) (by simp [histogram])
  refine hnear ?_
  suffices g = f by simp [this]
  rcases hg with ⟨hg, -⟩ | ⟨hg, hscore, -⟩
  · exact hg
  · have hpos := Nat.pos_of_mul_pos_right hscore
    rw [hbucket g hg hpos, hbucket f hf (hpos.trans_le (hmax g hg).1)]

section
variable {s : State} {v : Nat} (hw : 40 ≤ s.imgW.toNat) (hh : 40 ≤ s.imgH.toNat)
  (h : ∀ x < s.imgW.toNat, ∀ y < s.imgH.toNat, s.pixel x y = v)
include hw hh h

/-- Without contrast a black point is half the luminance; its neighbours' average does not exceed that (R246). -/
theorem blockBlackPoint_of_uniform {bY bx : Nat} (hY : bY < blockCount s.imgH.toNat) (hx : bx < blockCount s.imgW.toNat) :
    s.blockBlackPoint bY bx = v / 2 := by
  induction hn : bY + bx using Nat.strong_induction_on generalizing bY bx with
  | _ n ih =>
    have hpixel : ∀ x y, min (8 * bx) (s.imgW.toNat - 8) ≤ x → x < min (8 * bx) (s.imgW.toNat - 8) + 8 →
        min (8 * bY) (s.imgH.toNat - 8) ≤ y → y < min (8 * bY) (s.imgH.toNat - 8) + 8 → s.pixel x y = v :=
      fun x y _ _ _ _ => h x (by omega) y (by omega)
    have hcorner := hpixel _ _ le_rfl (Nat.lt_add_of_pos_right (by decide)) le_rfl (Nat.lt_add_of_pos_right (by decide))
    refine (blockBlackPoints s bx bY hx hY v v ⟨_, _, le_rfl, by omega, le_rfl, by omega, hcorner⟩
      ⟨_, _, le_rfl, by omega, le_rfl, by omega, hcorner⟩ fun x y h1 h2 h3 h4 => ?_).trans ?_
    · rw [hpixel x y h1 h2 h3 h4]
      exact ⟨le_rfl, le_rfl⟩
    · rw [if_neg (by omega)]
      refine if_neg ?_
      rintro ⟨hY0, hx0, hlt⟩
      rw [ih _ (by omega) (by omega) hx rfl, ih _ (by omega) hY (by omega) rfl, ih _ (by omega) (by omega) (by omega) rfl] at hlt
      omega

theorem blockMean_of_uniform (bx bY : Nat) : s.blockMean bx bY = v / 2 := by
  have hcx := blockCentre_add_two_lt hw bx
  have hcy := blockCentre_add_two_lt hh bY
  have hbp : ∀ dy ∈ Finset.range 5, ∀ dx ∈ Finset.range 5, s.blockBlackPoint
      (blockCentre (blockCount s.imgH.toNat) bY + dy - 2) (blockCentre (blockCount s.imgW.toNat) bx + dx - 2) = v / 2 := by
    intro dy hdy dx hdx
    rw [Finset.mem_range] at hdy hdx
    exact blockBlackPoint_of_uniform hw hh h (by omega) (by omega)
  rw [blockMean_eq_sum_range hw hh, Finset.sum_congr rfl fun dy hdy => Finset.sum_congr rfl (hbp dy hdy)]
  simp only [Finset.sum_const, Finset.card_range, smul_eq_mul]
  omega

end

/-- Settles O52: no contrast for the estimate, and thresholds of half the luminance. -/
theorem uniformImages : Obligations.UniformImages := by
  unfold Obligations.UniformImages
  intro s v hadm h
  have ⟨_, hh0, _⟩ := hadm
  refine ⟨bingm_of_error hadm (estimateBlackPoint_of_uniform (v := v) fun u hu => ?_), fun hw hh => ?_⟩
  · obtain ⟨x, hx, y, hy, rfl⟩ := mem_matrixSamples hh0 hu
    exact h x hx y hy
  · obtain ⟨m, hs, hm⟩ := binhm_of_admits hw hh hadm
    refine ⟨m, hs, hm.congr fun x hx y hy => ?_⟩
    rw [h x hx y hy, blockMean_of_uniform hw hh h]
    exact decide_eq_decide.2 (by omega)

end Sys2Proof.Machine

/-! The family of spec/44_control.md: the control commands `NOP` and `SRESET`. -/

namespace Sys2Proof

/-- The decoder's row of opcode 0 (R99). -/
theorem decode_of_opcodeOf_eq_zero {w : Word} (h : opcodeOf w = 0) : decode w = requireZero 0x00FFFFFF w .nop := by
  rw [decode, h]
  rfl

/-- `NOP` has one command word, and no other command has its opcode (R98, R99). -/
theorem eq_zero_of_decode_of_opcodeOf_eq_zero {w : Word} {i : Instr} (hop : opcodeOf w = 0) (h : decode w = .ok i) : w = 0 := by
  have hnop : requireZero 0x00FFFFFF w .nop = .ok i := decode_of_opcodeOf_eq_zero hop ▸ h
  obtain ⟨-, rfl⟩ := requireZero_ok hnop
  exact (eq_encode_of_decode h).2

end Sys2Proof

namespace Sys2Proof.Machine

/-- Settles O19: `NOP` commits the state it began in, and a word with its opcode decodes only if it is 0. -/
theorem nopOnlyClearsLast : Obligations.NopOnlyClearsLast := by
  unfold Obligations.NopOnlyClearsLast
  refine ⟨fun s => succeedsWith_of_finish rfl rfl, decode_encode (i := .nop) rfl, fun w hop hw i h => ?_⟩
  exact hw (eq_zero_of_decode_of_opcodeOf_eq_zero hop h)

/-- A reset `STATUS` has `LAST` = 0 already. -/
theorem statusAfterSuccess_zero : statusAfterSuccess 0 = 0 := by decide

@[simp] theorem State.succeed_resetRegisters (s : State) : s.resetRegisters.succeed = s.resetRegisters := by
  rw [State.succeed, State.resetRegisters_status, statusAfterSuccess_zero]
  rfl

/-- `SRESET` leaves what `resetRegisters` does: its success changes nothing more (R271). -/
theorem exec_sreset (s : State) : exec .sreset s = .next s.resetRegisters :=
  (finish_ok .sreset s s.resetRegisters).trans (congrArg _ s.succeed_resetRegisters)

/-- Settles O20: the registers as after hardware reset; the memories and the power cycle they are read with stay. -/
theorem sresetResetsRegistersKeepsMemories : Obligations.SresetResetsRegistersKeepsMemories := by
  unfold Obligations.SresetResetsRegistersKeepsMemories
  intro s
  exact ⟨s.resetRegisters, exec_sreset s, readP_resetRegisters s, csr_resetRegisters s, fun _ => rfl, fun _ => rfl,
    fun _ => rfl, rfl, rfl, rfl⟩

end Sys2Proof.Machine

/-! The family of spec/60_exceptions.md: how commands end, and which errors come from which causes. -/

namespace Sys2Proof.Machine

/-! ### Every command and every step goes on (R280, R284) -/

theorem exec_next (i : Instr) (s : State) : ∃ t, exec i s = .next t := by
  rcases exec_cases i s with ⟨_, he⟩ | ⟨_, he, -⟩
  · exact ⟨_, he⟩
  · exact ⟨_, he⟩

theorem step_of_idle {s : State} (h : s.host = []) : step s = .next s := by
  unfold step
  rw [h]

/-- Settles O3. -/
theorem idleBlockHoldsItsState : Obligations.IdleBlockHoldsItsState := by
  unfold Obligations.IdleBlockHoldsItsState
  exact fun _ => step_of_idle

/-- Settles O10: a step is idle, a command, an error record or another host access, and a command always answers a state. -/
theorem everyStepAnswersNextState : Obligations.EveryStepAnswersNextState := by
  unfold Obligations.EveryStepAnswersNextState
  refine ⟨exec_next, fun s => ?_⟩
  unfold State.Safe
  rcases step_cases s with ⟨-, e⟩ | ⟨_, i, _, -, -, e⟩ | ⟨_, _, _, -, -, e⟩ | ⟨_, _, -, -, e⟩
  · exact ⟨_, e⟩
  · exact e ▸ exec_next i _
  · exact ⟨_, e⟩
  · exact ⟨_, e⟩

/-- Only `SRESET` writes `ERRCMD` when it succeeds (R271, R284). -/
theorem Effect.errCmd {i : Instr} {s u : State} (h : Effect s i u) (hs : i ≠ .sreset) : u.errCmd = s.errCmd := by
  cases h with
  | sreset => exact absurd rfl hs
  | _ => rfl

/-- Settles O11: the two ends of `exec_cases`. -/
theorem commandSucceedsOrChangesOnlyErrorRecord : Obligations.CommandSucceedsOrChangesOnlyErrorRecord := by
  unfold Obligations.CommandSucceedsOrChangesOnlyErrorRecord
  intro i s
  rcases exec_cases i s with ⟨c, he⟩ | ⟨u, he, hu⟩
  · exact ⟨_, he, .inr ⟨c, recordsError_raise c _ s⟩⟩
  · refine ⟨_, he, .inl ⟨lastOf_statusAfterSuccess _, hu.host, fun hi => ⟨hu.errCmd hi, fun n hn => ?_⟩⟩⟩
    have hst : u.status = s.status := hu.status.resolve_right fun h => hi h.1
    rw [State.succeed_status, getLsbD_statusAfterSuccess _ hn, hst]

/-! ### The ends of a command exclude each other -/

section
variable {i : Instr} {s t u : State} {c d : ErrorCode}

/-- `LAST` tells the error a command ended with. -/
theorem lastOf_eq_code_iff (h : exec i s = .next t) : lastOf t.status = c.code ↔ FailsWith i s c := by
  refine ⟨fun hlast => ?_, ?_⟩
  · rcases exec_cases i s with ⟨d, he⟩ | ⟨u, he, -⟩
    · cases h.symm.trans he
      obtain rfl : c = d := ErrorCode.code_injective (hlast.symm.trans (lastOf_statusAfterError d s.status))
      exact ⟨_, he, recordsError_raise c _ s⟩
    · cases h.symm.trans he
      exact absurd (hlast.symm.trans (lastOf_statusAfterSuccess u.status)) c.code_ne_zero
  · rintro ⟨_, h', -, hlast, -⟩
    cases h.symm.trans h'
    exact hlast

theorem lastOf_le (h : exec i s = .next t) : (lastOf t.status).toNat ≤ 4 := by
  rcases exec_cases i s with ⟨d, he⟩ | ⟨u, he, -⟩
  · cases h.symm.trans he
    rw [State.raise_status, lastOf_statusAfterError]
    exact d.code_le.2
  · cases h.symm.trans he
    rw [State.succeed_status, lastOf_statusAfterSuccess]
    decide

theorem FailsWith.unique (hc : FailsWith i s c) (hd : FailsWith i s d) : c = d := by
  obtain ⟨t, ht⟩ := exec_next i s
  exact ErrorCode.code_injective (((lastOf_eq_code_iff ht).2 hc).symm.trans ((lastOf_eq_code_iff ht).2 hd))

theorem SucceedsWith.not_failsWith (h : SucceedsWith i s u) : ¬ FailsWith i s c := by
  obtain ⟨t, ht, -, hlast, -⟩ := h
  exact fun hf => c.code_ne_zero (((lastOf_eq_code_iff ht).2 hf).symm.trans hlast)

theorem not_failsWith_of_ok (h : exec i s = finish i s (.ok u)) : ¬ FailsWith i s c :=
  fun hf => nomatch (failsWith_iff_of_finish h c).1 hf

/-- A check at the start of the pseudocode that does not pass is the error. -/
theorem failsWith_of_guard {p : Prop} [Decidable p] {r : Except ErrorCode State}
    (h : exec i s = finish i s (if p then .error c else r)) (hp : p) : FailsWith i s c :=
  failsWith_of_finish (h.trans (congrArg (finish i s) (if_pos hp)))

end

/-! ### The causes of the errors (R101, R281, R285) -/

/-- What an error says of the command that ended with it: a cause in the table of R285, the search for a black point, the
decoder, or the ill-formed term (R101, R281). -/
def ErrorCause (s : State) (i : Instr) : ErrorCode → Prop
  | .illegalArgument => IllegalArgumentCause s i
  | .notFound => i = .bingm ∨ (∃ y, i = .bingr y) ∨ (i = .binhm ∧ (s.imgW.toNat < 40 ∨ s.imgH.toNat < 40))
  | .checksum => ∃ n twoS, i = .rsdec n twoS
  | .illegalCommand => i.wf = false

/-- A product too long for a register has the cause R168 gives. -/
theorem degrees_of_long_pmul (f : Field) {p q : Poly} (hp : PolyOk p) (hq : PolyOk q)
    (h : Config.pcap < (pmul f p q).length) : p ≠ [0] ∧ q ≠ [0] ∧ 255 < deg p + deg q := by
  have hfits : ¬ (deg p + deg q ≤ 255 ∨ p = [0] ∨ q = [0]) := fun hc => Nat.not_lt.2 (polyOk_pmul f hp hq hc).2.1 h
  simp only [not_or, not_le] at hfits
  obtain ⟨hdeg, h0p, h0q⟩ := hfits
  exact ⟨h0p, h0q, hdeg⟩

/-- A multiple too long for a register has the cause R170 gives. -/
theorem length_of_long_pmulm (f : Field) {p : Poly} {d : Nat} {c : Byte} (h : Config.pcap < (pmulm f p d c).length) :
    c ≠ 0 ∧ p ≠ [0] ∧ 256 < p.length + d := by
  have hfits : ¬ (p = [0] ∨ p.length + d ≤ 256) := fun hc => Nat.not_lt.2 (polyOk_pmulm f c hc).2.1 h
  simp only [not_or, not_le] at hfits
  obtain ⟨h0, hlen⟩ := hfits
  refine ⟨?_, h0, hlen⟩
  rintro rfl
  rw [pmulm, if_pos rfl] at h
  exact absurd h (by decide)

theorem eq_notFound_of_globalMatrix {s : State} {c : ErrorCode} (h : s.globalMatrix = .error c) : c = .notFound := by
  unfold State.globalMatrix at h
  split at h
  · next he =>
    cases h
    exact eq_notFound_of_estimate he
  · cases h

section
variable {i : Instr} {s : State} {c : ErrorCode}

/-- For a command that first checks its arguments it is enough that the check finds the table's cause (R285), and that the
errors raised after it have their causes. -/
theorem errorCause_of_guard {p : Prop} [Decidable p] {r : Except ErrorCode State}
    (h : exec i s = finish i s (if p then .error .illegalArgument else r)) (hf : FailsWith i s c)
    (hp : c = .illegalArgument → p → IllegalArgumentCause s i) (hr : r = .error c → ErrorCause s i c) :
    ErrorCause s i c := by
  have hres := (failsWith_iff_of_finish h c).1 hf
  split at hres
  · next hpass =>
    cases hres
    exact hp rfl hpass
  · exact hr hres

/-- Every error has its cause. Only `PMUL` and `PDIV` need normal registers, and only for `ILLEGAL_ARGUMENT`. -/
theorem errorCause_of_failsWith (hs : c = .illegalArgument → s.polysOk) (hf : FailsWith i s c) : ErrorCause s i c := by
  cases i with
  | nop | sreset | gfadd | gfmul | gfexp | pzero | pone | pdeg | peval | padd | pscl | rsgen =>
    exact absurd hf (not_failsWith_of_ok rfl)
  | gfinv | gflog | pld | pst | pcoef | rsenc => exact errorCause_of_guard rfl hf (fun _ => id) nofun
  | pmul rd ra rb =>
    exact errorCause_of_guard rfl hf (fun hc => degrees_of_long_pmul s.fld (hs hc ra) (hs hc rb)) nofun
  | pmulm rd ra d k => exact errorCause_of_guard rfl hf (fun _ => length_of_long_pmulm s.fld) nofun
  | pdiv rd re ra rb =>
    by_cases hd : rd = re
    · obtain rfl := hf.unique (failsWith_of_guard (c := .illegalCommand) rfl hd)
      simp [ErrorCause, Instr.wf, hd]
    · exact errorCause_of_guard (congrArg (finish _ s) (if_neg hd)) hf
        (fun hc hz => ⟨hd, (isZero_iff (hs hc rb)).1 hz⟩) nofun
  | rssyn rd n twoS => exact errorCause_of_guard rfl hf (fun _ => (ReedSolomon.badBlockLimits_iff n twoS).1) nofun
  | rsdec n twoS =>
    obtain ⟨hends, hlimits⟩ := ReedSolomon.rsdecTouchesOnlyItsBlock n twoS s
    by_cases hlim : twoS = 0 ∨ n.toNat ≤ twoS.toNat
    · obtain rfl := hf.unique (hlimits hlim)
      exact hlim
    · rw [not_or, not_le] at hlim
      have hpos : 1 ≤ twoS.toNat := Nat.one_le_iff_ne_zero.2 fun h0 => hlim.1 (BitVec.eq_of_toNat_eq h0)
      rcases hends hpos hlim.2 with ⟨_, hok, -⟩ | hsum
      · exact absurd hf hok.not_failsWith
      · obtain rfl := hf.unique hsum
        exact ⟨n, twoS, rfl⟩
  | bingm =>
    refine errorCause_of_guard rfl hf (fun _ => (inadmissible_iff s _).1) fun hr => ?_
    obtain rfl := eq_notFound_of_globalMatrix hr
    exact .inl rfl
  | bingr row =>
    refine errorCause_of_guard rfl hf (fun _ => (badRow_iff s row).1) fun hr => ?_
    split at hr
    · next he =>
      cases hr
      obtain rfl := eq_notFound_of_estimate he
      exact .inr (.inl ⟨row, rfl⟩)
    · cases hr
  | binhm =>
    refine errorCause_of_guard rfl hf (fun _ => (inadmissible_iff s _).1) fun hr => ?_
    split at hr
    · next hsmall =>
      obtain rfl := eq_notFound_of_globalMatrix hr
      exact .inr (.inr ⟨rfl, hsmall⟩)
    · cases hr

/-- Every cause of the table of R285 is found. -/
theorem failsWith_of_illegalArgumentCause (hs : s.polysOk) (h : IllegalArgumentCause s i) :
    FailsWith i s .illegalArgument := by
  cases i with
  | nop | sreset | gfadd | gfmul | gfexp | pzero | pone | pdeg | peval | padd | pscl | rsgen => exact h.elim
  | gfinv | gflog | pld | pst | pcoef | rsenc => exact failsWith_of_guard rfl h
  | pmul rd ra rb =>
    obtain ⟨ha, hb, hdeg⟩ := h
    exact (pmulConvolvesCoefficients rd ra rb s hs).2 hdeg ha hb
  | pmulm rd ra d k =>
    obtain ⟨hk, ha, hlen⟩ := h
    exact (psclPmulmScaleCoefficients rd ra d k s hs).2.2 hk ha hlen
  | pdiv rd re ra rb =>
    obtain ⟨hd, hb⟩ := h
    exact (pdivIsDivisionWithRemainder rd re ra rb s hs).2.1 hd hb
  | rsdec n twoS | rssyn rd n twoS => exact failsWith_of_guard rfl ((ReedSolomon.badBlockLimits_iff _ _).2 h)
  | bingm | binhm => exact failsWith_of_guard rfl ((inadmissible_iff s _).2 h)
  | bingr row => exact failsWith_of_guard rfl ((badRow_iff s row).2 h)

theorem errorCause_of_lastOf {t : State} (hc : c ≠ .illegalArgument) (ht : exec i s = .next t)
    (hlast : lastOf t.status = c.code) : ErrorCause s i c :=
  errorCause_of_failsWith (fun h => absurd h hc) ((lastOf_eq_code_iff ht).1 hlast)

/-- `ILLEGAL_COMMAND` is the ill-formed term's error, and no other command's (R101). -/
theorem failsWith_illegalCommand_iff : FailsWith i s .illegalCommand ↔ i.wf = false := by
  refine ⟨errorCause_of_failsWith (c := .illegalCommand) nofun, fun hwf => ?_⟩
  cases i with
  | pdiv rd re ra rb => exact failsWith_of_guard rfl (by simpa [Instr.wf] using hwf)
  | _ => cases hwf

end

/-- Settles O12: the causes are those of the table both ways, and the pseudocode of the twelve has no error. -/
theorem illegalArgumentExactlyForItsCauses : Obligations.IllegalArgumentExactlyForItsCauses := by
  unfold Obligations.IllegalArgumentExactlyForItsCauses
  refine ⟨fun i s hs => ⟨errorCause_of_failsWith fun _ => hs, failsWith_of_illegalArgumentCause hs⟩, fun i s hi => ?_⟩
  rcases hi with rfl | rfl | ⟨_, _, rfl⟩ | ⟨_, _, rfl⟩ | ⟨_, rfl⟩ | ⟨_, rfl⟩ | ⟨_, rfl⟩ | ⟨_, rfl⟩ | ⟨_, _, rfl⟩ |
    ⟨_, _, _, rfl⟩ | ⟨_, _, _, rfl⟩ | ⟨_, _, rfl⟩
  all_goals exact ⟨_, rfl, lastOf_statusAfterSuccess _⟩

/-- Settles O13: `LAST` tells the error, and each error has its cause. -/
theorem otherErrorsHaveTheirCommands : Obligations.OtherErrorsHaveTheirCommands := by
  unfold Obligations.OtherErrorsHaveTheirCommands
  intro i s
  obtain ⟨t, ht⟩ := exec_next i s
  exact ⟨t, ht, lastOf_le ht, errorCause_of_lastOf (c := .notFound) nofun ht,
    errorCause_of_lastOf (c := .checksum) nofun ht,
    (lastOf_eq_code_iff (c := .illegalCommand) ht).trans failsWith_illegalCommand_iff⟩

end Sys2Proof.Machine
